-- ==== Sys2Proof/Word.lean ====
section
/-! DEFINITION. The word types of the block (rule R11): every register value is a `u32`, a FIFO entry a `u8`,
the divisor field a `u16`. -/

namespace Sys2Proof

/-- `u8` of rule R11: one FIFO entry, one transmitted or received byte. -/
abbrev Byte := BitVec 8

/-- `u16` of rule R11: the divisor field of div (rule R28). -/
abbrev Half := BitVec 16

/-- `u32` of rule R11: a register value, the clock, a baud rate, a length, a cursor (D29). -/
abbrev Word := BitVec 32

end Sys2Proof
end

