-- ==== Sys2Proof/Config.lean ====
section
/-! DEFINITION. What an implementation fixes and what the spec leaves free: the parameters of rule R8 with the
alternatives the spec names, the OPEN values as constants without a body, the free values (`draw`, rule R12), and the
choice of the agent that steps next (rule R237). -/

namespace Sys2Proof

/-- `TX_OVERFLOW` (rule R8): what a txdata write to a full FIFO does; decided `fault` (D9). -/
inductive TxOverflow where
  | fault
  | drop
  deriving DecidableEq, Repr

/-- `FILL_ORDER` (rule R8): order of write and full-check in the fill loops; decided `writeThenCheck` (D19). -/
inductive FillOrder where
  | writeThenCheck
  | checkThenWrite
  deriving DecidableEq, Repr

/-- `DONE_WRITE_MODE` (rule R8): how completion disables txen and ie; decided `writeWhole` (D21). -/
inductive DoneWriteMode where
  | writeWhole
  | clearField
  deriving DecidableEq, Repr

/-- The parameters of rule R8 that the step relation reads, and `IRQ_LINE` of rule R76. `UART_BASE` and `CLOCK_HZ` have
their one home in the driver record (rule R36). The watermark rules have one decided form each (Machine/Flags.lean). -/
structure Params where
  /-- `TX_FIFO_DEPTH`, OPEN, at least 1. -/
  txDepth : Nat
  /-- `RX_FIFO_DEPTH`, OPEN, at least 1. -/
  rxDepth : Nat
  /-- `DIV_RESET`, OPEN. -/
  divReset : Half
  /-- `IRQ_LINE`, OPEN; a platform parameter no rule reads (rule R76). -/
  irqLine : Nat
  /-- `TX_OVERFLOW`. -/
  txOverflow : TxOverflow
  /-- `IP_RAW`. -/
  ipRaw : Bool
  /-- `FILL_ORDER`. -/
  fillOrder : FillOrder
  /-- `CURSOR_INIT_WRITE`. -/
  cursorInitWrite : Bool
  /-- `DONE_WRITE_MODE`. -/
  doneWriteMode : DoneWriteMode
  /-- `ATOMIC_DRIVER_OPS`. -/
  atomicDriverOps : Bool
  /-- `SPURIOUS_IRQ`. -/
  spuriousIrq : Bool
  deriving DecidableEq, Repr

/-- Each FIFO depth is an integer of at least 1 (rule R8). -/
abbrev Params.Valid (p : Params) : Prop := 1 ≤ p.txDepth ∧ 1 ≤ p.rxDepth

/-- The decided values of rule R8 over given OPEN values. -/
def Params.decided (txDepth rxDepth : Nat) (divReset : Half) (irqLine : Nat) : Params where
  txDepth := txDepth
  rxDepth := rxDepth
  divReset := divReset
  irqLine := irqLine
  txOverflow := .fault
  ipRaw := true
  fillOrder := .writeThenCheck
  cursorInitWrite := false
  doneWriteMode := .writeWhole
  atomicDriverOps := false
  spuriousIrq := true

/-- The environment's choice of the next step (rules R13, R237): one of the five agents; a line step comes with the byte
the line delivers (`draw(u8)` of rule R125). -/
inductive Choice where
  | foreground
  | handler
  | dispatch
  | transmitter
  | line (b : Byte)
  deriving DecidableEq, Repr, Inhabited

/-- `UART_BASE / 4`: OPEN, so that the base is 4-byte aligned (rules R8, R62; log entry 6; safe). -/
opaque Config.uartBaseQuarter : Nat

/-- `UART_BASE` (rules R8, R62). -/
def Config.uartBase : Nat := 4 * Config.uartBaseQuarter

/-- `CLOCK_HZ`: OPEN (rule R8; log entry 6; safe). -/
opaque Config.clockHz : Word

/-- `TX_FIFO_DEPTH - 1`: OPEN, so that the depth is at least 1 (rule R8; log entry 6; safe). -/
opaque Config.txDepthPred : Nat

/-- `RX_FIFO_DEPTH - 1`: OPEN, so that the depth is at least 1 (rule R8; log entry 6; safe). -/
opaque Config.rxDepthPred : Nat

/-- `DIV_RESET`: OPEN (rule R8; log entry 6; safe). -/
opaque Config.divReset : Half

/-- `IRQ_LINE`: OPEN (rule R76; log entry 6; safe). -/
opaque Config.irqLine : Nat

/-- `draw(u8)` of rules R12, R22 and R23: the value of the `n`-th draw, a free value (log entry 5; safe). -/
opaque Config.drawByte (n : Nat) : Byte

/-- The environment's choice of the next step where `State.schedule` gives none, a free value (log entry 1; safe). -/
opaque Config.choice (n : Nat) : Choice

/-- The parameters of the hardware: the decided values of rule R8 over the OPEN constants. -/
def Config.params : Params :=
  .decided (Config.txDepthPred + 1) (Config.rxDepthPred + 1) Config.divReset Config.irqLine

end Sys2Proof
end

