-- ==== Sys2Proof/Syntax.lean ====
section
/-! DEFINITION. The operations of the block (rules R84 to R87): one constructor of `Instr` per row of
`spec/opcode_table.json`, and the program form they are fetched from, a descriptor byte with its operands. -/

namespace Sys2Proof

/-- Parity operand of configure (rule R87): none = 0, odd = 1, even = 2. -/
inductive Parity where
  | none
  | odd
  | even
  deriving DecidableEq, Repr

/-- Stop-bit operand of configure and stop-bit mode of the driver (rules R42, R87): one = 0, two = 1. -/
inductive StopBits where
  | one
  | two
  deriving DecidableEq, Repr

/-- The identity of a buffer (rule R38): only equality means anything (DESIGN CHOICE, log entry 7; safe). -/
structure BufId where
  num : Nat
  deriving DecidableEq, Repr

/-- A caller-owned buffer: an identity and its bytes (rule R38). -/
structure Buffer where
  id : BufId
  data : List Byte
  deriving DecidableEq, Repr

/-- The identity of a client (rules R43, R87, R207): only equality means anything (DESIGN CHOICE, log entry 7; safe). -/
structure ClientId where
  num : Nat
  deriving DecidableEq, Repr

/-- The 25 operations of `spec/opcode_table.json` (rules R85 and R86). -/
inductive Instr where
  | mmioRTxdata
  | mmioWTxdata (v : Word)
  | mmioRRxdata
  | mmioWRxdata (v : Word)
  | mmioRTxctrl
  | mmioWTxctrl (v : Word)
  | mmioRRxctrl
  | mmioWRxctrl (v : Word)
  | mmioRIe
  | mmioWIe (v : Word)
  | mmioRIp
  | mmioWIp (v : Word)
  | mmioRDiv
  | mmioWDiv (v : Word)
  | configure (baud : Word) (parity : Parity) (flow : Bool) (stop : StopBits)
  | transmitSync (bytes : List Byte)
  | transmitBuffer (buf : Buffer) (len : Word)
  | transmitAbort
  | transmitWord (word : Word)
  | receiveBuffer (buf : Buffer) (len : Word)
  | receiveAbort
  | receiveWord
  | setTransmitClient (client : ClientId)
  | setReceiveClient (client : ClientId)
  | handleInterrupt
  deriving DecidableEq, Repr

/-- One operand as a program gives it. Numbers and bytes are unbounded here, so that an operand outside its type
(rule R232) is a term that the decoder refuses. -/
inductive Operand where
  | num (n : Nat)
  | bytes (l : List Nat)
  | buffer (b : Buffer)
  | client (c : ClientId)
  deriving DecidableEq, Repr

/-- One operation of a program as it is fetched: the descriptor byte and its operands (rule R84). -/
structure Entry where
  desc : Byte
  args : List Operand
  deriving DecidableEq, Repr

/-- A foreground program (rules R44, R73, R91): the buffers declared beside it and its operations in order. Two of the
buffers may share an identity (DESIGN CHOICE, log entry 19; unsafe for such a program). -/
structure Program where
  bufs : List Buffer
  ops : List Entry
  deriving DecidableEq, Repr

end Sys2Proof
end

