-- ==== Sys2Proof/WellFormed.lean ====
section
/-! DEFINITION. What makes an operation fit to stand in a program (rules R88 and R232), with a name for each reason
to refuse one. -/

namespace Sys2Proof

/-- Why a program is refused before its first step (rule R232). -/
inductive Reject where
  /-- The descriptor is reserved (rule R88): `d[6:5]` is 01 or 11, or 0xC0 to 0xDF, or 0x4B to 0x5F. -/
  | reservedDescriptor (d : Byte)
  /-- An operand is outside its type, or the operands are not those of the descriptor (rules R87, R232). -/
  | operandType (d : Byte)
  /-- The program names handle_interrupt, which is entered only by dispatch (rules R86, R88). -/
  | handlerInProgram
  /-- transmit_buffer or receive_buffer names a buffer that is not declared beside the program (rule R232). -/
  | undeclaredBuffer (id : BufId)
  deriving DecidableEq, Repr

/-- The buffer an operation names, if it names one (rule R86). -/
def Instr.buffer? : Instr → Option Buffer
  | .transmitBuffer b _ => some b
  | .receiveBuffer b _ => some b
  | _ => none

/-- The checks of rule R232 on a decoded operation, in a program that declares the buffers `bufs`: `none` when the
operation may stand there. A buffer is declared when its identity and its bytes together are those of one of `bufs`
(DESIGN CHOICE, log entry 19; unsafe for a program in which two of `bufs` share an identity). -/
def Instr.check (bufs : List Buffer) (i : Instr) : Option Reject :=
  if i = .handleInterrupt then some .handlerInProgram
  else match i.buffer? with
    | none => none
    | some b => if b ∈ bufs then none else some (.undeclaredBuffer b.id)

/-- The operation may stand in a program that declares `bufs`. -/
abbrev Instr.WellFormed (bufs : List Buffer) (i : Instr) : Prop := i.check bufs = none

end Sys2Proof
end

