-- ==== Sys2Proof/Decode.lean ====
section
/-! DEFINITION. Decoder and encoder of the spec's operation descriptors (rules R84 to R90), total on every descriptor
byte with any operands, and the check of a whole program before its first step (rule R232). -/

namespace Sys2Proof

/-- What a fetched entry stands for: one of the 25 operations, or an MMIO descriptor whose offset is none of the seven
of rule R61, which decodes as an access to `UART_BASE + off` (rule R88). -/
inductive Fetched where
  | op (i : Instr)
  | unmappedRead (off : BitVec 5)
  | unmappedWrite (off : BitVec 5) (v : Word)
  deriving DecidableEq, Repr

/-- `W = d[7]` (rule R84). -/
def descW (d : Byte) : Bool := d.getLsbD 7

/-- `d[6:5]`, the format bits (rule R84). -/
def descFmt (d : Byte) : BitVec 2 := d.extractLsb' 5 2

/-- `d[4:0]`, the register offset or the operation number (rule R84). -/
def descOff (d : Byte) : BitVec 5 := d.extractLsb' 0 5

/-! ## Operands (rule R87) -/

/-- A `u32` operand. -/
def Operand.word? : Operand → Option Word
  | .num n => if n < 2 ^ 32 then some (BitVec.ofNat 32 n) else none
  | _ => none

/-- A Parity operand: 0, 1 or 2. -/
def Operand.parity? : Operand → Option Parity
  | .num 0 => some .none
  | .num 1 => some .odd
  | .num 2 => some .even
  | _ => none

/-- A Bool operand: 0 or 1. -/
def Operand.bool? : Operand → Option Bool
  | .num 0 => some false
  | .num 1 => some true
  | _ => none

/-- A StopBits operand: 0 or 1. -/
def Operand.stop? : Operand → Option StopBits
  | .num 0 => some .one
  | .num 1 => some .two
  | _ => none

/-- The bytes of a list whose every number is a `u8`. -/
def bytesOf : List Nat → Option (List Byte)
  | [] => some []
  | n :: rest =>
    if n < 2 ^ 8 then (bytesOf rest).map (BitVec.ofNat 8 n :: ·) else none

/-- A list of `u8`. -/
def Operand.bytes? : Operand → Option (List Byte)
  | .bytes l => bytesOf l
  | _ => none

/-- A Buffer operand. -/
def Operand.buffer? : Operand → Option Buffer
  | .buffer b => some b
  | _ => none

/-- A ClientId operand. -/
def Operand.client? : Operand → Option ClientId
  | .client c => some c
  | _ => none

/-! ## Decoder -/

/-- The operation of an MMIO read descriptor (rule R85). -/
def readOp (off : BitVec 5) : Fetched :=
  match off.toNat with
  | 0x00 => .op .mmioRTxdata
  | 0x04 => .op .mmioRRxdata
  | 0x08 => .op .mmioRTxctrl
  | 0x0C => .op .mmioRRxctrl
  | 0x10 => .op .mmioRIe
  | 0x14 => .op .mmioRIp
  | 0x18 => .op .mmioRDiv
  | _ => .unmappedRead off

/-- The operation of an MMIO write descriptor with value `v` (rule R85). -/
def writeOp (off : BitVec 5) (v : Word) : Fetched :=
  match off.toNat with
  | 0x00 => .op (.mmioWTxdata v)
  | 0x04 => .op (.mmioWRxdata v)
  | 0x08 => .op (.mmioWTxctrl v)
  | 0x0C => .op (.mmioWRxctrl v)
  | 0x10 => .op (.mmioWIe v)
  | 0x14 => .op (.mmioWIp v)
  | 0x18 => .op (.mmioWDiv v)
  | _ => .unmappedWrite off v

/-- An MMIO descriptor (rule R84): a read carries no operand, a write one `u32`. -/
def decodeMmio (d : Byte) (args : List Operand) : Except Reject Fetched :=
  match descW d, args with
  | false, [] => .ok (readOp (descOff d))
  | true, [a] =>
    match a.word? with
    | some v => .ok (writeOp (descOff d) v)
    | none => .error (.operandType d)
  | _, _ => .error (.operandType d)

/-- The operands of API operation number `op` (rule R86): `none` when they are not the operation's. -/
def apiOp (op : Nat) (args : List Operand) : Option Instr :=
  match op, args with
  | 0, [b, p, f, s] => do
    let baud ← b.word?
    let parity ← p.parity?
    let flow ← f.bool?
    let stop ← s.stop?
    return .configure baud parity flow stop
  | 1, [l] => l.bytes?.map .transmitSync
  | 2, [b, n] => do
    let buf ← b.buffer?
    let len ← n.word?
    return .transmitBuffer buf len
  | 3, [] => some .transmitAbort
  | 4, [w] => w.word?.map .transmitWord
  | 5, [b, n] => do
    let buf ← b.buffer?
    let len ← n.word?
    return .receiveBuffer buf len
  | 6, [] => some .receiveAbort
  | 7, [] => some .receiveWord
  | 8, [c] => c.client?.map .setTransmitClient
  | 9, [c] => c.client?.map .setReceiveClient
  | 10, [] => some .handleInterrupt
  | _, _ => none

/-- An API descriptor (rules R84, R86, R88): `d[7] = 0`, operation numbers 0 to 10; the others are reserved. -/
def decodeApi (d : Byte) (args : List Operand) : Except Reject Fetched :=
  if descW d || decide (10 < (descOff d).toNat) then .error (.reservedDescriptor d)
  else match apiOp (descOff d).toNat args with
    | some i => .ok (.op i)
    | none => .error (.operandType d)

/-- The decoder: total on every descriptor and operand list, refusing by name (rules R84 to R88). -/
def decode (e : Entry) : Except Reject Fetched :=
  match (descFmt e.desc).toNat with
  | 0 => decodeMmio e.desc e.args
  | 2 => decodeApi e.desc e.args
  | _ => .error (.reservedDescriptor e.desc)

/-! ## Encoder -/

/-- The Parity number of rule R87. -/
def Parity.code : Parity → Nat
  | .none => 0
  | .odd => 1
  | .even => 2

/-- The StopBits number of rule R87. -/
def StopBits.code : StopBits → Nat
  | .one => 0
  | .two => 1

/-- The descriptor byte of an operation (rules R85 and R86). -/
def descriptor : Instr → Byte
  | .mmioRTxdata => 0x00#8
  | .mmioWTxdata _ => 0x80#8
  | .mmioRRxdata => 0x04#8
  | .mmioWRxdata _ => 0x84#8
  | .mmioRTxctrl => 0x08#8
  | .mmioWTxctrl _ => 0x88#8
  | .mmioRRxctrl => 0x0C#8
  | .mmioWRxctrl _ => 0x8C#8
  | .mmioRIe => 0x10#8
  | .mmioWIe _ => 0x90#8
  | .mmioRIp => 0x14#8
  | .mmioWIp _ => 0x94#8
  | .mmioRDiv => 0x18#8
  | .mmioWDiv _ => 0x98#8
  | .configure _ _ _ _ => 0x40#8
  | .transmitSync _ => 0x41#8
  | .transmitBuffer _ _ => 0x42#8
  | .transmitAbort => 0x43#8
  | .transmitWord _ => 0x44#8
  | .receiveBuffer _ _ => 0x45#8
  | .receiveAbort => 0x46#8
  | .receiveWord => 0x47#8
  | .setTransmitClient _ => 0x48#8
  | .setReceiveClient _ => 0x49#8
  | .handleInterrupt => 0x4A#8

/-- The operands of an operation, in the order of rule R86. -/
def operands : Instr → List Operand
  | .mmioWTxdata v => [.num v.toNat]
  | .mmioWRxdata v => [.num v.toNat]
  | .mmioWTxctrl v => [.num v.toNat]
  | .mmioWRxctrl v => [.num v.toNat]
  | .mmioWIe v => [.num v.toNat]
  | .mmioWIp v => [.num v.toNat]
  | .mmioWDiv v => [.num v.toNat]
  | .configure b p f s => [.num b.toNat, .num p.code, .num f.toNat, .num s.code]
  | .transmitSync l => [.bytes (l.map BitVec.toNat)]
  | .transmitBuffer b n => [.buffer b, .num n.toNat]
  | .transmitWord w => [.num w.toNat]
  | .receiveBuffer b n => [.buffer b, .num n.toNat]
  | .setTransmitClient c => [.client c]
  | .setReceiveClient c => [.client c]
  | .mmioRTxdata => []
  | .mmioRRxdata => []
  | .mmioRTxctrl => []
  | .mmioRRxctrl => []
  | .mmioRIe => []
  | .mmioRIp => []
  | .mmioRDiv => []
  | .transmitAbort => []
  | .receiveAbort => []
  | .receiveWord => []
  | .handleInterrupt => []

/-- The encoder: descriptor and operands (rules R84 to R87). -/
def encode (i : Instr) : Entry := ⟨descriptor i, operands i⟩

/-! ## Whole programs -/

/-- Why one entry of a program that declares `bufs` is refused; `none` when it is admitted (rules R88, R232). -/
def Entry.refusal (bufs : List Buffer) (e : Entry) : Option Reject :=
  match decode e with
  | .error r => some r
  | .ok (.op i) => i.check bufs
  | .ok (.unmappedRead _) => none
  | .ok (.unmappedWrite _ _) => none

/-- The first refused entry from index `k` on, with its reason. -/
def refusalFrom (bufs : List Buffer) : Nat → List Entry → Option (Nat × Reject)
  | _, [] => none
  | k, e :: rest =>
    match e.refusal bufs with
    | some r => some (k, r)
    | none => refusalFrom bufs (k + 1) rest

/-- Rule R232: the index and the reason for which a program is refused before its first step; `none` when it runs. -/
def Program.refusal (p : Program) : Option (Nat × Reject) := refusalFrom p.bufs 0 p.ops

/-! ## Words of the opcode table -/

/-- The buffer that stands for an operand of zeros: identity 0 and no bytes (log entry 7). -/
def zeroBuffer : Buffer := ⟨⟨0⟩, []⟩

/-- The operands of zeros of a descriptor of the table (log entry 7): the table gives operands no bits. -/
def zeroOperands (d : Byte) : List Operand :=
  match (descFmt d).toNat, descW d, (descOff d).toNat with
  | 0, true, _ => [.num 0]
  | 2, false, 0 => [.num 0, .num 0, .num 0, .num 0]
  | 2, false, 1 => [.bytes []]
  | 2, false, 2 => [.buffer zeroBuffer, .num 0]
  | 2, false, 4 => [.num 0]
  | 2, false, 5 => [.buffer zeroBuffer, .num 0]
  | 2, false, 8 => [.client ⟨0⟩]
  | 2, false, 9 => [.client ⟨0⟩]
  | _, _, _ => []

/-- The entry of a table word: its low eight bits are the descriptor, the operands are zeros. -/
def tableEntry (w : Nat) : Entry := ⟨BitVec.ofNat 8 w, zeroOperands (BitVec.ofNat 8 w)⟩

/-- The instruction the decoder reads from a table row of `nbits` bits whose value is `w`: every row of
`spec/opcode_table.json` is one descriptor byte (rule R90). -/
def decodeTableWord (nbits w : Nat) : Option Instr :=
  if nbits = 8 then
    match decode (tableEntry w) with
    | .ok (.op i) => some i
    | _ => none
  else none

end Sys2Proof
end

