-- ==== Sys2Proof/Machine/State.lean ====
section
/-! DEFINITION. The state of the block (rules R20 to R51) as plain data, the reasons a step can stop, and the state
after reset and construction (rules R51, R270, R271). -/

namespace Sys2Proof.Machine

/-- The seven registers of the block, in the source's order (rules R9, R61). -/
inductive Reg where
  | txdata
  | rxdata
  | txctrl
  | rxctrl
  | ie
  | ip
  | div
  deriving DecidableEq, Repr

/-- The stored fields of txctrl (rule R24). -/
structure Txctrl where
  txen : Bool
  nstop : Bool
  txcnt : BitVec 3
  deriving DecidableEq, Repr

/-- The stored fields of rxctrl (rule R25). -/
structure Rxctrl where
  rxen : Bool
  rxcnt : BitVec 3
  deriving DecidableEq, Repr

/-- Two watermark bits: the stored fields of ie (rule R26) and the view ip (rule R27). -/
structure Watermarks where
  txwm : Bool
  rxwm : Bool
  deriving DecidableEq, Repr

/-- The peripheral `hw` (rule R20): the four registers that hold a stored value and the two FIFOs, head first. -/
structure Hw where
  txctrl : Txctrl
  rxctrl : Rxctrl
  ie : Watermarks
  div : Half
  txfifo : List Byte
  rxfifo : List Byte
  deriving DecidableEq, Repr

/-- The driver state record `drv` (rule R36). `base` and `clock` are the one home of `UART_BASE` and `CLOCK_HZ`. -/
structure Drv where
  base : Nat
  clock : Word
  stop : StopBits
  txClient : Option ClientId
  rxClient : Option ClientId
  slot : Option Buffer
  length : Word
  cursor : Word
  busy : Bool
  deriving DecidableEq, Repr

/-- The two logical contexts that access registers (rules R46, R100): F and H. -/
inductive Ctx where
  | foreground
  | handler
  deriving DecidableEq, Repr

/-- Direction of a register access (rule R47). -/
inductive Dir where
  | read
  | write
  deriving DecidableEq, Repr

/-- The labels the foreground context can rest at (rule R44). `start` is the spec's `Start`: the first micro-step of the
operation (M0, CF0, TS0, TB0, ...) comes next. -/
inductive FgLabel where
  | start
  | cf1
  | cf2
  | ts1
  | ts2
  | ts3
  | ts4
  | tb1
  | tb2
  | tb3
  | tb4
  | tb5
  | tb6
  | tb7
  | tb8
  deriving DecidableEq, Repr

/-- The labels of handle_interrupt (rules R181, R186). -/
inductive HsLabel where
  | h0
  | h1
  | h2
  | h2a
  | h2b
  | h3
  | h3a
  | h3b
  | h4
  | h5
  | h6
  | h7
  | h8
  deriving DecidableEq, Repr

/-- The micro-steps that can raise a fault, as a fault record names them (rules R230, R231). -/
inductive MicroStep where
  | m0
  | cf0
  | cf1
  | ts0
  | ts1
  | ts2
  | ts3
  | tb0
  | tb1
  | tb2
  | tb3
  | tb4
  | tb7
  | h0
  | h2
  | h2a
  | h2b
  | h3
  | h3a
  | h3b
  | h6
  | h7
  | h8
  deriving DecidableEq, Repr

/-- The foreground's locals `loc` that outlive a micro-step (rule R44): the loop index, the buffer held during
transmit_buffer, and configure's divisor `d`. The operands are the instruction's own fields. -/
structure FgLocals where
  i : Nat
  buf : Option Buffer
  d : Word
  deriving DecidableEq, Repr

/-- The empty locals `{}` of rules R44 and R51 (log entry 10). -/
def FgLocals.empty : FgLocals := ⟨0, none, 0⟩

/-- The foreground context `fg = (k, lbl, loc)` (rule R44): the spec's program counter. -/
structure Fg where
  k : Nat
  lbl : FgLabel
  loc : FgLocals
  deriving DecidableEq, Repr

/-- The handler's locals (rule R45): the snapshot `s`, cursor `c` and length `n` as read at H1, the loop index `i`, and
the value `t` of a read-modify-write (rule R186). -/
structure HsLocals where
  s : Word
  c : Word
  n : Word
  i : Nat
  t : Word
  deriving DecidableEq, Repr

/-- The empty locals `{}` of rule R45 (log entry 10). -/
def HsLocals.empty : HsLocals := ⟨0, 0, 0, 0, 0⟩

/-- The handler context when it runs (rule R45). -/
structure Hs where
  lbl : HsLabel
  loc : HsLocals
  deriving DecidableEq, Repr

/-- The result type of the driver operations (rule R221). -/
inductive Result where
  | success
  | unsupportedFeature
  | invalidSize
  | generalFailure
  deriving DecidableEq, Repr

/-- What an operation returns (rules R47 and R222): nothing, a read value, a result, or a result with the buffer that
comes back. -/
inductive RetVal where
  | none
  | word (v : Word)
  | result (r : Result)
  | resultBuffer (r : Result) (b : Option Buffer)
  deriving DecidableEq, Repr

/-- The events of the trace (rule R47). -/
inductive Event where
  | mmio (ctx : Ctx) (dir : Dir) (off : Nat) (v : Word)
  | lineTx (b : Byte) (nstop : Bool) (div : Half)
  | rxArrive (b : Byte)
  | rxDrop (b : Byte)
  | ret (k : Nat) (r : RetVal)
  | dispatch (spurious : Bool)
  | callback (client : ClientId) (buf : Buffer) (len : Word) (result : Result)
  | bufferDropped (buf : Buffer)
  deriving DecidableEq, Repr

/-- The twelve fault reasons of rule R231. -/
inductive FaultReason where
  /-- Raised by configure at CF0: `baud = 0`. -/
  | configDivideByZero
  /-- Raised by configure at CF0: `CLOCK_HZ < baud`. -/
  | configDivisorUnderflow
  /-- Raised by configure at CF0: the divisor exceeds 0xFFFF. -/
  | configDivisorOverflow
  /-- Raised by configure at CF0: a transfer is in flight. -/
  | configureWhileBusy
  /-- Raised by transmit_buffer at TB0: a transfer is in flight. -/
  | transmitWhileBusy
  /-- Raised by transmit_sync at TS0: a transfer is in flight. -/
  | syncWhileBusy
  /-- Raised by transmit_buffer at TB0: the length exceeds the buffer. -/
  | bufferTooShort
  /-- Raised by the handler at H6 (H7 under `checkThenWrite`): the index is at or past the slot buffer's end. -/
  | handlerIndexOutOfRange
  /-- Raised by a txdata write to a full FIFO under `TX_OVERFLOW = Fault`. -/
  | txOverflow
  /-- Raised by a register write with a reserved bit set. -/
  | reservedBitWrite
  /-- Raised by every write to rxdata or ip. -/
  | readOnlyWrite
  /-- Raised by an access whose width is not 4 or whose offset is none of the seven. -/
  | unmappedAccess
  deriving DecidableEq, Repr

/-- The sticky fault (rules R49, R230): the reason, the context, the foreground operation index, the micro-step. -/
structure FaultRecord where
  reason : FaultReason
  ctx : Ctx
  k : Nat
  lbl : MicroStep
  deriving DecidableEq, Repr

/-- The state: σ of rule R20 (`hw`, `drv`, `fg`, `hs`, `trace`, `fault`), the parameters of the step relation that the
spec keeps beside it (`program`, `params`; log entry 3), and the model's own `schedule` and `draws` (log entries 1
and 5). -/
structure State where
  hw : Hw
  drv : Drv
  fg : Fg
  hs : Option Hs
  trace : List Event
  fault : Option FaultRecord
  program : Program
  params : Params
  /-- The environment's next choices, in order; where it is empty the choice is the free value `Config.choice`. -/
  schedule : List Choice
  /-- How many free values have been taken. -/
  draws : Nat
  deriving DecidableEq, Repr

/-- Why the machine stops. -/
inductive Fault where
  /-- Raised by `step` in a state whose sticky fault is set: no agent has a step (rules R49, R230). Safe: the spec has no
  step there either. -/
  | stopped (r : FaultRecord)
  /-- Raised by a foreground meaning in a state whose label belongs to another operation, which no run reaches (rule R44;
  log entry 11). Safe. -/
  | wrongLabel
  /-- Raised by TB2 (TB3 under `checkThenWrite`) and TS3 in a state whose locals name no byte of the operand, which no
  run reaches (rules R75, R151; log entry 11). Safe. -/
  | noByte
  deriving DecidableEq, Repr

/-- Why an instruction or a program has no meaning. -/
inductive Refusal where
  /-- Raised by `exec` for an instruction without a meaning: none is left. Safe. -/
  | notModelled (mnemonic : String)
  /-- Raised by `step` when entry `k` of the program is refused, so that the program has no run (rule R232). Safe. -/
  | program (k : Nat) (r : Reject)
  /-- Raised by handle_interrupt when the handler is not running and dispatch is not enabled: it is entered only by
  dispatch (rules R88, R240; log entry 9). Safe; `step` never asks for it. -/
  | handlerNotEntered
  deriving DecidableEq, Repr

/-- The outcome of a step of this machine. -/
abbrev Out := Host.Outcome State Fault Refusal

/-- The peripheral after reset (rules R24 to R31, R51). -/
def Hw.reset (divReset : Half) : Hw where
  txctrl := ⟨false, false, 0⟩
  rxctrl := ⟨false, 0⟩
  ie := ⟨false, false⟩
  div := divReset
  txfifo := []
  rxfifo := []

/-- The driver record after construction (rules R36, R271). -/
def Drv.constructed (base : Nat) (clock : Word) : Drv where
  base := base
  clock := clock
  stop := .one
  txClient := none
  rxClient := none
  slot := none
  length := 0
  cursor := 0
  busy := false

/-- The launch state of rules R51 and R270 for given parameters, register base and clock. The program and the schedule
are given from outside; here there are none (log entries 1 and 4). -/
def State.launch (p : Params) (base : Nat) (clock : Word) : State where
  hw := .reset p.divReset
  drv := .constructed base clock
  fg := ⟨0, .start, .empty⟩
  hs := none
  trace := []
  fault := none
  program := ⟨[], []⟩
  params := p
  schedule := []
  draws := 0

/-- The machine right after reset and construction (rules R51, R270, R271), with the decided parameters of rule R8 and
the OPEN ones as free constants (log entry 6). -/
def State.reset : State := .launch Config.params Config.uartBase Config.clockHz

end Sys2Proof.Machine
end

