-- ==== Sys2Proof/Machine/Fields.lean ====
section
/-! DEFINITION. Bit fields of the register values (rules R22 to R29, R80 to R82): extraction, assembly, the reserved
bits, and the field write of a read-modify-write (rule R72). -/

namespace Sys2Proof.Machine

/-- A single bit as a `u32`, at position `i`. -/
def bitAt (i : Nat) (b : Bool) : Word := if b then 1#32 <<< i else 0#32

/-- `full = v[31]` of a txdata value and `empty = v[31]` of an rxdata value (rule R81). -/
def bit31 (v : Word) : Bool := v.getLsbD 31

/-- `v[0]`: txen, rxen or txwm (rule R81). -/
def bit0 (v : Word) : Bool := v.getLsbD 0

/-- `v[1]`: nstop or rxwm (rule R81). -/
def bit1 (v : Word) : Bool := v.getLsbD 1

/-- `data = v[7:0]` (rule R81). -/
def dataField (v : Word) : Byte := v.extractLsb' 0 8

/-- `txcnt = v[18:16]`, `rxcnt = v[18:16]` (rule R81). -/
def cntField (v : Word) : BitVec 3 := v.extractLsb' 16 3

/-- `div = v[15:0]` (rule R81). -/
def divField (v : Word) : Half := v.extractLsb' 0 16

/-- The fields of a txctrl value (rules R81, R106). -/
def Txctrl.ofWord (v : Word) : Txctrl := ⟨bit0 v, bit1 v, cntField v⟩

/-- The fields of an rxctrl value (rules R81, R108). -/
def Rxctrl.ofWord (v : Word) : Rxctrl := ⟨bit0 v, cntField v⟩

/-- The fields of an ie value (rules R81, R110). -/
def Watermarks.ofWord (v : Word) : Watermarks := ⟨bit0 v, bit1 v⟩

/-- `{txen: e, nstop: s, txcnt: c}` (rule R82). -/
def Txctrl.word (r : Txctrl) : Word :=
  r.txcnt.setWidth 32 <<< 16 ||| bitAt 1 r.nstop ||| bitAt 0 r.txen

/-- `{rxen: e, rxcnt: c}` (rules R82, R107). -/
def Rxctrl.word (r : Rxctrl) : Word := r.rxcnt.setWidth 32 <<< 16 ||| bitAt 0 r.rxen

/-- `{txwm: a, rxwm: b}` (rule R82). -/
def Watermarks.word (w : Watermarks) : Word := bitAt 1 w.rxwm ||| bitAt 0 w.txwm

/-- The value of a txdata or rxdata read: the flag in bit 31, the data in bits 7:0, 0 between (rules R102, R103). -/
def dataWord (flag : Bool) (b : Byte) : Word := bitAt 31 flag ||| b.setWidth 32

/-- The reserved bits of each register (rule R29). -/
def Reg.reserved : Reg → Word
  | .txdata => 0x7FFFFF00#32
  | .rxdata => 0x7FFFFF00#32
  | .txctrl => 0xFFF8FFFC#32
  | .rxctrl => 0xFFF8FFFE#32
  | .ie => 0xFFFFFFFC#32
  | .ip => 0xFFFFFFFC#32
  | .div => 0xFFFF0000#32

/-- A reserved bit of `r` is set in `v` (rule R29). -/
def Reg.reservedSet (r : Reg) (v : Word) : Bool := v &&& r.reserved != 0#32

/-- `t with f := x` for the field of width `w` at bit `lo` (rule R72). -/
def withField (lo w : Nat) (x : BitVec w) (t : Word) : Word :=
  (t &&& ~~~((BitVec.allOnes w).setWidth 32 <<< lo)) ||| (x.setWidth 32 <<< lo)

/-- `t with bit 0 := 0`, the field write of H2b and H3b (rule R186). -/
def clearBit0 (t : Word) : Word := withField 0 1 0#1 t

/-- The stop-bit setting `nstop` of a stop-bit mode (rule R42). -/
def nstopOf : StopBits → Bool
  | .one => false
  | .two => true

/-- The code of each fault reason (rule R231). -/
def FaultReason.code : FaultReason → Nat
  | .configDivideByZero => 1
  | .configDivisorUnderflow => 2
  | .configDivisorOverflow => 3
  | .configureWhileBusy => 4
  | .transmitWhileBusy => 5
  | .syncWhileBusy => 6
  | .bufferTooShort => 7
  | .handlerIndexOutOfRange => 8
  | .txOverflow => 9
  | .reservedBitWrite => 10
  | .readOnlyWrite => 11
  | .unmappedAccess => 12

end Sys2Proof.Machine
end

