-- ==== Sys2Proof/Machine/Flags.lean ====
section
/-! DEFINITION. Every flag and signal of the block (rules R27, R32 to R35, R127): functions of the FIFOs and the stored
registers, none of them stored or latched. -/

namespace Sys2Proof.Machine

/-- `TXWM_RULE(o, c) = (o < c)`, the decided rule (rules R8, R32; PRESUMED by the spec itself, K3; log entry 14). -/
def txwmRule (occ cnt : Nat) : Bool := decide (occ < cnt)

/-- `RXWM_RULE(o, c) = (o > c)`, the decided rule (rules R8, R32; PRESUMED by the spec itself, K3; log entry 14). -/
def rxwmRule (occ cnt : Nat) : Bool := decide (cnt < occ)

/-- `occ_tx` (rules R15, R30). -/
def State.occTx (s : State) : Nat := s.hw.txfifo.length

/-- `occ_rx` (rules R15, R31). -/
def State.occRx (s : State) : Nat := s.hw.rxfifo.length

/-- `full(σ) = (occ_tx = TX_FIFO_DEPTH)` (rule R34). -/
def State.full (s : State) : Bool := decide (s.occTx = s.params.txDepth)

/-- `empty(σ) = (occ_rx = 0)` (rule R35). -/
def State.rxEmpty (s : State) : Bool := decide (s.occRx = 0)

/-- `txwm_cond(σ)` (rule R32). -/
def State.txwmCond (s : State) : Bool := txwmRule s.occTx s.hw.txctrl.txcnt.toNat

/-- `rxwm_cond(σ)` (rule R32). -/
def State.rxwmCond (s : State) : Bool := rxwmRule s.occRx s.hw.rxctrl.rxcnt.toNat

/-- The bits of ip (rule R27): the conditions, raw or masked by ie. -/
def State.ip (s : State) : Watermarks where
  txwm := s.txwmCond && (s.params.ipRaw || s.hw.ie.txwm)
  rxwm := s.rxwmCond && (s.params.ipRaw || s.hw.ie.rxwm)

/-- The interrupt output `irq(σ)` (rule R33). -/
def State.irq (s : State) : Bool :=
  (s.txwmCond && s.hw.ie.txwm) || (s.rxwmCond && s.hw.ie.rxwm)

end Sys2Proof.Machine
end

