-- ==== Sys2Proof/Machine/Operands.lean ====
section
/-! DEFINITION. Every operand form of the block: register addresses (rules R12, R61 to R64) and buffer bytes
(rules R38, R75). -/

namespace Sys2Proof.Machine

/-- The offset of a register from `UART_BASE` (rule R61). -/
def Reg.offset : Reg → Nat
  | .txdata => 0x00
  | .rxdata => 0x04
  | .txctrl => 0x08
  | .rxctrl => 0x0C
  | .ie => 0x10
  | .ip => 0x14
  | .div => 0x18

/-- The register at an offset, if the offset is one of the seven (rules R61, R64). -/
def Reg.ofOffset? : Nat → Option Reg
  | 0x00 => some .txdata
  | 0x04 => some .rxdata
  | 0x08 => some .txctrl
  | 0x0C => some .rxctrl
  | 0x10 => some .ie
  | 0x14 => some .ip
  | 0x18 => some .div
  | _ => none

/-- `REG(name) = UART_BASE + offset(name)` (rule R12). -/
def State.reg (s : State) (r : Reg) : Nat := s.drv.base + r.offset

/-- The register an access of `width` bytes at `addr` reaches: only a 4-byte access at `UART_BASE` plus one of the seven
offsets reaches one (rules R63, R64). -/
def State.regAt? (s : State) (addr width : Nat) : Option Reg :=
  if width ≠ 4 then none
  else if addr < s.drv.base then none
  else Reg.ofOffset? (addr - s.drv.base)

/-- `buf.data[i]` of an optional buffer (rule R75): `none` where there is no such byte. An empty slot has no byte
(log entry 12). -/
def byteAt? (b : Option Buffer) (i : Nat) : Option Byte :=
  match b with
  | none => none
  | some b => b.data[i]?

end Sys2Proof.Machine
end

