-- ==== Sys2Proof/Machine/Ops.lean ====
section
/-! DEFINITION. The named operations over the state: events, faults (rule R230), register accesses (rules R100 to R114),
the moves of the two contexts (rules R44, R45), taking an interrupt and returning from it (rules R240, R243). -/

namespace Sys2Proof.Machine

/-- `emit E` (rules R12, R48). -/
def State.emit (s : State) (e : Event) : State := { s with trace := s.trace ++ [e] }

/-- `raise Fault(reason)` (rule R230): the record of reason, context, operation index and micro-step; nothing else. -/
def State.raise (s : State) (r : FaultReason) (c : Ctx) (m : MicroStep) : State :=
  { s with fault := some ⟨r, c, s.fg.k, m⟩ }

/-- An update of the peripheral. -/
def State.setHw (s : State) (h : Hw) : State := { s with hw := h }

/-- An update of the driver record. -/
def State.setDrv (s : State) (d : Drv) : State := { s with drv := d }

/-- The next free value has been taken. -/
def State.drew (s : State) : State := { s with draws := s.draws + 1 }

/-! ## Register accesses -/

/-- The value a read of `r` returns and the state it leaves, before the event (rules R102, R103, R105, R107, R109, R111,
R113). Bits 7:0 of a txdata read and of an rxdata read of an empty FIFO are the free value of this draw. -/
def State.readReg (s : State) : Reg → Word × State
  | .txdata => (dataWord s.full (Config.drawByte s.draws), s.drew)
  | .rxdata =>
    match s.hw.rxfifo with
    | [] => (dataWord true (Config.drawByte s.draws), s.drew)
    | b :: rest => (dataWord false b, s.setHw { s.hw with rxfifo := rest })
  | .txctrl => (s.hw.txctrl.word, s)
  | .rxctrl => (s.hw.rxctrl.word, s)
  | .ie => (s.hw.ie.word, s)
  | .ip => (s.ip.word, s)
  | .div => (s.hw.div.setWidth 32, s)

/-- A txdata write whose reserved bits are 0 (rule R101): enqueue, or what `TX_OVERFLOW` says of a full FIFO. -/
def State.enqueue (s : State) (b : Byte) : Except FaultReason State :=
  if s.occTx < s.params.txDepth then
    .ok (s.setHw { s.hw with txfifo := s.hw.txfifo ++ [b] })
  else match s.params.txOverflow with
    | .fault => .error .txOverflow
    | .drop => .ok s

/-- The effect of a write of `v` to a register, before the event, or the fault it raises (rules R29, R101, R104, R106,
R108, R110, R112, R114). -/
def State.writeReg (s : State) (r : Reg) (v : Word) : Except FaultReason State :=
  match r with
  | .rxdata => .error .readOnlyWrite
  | .ip => .error .readOnlyWrite
  | .txdata => if Reg.txdata.reservedSet v then .error .reservedBitWrite else s.enqueue (dataField v)
  | .txctrl =>
    if Reg.txctrl.reservedSet v then .error .reservedBitWrite
    else .ok (s.setHw { s.hw with txctrl := .ofWord v })
  | .rxctrl =>
    if Reg.rxctrl.reservedSet v then .error .reservedBitWrite
    else .ok (s.setHw { s.hw with rxctrl := .ofWord v })
  | .ie =>
    if Reg.ie.reservedSet v then .error .reservedBitWrite
    else .ok (s.setHw { s.hw with ie := .ofWord v })
  | .div =>
    if Reg.div.reservedSet v then .error .reservedBitWrite
    else .ok (s.setHw { s.hw with div := divField v })

/-- `MemRead(addr, width)` by context `c` (rules R12, R63, R64, R100): the value and the state after the read with its
event, or the fault. -/
def State.memRead (s : State) (c : Ctx) (addr width : Nat) : Except FaultReason (Word × State) :=
  match s.regAt? addr width with
  | none => .error .unmappedAccess
  | some r => .ok ((s.readReg r).1, (s.readReg r).2.emit (.mmio c .read r.offset (s.readReg r).1))

/-- `MemWrite(addr, width, v)` by context `c` (rules R12, R63, R64, R100): the state after the write with its event, or
the fault. -/
def State.memWrite (s : State) (c : Ctx) (addr width : Nat) (v : Word) : Except FaultReason State :=
  match s.regAt? addr width with
  | none => .error .unmappedAccess
  | some r =>
    match s.writeReg r v with
    | .error e => .error e
    | .ok t => .ok (t.emit (.mmio c .write r.offset v))

/-- The read of micro-step `m`, and the rest `k` of that micro-step; a fault keeps the rest from happening. -/
def State.load (s : State) (c : Ctx) (m : MicroStep) (addr : Nat) (k : Word → State → State) : State :=
  match s.memRead c addr 4 with
  | .error r => s.raise r c m
  | .ok (v, t) => k v t

/-- The write of micro-step `m`, and the rest `k` of that micro-step; a fault keeps the rest from happening. -/
def State.store (s : State) (c : Ctx) (m : MicroStep) (addr : Nat) (v : Word) (k : State → State) : State :=
  match s.memWrite c addr 4 v with
  | .error r => s.raise r c m
  | .ok t => k t

/-! ## The foreground context -/

/-- `pc <- L` with the locals `loc` (rules R12, R44). -/
def State.goto (s : State) (l : FgLabel) (loc : FgLocals) : State :=
  { s with fg := ⟨s.fg.k, l, loc⟩ }

/-- `return r` of a foreground operation (rule R44): `Ret(k, r)`, the next operation, its start. -/
def State.ret (s : State) (r : RetVal) : State :=
  { s with trace := s.trace ++ [.ret s.fg.k r], fg := ⟨s.fg.k + 1, .start, .empty⟩ }

/-- An operation of one micro-step, which is its first (rule R44): `t` is the state it leaves. -/
def State.oneStep (s : State) (t : State) : Out :=
  match s.fg.lbl with
  | .start => .next t
  | _ => .fault .wrongLabel

/-! ## Taking an interrupt and returning from it -/

/-- Dispatch D (rule R240), the block's trap entry: `Dispatch(¬irq)`, the handler at H0 with no locals; nothing is saved
and nothing else changes. -/
def State.takeInterrupt (s : State) : State :=
  { s with trace := s.trace ++ [.dispatch (!s.irq)], hs := some ⟨.h0, .empty⟩ }

/-- The handler's `return` (rule R243), the block's trap return: nothing is restored, no event. -/
def State.handlerReturn (s : State) : State := { s with hs := none }

/-- `pc <- L` of the handler, with its locals (rule R45). -/
def State.hgoto (s : State) (l : HsLabel) (loc : HsLocals) : State := { s with hs := some ⟨l, loc⟩ }

/-- D is enabled (rule R240). -/
def State.dispatchEnabled (s : State) : Bool :=
  s.fault.isNone && s.hs.isNone && (s.irq || s.params.spuriousIrq)
    && (!s.params.atomicDriverOps || decide (s.fg.lbl = .start))

end Sys2Proof.Machine
end

