-- ==== Sys2Proof/Machine/Async.lean ====
section
/-! DEFINITION. The asynchronous family (rules R160 to R172): `transmit_buffer` with both fill orders, `transmit_abort`
and `transmit_word`. -/

namespace Sys2Proof.Machine

/-- TB0 (rules R162, R163, R165, R234): zero length, in flight, buffer too short, in this order; then the transfer is
accepted, with the cursor set to 0 only under `CURSOR_INIT_WRITE`. -/
def bufferEnter (buf : Buffer) (len : Word) (s : State) : State :=
  if len = 0 then s.ret (.resultBuffer .invalidSize (some buf))
  else if s.drv.busy then s.raise .transmitWhileBusy .foreground .tb0
  else if buf.data.length < len.toNat then s.raise .bufferTooShort .foreground .tb0
  else
    (s.setDrv { s.drv with
        busy := true
        cursor := if s.params.cursorInitWrite then 0 else s.drv.cursor }).goto
      .tb1 { s.fg.loc with buf := some buf, i := 0 }

/-- TB1 (rule R163): ie is 0x00000001. -/
def bufferEnable (s : State) : State :=
  s.store .foreground .tb1 (s.reg .ie) 0x00000001#32 fun t => t.goto .tb2 t.fg.loc

/-- The write of byte `b` of a fill at micro-step `m`, going on at `next` (rules R163, R164). -/
def fillWrite (m : MicroStep) (b : Byte) (next : FgLabel) (s : State) : State :=
  s.store .foreground m (s.reg .txdata) (b.setWidth 32) fun t => t.goto next t.fg.loc

/-- `drv.cursor <- loc.i + 1` (rules R163, R164). -/
def fillCursor (s : State) : State :=
  s.setDrv { s.drv with cursor := BitVec.ofNat 32 (s.fg.loc.i + 1) }

/-- TB4 of `WriteThenCheck` (rule R163): the full check after the write. -/
def fillCheckAfter (len : Word) (s : State) : State :=
  s.load .foreground .tb4 (s.reg .txdata) fun v t =>
    t.goto (if bit31 v || decide (t.fg.loc.i + 1 = len.toNat) then .tb5 else .tb2)
      { t.fg.loc with i := t.fg.loc.i + 1 }

/-- TB2 of `CheckThenWrite` (rule R164): the full check before the write. -/
def fillCheckBefore (s : State) : State :=
  s.load .foreground .tb2 (s.reg .txdata) fun v t =>
    t.goto (if bit31 v then .tb5 else .tb3) t.fg.loc

/-- TB4 of `CheckThenWrite` (rule R164): the cursor, and the end of the loop. -/
def fillAdvance (len : Word) (s : State) : State :=
  (fillCursor s).goto (if s.fg.loc.i + 1 = len.toNat then .tb5 else .tb2)
    { s.fg.loc with i := s.fg.loc.i + 1 }

/-- TB5 (rule R163): the buffer into the slot. -/
def bufferPut (s : State) : State :=
  (s.setDrv { s.drv with slot := s.fg.loc.buf }).goto .tb6 { s.fg.loc with buf := none }

/-- TB6 (rule R163): the total length. -/
def bufferLength (len : Word) (s : State) : State :=
  (s.setDrv { s.drv with length := len }).goto .tb7 s.fg.loc

/-- TB7 (rule R163): txctrl with the transmitter on, the configured stop bits, trigger count 1. -/
def bufferStart (s : State) : State :=
  s.store .foreground .tb7 (s.reg .txctrl) (Txctrl.word ⟨true, nstopOf s.drv.stop, 1⟩) fun t =>
    t.goto .tb8 t.fg.loc

/-- A write of the fill at micro-step `m` (TB2, or TB3 under `CheckThenWrite`): the byte `loc.buf.data[loc.i]`. -/
def fillStep (m : MicroStep) (next : FgLabel) (s : State) : Out :=
  match byteAt? s.fg.loc.buf s.fg.loc.i with
  | some b => .next (fillWrite m b next s)
  | none => .fault .noByte

/-- `transmit_buffer buf, len` (rules R163 to R165): its next micro-step. -/
def execTransmitBuffer (buf : Buffer) (len : Word) (s : State) : Out :=
  match s.fg.lbl with
  | .start => .next (bufferEnter buf len s)
  | .tb1 => .next (bufferEnable s)
  | .tb2 =>
    match s.params.fillOrder with
    | .writeThenCheck => fillStep .tb2 .tb3 s
    | .checkThenWrite => .next (fillCheckBefore s)
  | .tb3 =>
    match s.params.fillOrder with
    | .writeThenCheck => .next ((fillCursor s).goto .tb4 s.fg.loc)
    | .checkThenWrite => fillStep .tb3 .tb4 s
  | .tb4 =>
    match s.params.fillOrder with
    | .writeThenCheck => .next (fillCheckAfter len s)
    | .checkThenWrite => .next (fillAdvance len s)
  | .tb5 => .next (bufferPut s)
  | .tb6 => .next (bufferLength len s)
  | .tb7 => .next (bufferStart s)
  | .tb8 => .next (s.ret (.resultBuffer .success none))
  | _ => .fault .wrongLabel

/-- `transmit_abort` (rule R168): GeneralFailure, nothing else. -/
def execTransmitAbort (s : State) : Out := s.oneStep (s.ret (.result .generalFailure))

/-- `transmit_word word` (rule R169): GeneralFailure, the word is not sent. -/
def execTransmitWord (_word : Word) (s : State) : Out := s.oneStep (s.ret (.result .generalFailure))

end Sys2Proof.Machine
end

