-- ==== Sys2Proof/Machine/Configure.lean ====
section
/-! DEFINITION. The configuration family (rules R140 to R146): `configure`. -/

namespace Sys2Proof.Machine

/-- CF0 (rules R141, R234): the feature checks, then in flight, then the arithmetic, in this order; the divisor
⌊clock / baud⌋ − 1 goes to the local `d`. -/
def configureCheck (baud : Word) (parity : Parity) (flow : Bool) (s : State) : State :=
  if parity ≠ .none then s.ret (.result .unsupportedFeature)
  else if flow then s.ret (.result .unsupportedFeature)
  else if s.drv.busy then s.raise .configureWhileBusy .foreground .cf0
  else if baud = 0 then s.raise .configDivideByZero .foreground .cf0
  else if s.drv.clock / baud = 0 then s.raise .configDivisorUnderflow .foreground .cf0
  else if 0xFFFF#32 < s.drv.clock / baud - 1 then s.raise .configDivisorOverflow .foreground .cf0
  else s.goto .cf1 { s.fg.loc with d := s.drv.clock / baud - 1 }

/-- CF1 (rule R141): the divisor to div. -/
def configureDivisor (s : State) : State :=
  s.store .foreground .cf1 (s.reg .div) s.fg.loc.d fun t => t.goto .cf2 t.fg.loc

/-- CF2 (rule R141): the stop-bit mode, and Success. -/
def configureStop (stop : StopBits) (s : State) : State :=
  (s.setDrv { s.drv with stop := stop }).ret (.result .success)

/-- `configure baud, parity, flow, stop` (rule R141): its next micro-step. -/
def execConfigure (baud : Word) (parity : Parity) (flow : Bool) (stop : StopBits) (s : State) : Out :=
  match s.fg.lbl with
  | .start => .next (configureCheck baud parity flow s)
  | .cf1 => .next (configureDivisor s)
  | .cf2 => .next (configureStop stop s)
  | _ => .fault .wrongLabel

end Sys2Proof.Machine
end

