-- ==== Sys2Proof/Machine/Handler.lean ====
section
/-! DEFINITION. The interrupt handler (rules R180 to R190): `handle_interrupt` with both fill orders and both completion
modes, one micro-step at a time. -/

namespace Sys2Proof.Machine

/-- H0 (rules R181, R182): the one snapshot of ip; only bit 0 is examined. -/
def handlerSnapshot (l : HsLocals) (s : State) : State :=
  s.load .handler .h0 (s.reg .ip) fun v t =>
    if bit0 v then t.hgoto .h1 { l with s := v } else t.handlerReturn

/-- H1 (rules R181, R186): cursor and length; equal goes to completion, in the form `DONE_WRITE_MODE` selects. -/
def handlerDecide (l : HsLocals) (s : State) : State :=
  let l' := { l with c := s.drv.cursor, n := s.drv.length }
  if s.drv.cursor = s.drv.length then
    match s.params.doneWriteMode with
    | .writeWhole => s.hgoto .h2 l'
    | .clearField => s.hgoto .h2a l'
  else s.hgoto .h5 l'

/-- A write of the completion path at micro-step `m` (rules R184, R186). -/
def handlerWrite (m : MicroStep) (r : Reg) (v : Word) (next : HsLabel) (l : HsLocals) (s : State) : State :=
  s.store .handler m (s.reg r) v fun t => t.hgoto next l

/-- The read of a read-modify-write of the completion path at micro-step `m` (rule R186). -/
def handlerRead (m : MicroStep) (r : Reg) (next : HsLabel) (l : HsLocals) (s : State) : State :=
  s.load .handler m (s.reg r) fun v t => t.hgoto next { l with t := v }

/-- H4 (rules R184, R185): take the slot; with a buffer, the transfer ends and the client is called, or the buffer is
dropped where no client is registered; with none, nothing. -/
def handlerComplete (l : HsLocals) (s : State) : State :=
  match s.drv.slot with
  | none => s.handlerReturn
  | some b =>
    match s.drv.txClient with
    | some cl =>
      ((s.setDrv { s.drv with slot := none, busy := false }).emit (.callback cl b l.n .success)).handlerReturn
    | none =>
      ((s.setDrv { s.drv with slot := none, busy := false }).emit (.bufferDropped b)).handlerReturn

/-- H5 (rules R181, R183): no buffer, or a cursor at or past the length, ends the handler. -/
def handlerResume (l : HsLocals) (s : State) : State :=
  if s.drv.slot = none then s.handlerReturn
  else if l.n.toNat ≤ l.c.toNat then s.handlerReturn
  else s.hgoto .h6 { l with i := l.c.toNat }

/-- The write of the continuation path at micro-step `m`: H6, or H7 under `CheckThenWrite` (rules R181, R183, R187). -/
def handlerFill (m : MicroStep) (next : HsLabel) (l : HsLocals) (s : State) : State :=
  match byteAt? s.drv.slot l.i with
  | none => s.raise .handlerIndexOutOfRange .handler m
  | some b => s.store .handler m (s.reg .txdata) (b.setWidth 32) fun t => t.hgoto next l

/-- `drv.cursor <- i + 1` of the handler (rules R181, R187). -/
def handlerCursor (l : HsLocals) (s : State) : State :=
  s.setDrv { s.drv with cursor := BitVec.ofNat 32 (l.i + 1) }

/-- H8 of `WriteThenCheck` (rule R181): the full check after the write. -/
def handlerCheckAfter (l : HsLocals) (s : State) : State :=
  s.load .handler .h8 (s.reg .txdata) fun v t =>
    if bit31 v || decide (l.i + 1 = l.n.toNat) then t.handlerReturn
    else t.hgoto .h6 { l with i := l.i + 1 }

/-- H6 of `CheckThenWrite` (rule R187): the full check before the write. -/
def handlerCheckBefore (l : HsLocals) (s : State) : State :=
  s.load .handler .h6 (s.reg .txdata) fun v t =>
    if bit31 v then t.handlerReturn else t.hgoto .h7 l

/-- H8 of `CheckThenWrite` (rule R187): the cursor, and the end of the loop. -/
def handlerAdvance (l : HsLocals) (s : State) : State :=
  if l.i + 1 = l.n.toNat then (handlerCursor l s).handlerReturn
  else (handlerCursor l s).hgoto .h6 { l with i := l.i + 1 }

/-- The handler's next micro-step at label `lbl` with locals `l` (rules R181, R186, R187). -/
def handlerStep (lbl : HsLabel) (l : HsLocals) (s : State) : State :=
  match lbl with
  | .h0 => handlerSnapshot l s
  | .h1 => handlerDecide l s
  | .h2 => handlerWrite .h2 .txctrl 0#32 .h3 l s
  | .h3 => handlerWrite .h3 .ie 0#32 .h4 l s
  | .h2a => handlerRead .h2a .txctrl .h2b l s
  | .h2b => handlerWrite .h2b .txctrl (clearBit0 l.t) .h3a l s
  | .h3a => handlerRead .h3a .ie .h3b l s
  | .h3b => handlerWrite .h3b .ie (clearBit0 l.t) .h4 l s
  | .h4 => handlerComplete l s
  | .h5 => handlerResume l s
  | .h6 =>
    match s.params.fillOrder with
    | .writeThenCheck => handlerFill .h6 .h7 l s
    | .checkThenWrite => handlerCheckBefore l s
  | .h7 =>
    match s.params.fillOrder with
    | .writeThenCheck => (handlerCursor l s).hgoto .h8 l
    | .checkThenWrite => handlerFill .h7 .h8 l s
  | .h8 =>
    match s.params.fillOrder with
    | .writeThenCheck => handlerCheckAfter l s
    | .checkThenWrite => handlerAdvance l s

/-- `handle_interrupt` (rules R181, R240): while the handler runs, its next micro-step; while it does not, its entry, the
dispatch, where that is enabled (log entry 9). -/
def execHandleInterrupt (s : State) : Out :=
  match s.hs with
  | some h => .next (handlerStep h.lbl h.loc s)
  | none => if s.dispatchEnabled then .next s.takeInterrupt else .refused .handlerNotEntered

end Sys2Proof.Machine
end

