-- ==== Sys2Proof/Machine/Mmio.lean ====
section
/-! DEFINITION. The fourteen register accesses as program operations (rules R101 to R115): one micro-step M0 each. -/

namespace Sys2Proof.Machine

/-- M0 of a raw read at `UART_BASE + off` (rule R115): the access, then `return` the value. -/
def mmioRead (off : Nat) (s : State) : Out :=
  s.oneStep (s.load .foreground .m0 (s.drv.base + off) fun v t => t.ret (.word v))

/-- M0 of a raw write of `v` at `UART_BASE + off` (rule R115): the access, then `return`. -/
def mmioWrite (off : Nat) (v : Word) (s : State) : Out :=
  s.oneStep (s.store .foreground .m0 (s.drv.base + off) v fun t => t.ret .none)

/-- `mmio.r txdata` (rule R102). -/
def execMmioRTxdata (s : State) : Out := mmioRead Reg.txdata.offset s

/-- `mmio.w txdata, v` (rule R101). -/
def execMmioWTxdata (v : Word) (s : State) : Out := mmioWrite Reg.txdata.offset v s

/-- `mmio.r rxdata` (rule R103). -/
def execMmioRRxdata (s : State) : Out := mmioRead Reg.rxdata.offset s

/-- `mmio.w rxdata, v` (rule R104). -/
def execMmioWRxdata (v : Word) (s : State) : Out := mmioWrite Reg.rxdata.offset v s

/-- `mmio.r txctrl` (rule R105). -/
def execMmioRTxctrl (s : State) : Out := mmioRead Reg.txctrl.offset s

/-- `mmio.w txctrl, v` (rule R106). -/
def execMmioWTxctrl (v : Word) (s : State) : Out := mmioWrite Reg.txctrl.offset v s

/-- `mmio.r rxctrl` (rule R107). -/
def execMmioRRxctrl (s : State) : Out := mmioRead Reg.rxctrl.offset s

/-- `mmio.w rxctrl, v` (rule R108). -/
def execMmioWRxctrl (v : Word) (s : State) : Out := mmioWrite Reg.rxctrl.offset v s

/-- `mmio.r ie` (rule R109). -/
def execMmioRIe (s : State) : Out := mmioRead Reg.ie.offset s

/-- `mmio.w ie, v` (rule R110). -/
def execMmioWIe (v : Word) (s : State) : Out := mmioWrite Reg.ie.offset v s

/-- `mmio.r ip` (rule R111). -/
def execMmioRIp (s : State) : Out := mmioRead Reg.ip.offset s

/-- `mmio.w ip, v` (rule R112). -/
def execMmioWIp (v : Word) (s : State) : Out := mmioWrite Reg.ip.offset v s

/-- `mmio.r div` (rule R113). -/
def execMmioRDiv (s : State) : Out := mmioRead Reg.div.offset s

/-- `mmio.w div, v` (rule R114). -/
def execMmioWDiv (v : Word) (s : State) : Out := mmioWrite Reg.div.offset v s

end Sys2Proof.Machine
end

