-- ==== Sys2Proof/Machine/Receive.lean ====
section
/-! DEFINITION. The receive stubs and the client registrations (rules R200 to R207), one micro-step each. -/

namespace Sys2Proof.Machine

/-- `receive_buffer buf, len` (rule R201): GeneralFailure with the buffer; the length is not looked at. -/
def execReceiveBuffer (buf : Buffer) (_len : Word) (s : State) : Out :=
  s.oneStep (s.ret (.resultBuffer .generalFailure (some buf)))

/-- `receive_abort` (rule R202). -/
def execReceiveAbort (s : State) : Out := s.oneStep (s.ret (.result .generalFailure))

/-- `receive_word` (rule R203). -/
def execReceiveWord (s : State) : Out := s.oneStep (s.ret (.result .generalFailure))

/-- `set_transmit_client client` (rule R205). -/
def execSetTransmitClient (client : ClientId) (s : State) : Out :=
  s.oneStep ((s.setDrv { s.drv with txClient := some client }).ret .none)

/-- `set_receive_client client` (rule R206). -/
def execSetReceiveClient (client : ClientId) (s : State) : Out :=
  s.oneStep ((s.setDrv { s.drv with rxClient := some client }).ret .none)

end Sys2Proof.Machine
end

