-- ==== Sys2Proof/Machine/Sync.lean ====
section
/-! DEFINITION. The synchronous family (rules R150 to R156): `transmit_sync`. -/

namespace Sys2Proof.Machine

/-- TS0 (rule R151): the in-flight check, the loop index. -/
def syncEnter (s : State) : State :=
  if s.drv.busy then s.raise .syncWhileBusy .foreground .ts0
  else s.goto .ts1 { s.fg.loc with i := 0 }

/-- TS1 (rules R151, R152): txctrl is 0x00010001 whatever the configured stop mode. -/
def syncProgram (bytes : List Byte) (s : State) : State :=
  s.store .foreground .ts1 (s.reg .txctrl) 0x00010001#32 fun t =>
    t.goto (if bytes.length = 0 then .ts4 else .ts2) t.fg.loc

/-- TS2 (rule R151): poll the full flag. -/
def syncPoll (s : State) : State :=
  s.load .foreground .ts2 (s.reg .txdata) fun v t =>
    t.goto (if bit31 v then .ts2 else .ts3) t.fg.loc

/-- TS3 (rule R151): write byte `b`, the next index. -/
def syncWrite (bytes : List Byte) (b : Byte) (s : State) : State :=
  s.store .foreground .ts3 (s.reg .txdata) (b.setWidth 32) fun t =>
    t.goto (if t.fg.loc.i + 1 = bytes.length then .ts4 else .ts2) { t.fg.loc with i := t.fg.loc.i + 1 }

/-- `transmit_sync bytes` (rule R151): its next micro-step. -/
def execTransmitSync (bytes : List Byte) (s : State) : Out :=
  match s.fg.lbl with
  | .start => .next (syncEnter s)
  | .ts1 => .next (syncProgram bytes s)
  | .ts2 => .next (syncPoll s)
  | .ts3 =>
    match bytes[s.fg.loc.i]? with
    | some b => .next (syncWrite bytes b s)
    | none => .fault .noByte
  | .ts4 => .next (s.ret .none)
  | _ => .fault .wrongLabel

end Sys2Proof.Machine
end

