-- ==== Sys2Proof/Machine/Dispatch.lean ====
section
/-! DEFINITION. One arm per operation of `spec/opcode_table.json`: the operation's next micro-step. -/

namespace Sys2Proof.Machine

def exec (i : Instr) (s : State) : Host.Outcome State Fault Refusal :=
  match i with
  | .mmioRTxdata => Sys2Proof.Machine.execMmioRTxdata s
  | .mmioWTxdata v => Sys2Proof.Machine.execMmioWTxdata v s
  | .mmioRRxdata => Sys2Proof.Machine.execMmioRRxdata s
  | .mmioWRxdata v => Sys2Proof.Machine.execMmioWRxdata v s
  | .mmioRTxctrl => Sys2Proof.Machine.execMmioRTxctrl s
  | .mmioWTxctrl v => Sys2Proof.Machine.execMmioWTxctrl v s
  | .mmioRRxctrl => Sys2Proof.Machine.execMmioRRxctrl s
  | .mmioWRxctrl v => Sys2Proof.Machine.execMmioWRxctrl v s
  | .mmioRIe => Sys2Proof.Machine.execMmioRIe s
  | .mmioWIe v => Sys2Proof.Machine.execMmioWIe v s
  | .mmioRIp => Sys2Proof.Machine.execMmioRIp s
  | .mmioWIp v => Sys2Proof.Machine.execMmioWIp v s
  | .mmioRDiv => Sys2Proof.Machine.execMmioRDiv s
  | .mmioWDiv v => Sys2Proof.Machine.execMmioWDiv v s
  | .configure baud parity flow stop => Sys2Proof.Machine.execConfigure baud parity flow stop s
  | .transmitSync bytes => Sys2Proof.Machine.execTransmitSync bytes s
  | .transmitBuffer buf len => Sys2Proof.Machine.execTransmitBuffer buf len s
  | .transmitAbort => Sys2Proof.Machine.execTransmitAbort s
  | .transmitWord word => Sys2Proof.Machine.execTransmitWord word s
  | .receiveBuffer buf len => Sys2Proof.Machine.execReceiveBuffer buf len s
  | .receiveAbort => Sys2Proof.Machine.execReceiveAbort s
  | .receiveWord => Sys2Proof.Machine.execReceiveWord s
  | .setTransmitClient client => Sys2Proof.Machine.execSetTransmitClient client s
  | .setReceiveClient client => Sys2Proof.Machine.execSetReceiveClient client s
  | .handleInterrupt => Sys2Proof.Machine.execHandleInterrupt s

end Sys2Proof.Machine
end

