-- ==== Sys2Proof/Machine/Agents.lean ====
section
/-! DEFINITION. The five agents and what each does when it is chosen (rules R13, R46, R120, R125, R237, R240): fetching
the foreground's operation, the transmitter, the receive line, the choice of the next agent. -/

namespace Sys2Proof.Machine

/-! ## The hardware agents -/

/-- The transmitter step T (rules R120, R121): the head of the FIFO goes to the line with the settings in force; with
`txen = 0` or an empty FIFO there is no step. -/
def State.transmit (s : State) : State :=
  if s.hw.txctrl.txen then
    match s.hw.txfifo with
    | [] => s
    | b :: rest =>
      (s.setHw { s.hw with txfifo := rest }).emit (.lineTx b s.hw.txctrl.nstop s.hw.div)
  else s

/-- The line step R delivering byte `b` (rules R125, R126): appended, or lost when the FIFO is full; with `rxen = 0` there
is no step. -/
def State.receive (s : State) (b : Byte) : State :=
  if s.hw.rxctrl.rxen then
    if s.occRx < s.params.rxDepth then
      (s.setHw { s.hw with rxfifo := s.hw.rxfifo ++ [b] }).emit (.rxArrive b)
    else s.emit (.rxDrop b)
  else s

/-! ## Which agents are enabled -/

/-- The foreground may step (rule R46). -/
def State.foregroundEnabled (s : State) : Bool :=
  s.fault.isNone && s.hs.isNone && decide (s.fg.k < s.program.ops.length)

/-- The handler may step (rules R45, R245). -/
def State.handlerEnabled (s : State) : Bool := s.fault.isNone && s.hs.isSome

/-- The transmitter may step (rule R120). -/
def State.transmitterEnabled (s : State) : Bool :=
  s.fault.isNone && s.hw.txctrl.txen && decide (0 < s.occTx)

/-- The line may step (rule R125). -/
def State.lineEnabled (s : State) : Bool := s.fault.isNone && s.hw.rxctrl.rxen

/-- Rule R237: the agent a choice names is enabled. -/
def State.enabled (s : State) : Choice → Bool
  | .foreground => s.foregroundEnabled
  | .handler => s.handlerEnabled
  | .dispatch => s.dispatchEnabled
  | .transmitter => s.transmitterEnabled
  | .line _ => s.lineEnabled

/-! ## Fetching and running -/

/-- What the foreground executes next: entry `k` of the program, decoded (rule R44). -/
def State.fetch (s : State) : Except Reject Fetched :=
  match s.program.ops[s.fg.k]? with
  | some e => decode e
  | none => .error (.reservedDescriptor 0)

/-- The micro-step of what was fetched: an operation, or an access to an offset that is no register (rules R88, R115). -/
def runFetched (f : Fetched) (s : State) : Out :=
  match f with
  | .op i => exec i s
  | .unmappedRead off => mmioRead off.toNat s
  | .unmappedWrite off v => mmioWrite off.toNat v s

/-- The foreground's micro-step. The refusal cannot be met after the whole program has been admitted. -/
def State.runForeground (s : State) : Out :=
  match s.fetch with
  | .ok f => runFetched f s
  | .error r => .refused (.program s.fg.k r)

/-- The step of a chosen agent: its micro-step where it is enabled; a choice that is not enabled passes with no effect
(log entry 2). -/
def State.runChoice (s : State) (c : Choice) : Out :=
  if s.enabled c then
    match c with
    | .foreground => s.runForeground
    | .handler => exec .handleInterrupt s
    | .dispatch => exec .handleInterrupt s
    | .transmitter => .next s.transmit
    | .line b => .next (s.receive b)
  else .next s

/-- The environment's next choice, and the state with that choice taken: the head of the schedule, or the free value where
the schedule is empty (rule R237; log entry 1). -/
def State.nextChoice (s : State) : Choice × State :=
  match s.schedule with
  | c :: rest => (c, { s with schedule := rest })
  | [] => (Config.choice s.draws, s.drew)

/-! ## Placing one operation (log entry 4) -/

/-- `s` launched on the one-operation program of entry `e`, which the foreground steps next. -/
def State.withProgramEntry (s : State) (e : Entry) : State :=
  { s with
    program := ⟨[zeroBuffer], [e]⟩
    fg := ⟨0, .start, .empty⟩
    hs := none
    fault := none
    schedule := .foreground :: s.schedule }

/-- `s` with the handler entered at H0, which it steps next: handle_interrupt stands in no program (rule R88). -/
def State.withHandlerEntered (s : State) : State :=
  { s with
    program := ⟨[], []⟩
    fg := ⟨0, .start, .empty⟩
    hs := some ⟨.h0, .empty⟩
    fault := none
    schedule := .handler :: s.schedule }

end Sys2Proof.Machine
end

