-- ==== Sys2Proof/Machine/Step.lean ====
section
/-! DEFINITION. One step of the machine: one micro-step of the agent the environment chooses (rules R13, R237), none in a
faulted state (rule R230) and none for a refused program (rule R232). -/

namespace Sys2Proof.Machine

/-- One step. -/
def step (s : State) : Host.Outcome State Fault Refusal :=
  match s.program.refusal with
  | some (k, r) => .refused (.program k r)
  | none =>
    match s.fault with
    | some r => .fault (.stopped r)
    | none => s.nextChoice.2.runChoice s.nextChoice.1

/-- `s` with the table word `w` placed so that the very next step runs it: as the one operation of the program, chosen
next; or, for the descriptor of handle_interrupt, which no program may name, as the entered handler (log entry 4). -/
def State.withFetchWord (s : State) (_nbits w : Nat) : State :=
  match decode (tableEntry w) with
  | .ok (.op .handleInterrupt) => s.withHandlerEntered
  | _ => s.withProgramEntry (tableEntry w)

end Sys2Proof.Machine
end

