-- ==== Sys2Proof/Safety.lean ====
section
/-! DEFINITION. The terms claims are stated in: quiet points (rule R50), the states of one transmit (rule R195), the end of
a run and fairness (rules R245, R248), repeated micro-steps of one operation, and the invariants of the machine. -/

namespace Sys2Proof

/-- The program performs no raw write to rxctrl (rule R126). -/
def Program.noRxctrlWrite (p : Program) : Bool := p.ops.all fun e => e.desc != 0x8C#8

/-- The program performs no raw write to ie (premise P5 of rule R171, for rule R50). -/
def Program.noIeWrite (p : Program) : Bool := p.ops.all fun e => e.desc != 0x90#8

end Sys2Proof

namespace Sys2Proof.Machine

/-! ## Views of a state -/

/-- A quiet point (rule R50): the foreground is between operations and the handler does not run. -/
abbrev State.Quiet (s : State) : Prop := s.fg.lbl = .start ∧ s.hs = none

/-- The foreground is at TB1 to TB5 of a transmit_buffer: accepted, the buffer not yet in the slot (rule R163). -/
def FgLabel.beforePut : FgLabel → Bool
  | .tb1 | .tb2 | .tb3 | .tb4 | .tb5 => true
  | _ => false

/-- The foreground is at TB1 to TB7 (rule R195). -/
def FgLabel.filling : FgLabel → Bool
  | .tb1 | .tb2 | .tb3 | .tb4 | .tb5 | .tb6 | .tb7 => true
  | _ => false

/-- `idle` of rule R195. -/
def State.isIdle (s : State) : Bool := !s.drv.busy

/-- The handler is at H5 to H8 (rule R195). -/
def HsLabel.continuing : HsLabel → Bool
  | .h5 | .h6 | .h7 | .h8 => true
  | _ => false

/-- The handler is at H2 to H4, with H2a to H3b under `ClearField` (rule R195). -/
def HsLabel.completing : HsLabel → Bool
  | .h2 | .h2a | .h2b | .h3 | .h3a | .h3b | .h4 => true
  | _ => false

/-- `filling` of rule R195. -/
def State.isFilling (s : State) : Bool :=
  s.fg.lbl.filling || s.hs.any (·.lbl.continuing)

/-- `done` of rule R195. -/
def State.isDone (s : State) : Bool := s.hs.any (·.lbl.completing)

/-- `waiting-for-interrupt` of rule R195. -/
def State.isWaiting (s : State) : Bool := s.drv.busy && !s.isFilling && !s.isDone

/-- A run may end here (rule R248), with or without the premise `TX_PROGRESS`. -/
def State.mayEnd (s : State) (txProgress : Bool) : Bool :=
  s.fault.isNone && decide (s.fg.k = s.program.ops.length) && s.hs.isNone && !s.irq
    && (!txProgress || !s.transmitterEnabled)

/-! ## Repeated steps -/

/-- `n` micro-steps of one operation with no other agent between them. -/
def execTimes (i : Instr) : Nat → State → Out
  | 0, s => .next s
  | n + 1, s =>
    match exec i s with
    | .next t => execTimes i n t
    | .fault r => .fault r
    | .refused r => .refused r

/-- `n` steps of the machine. -/
def stepTimes : Nat → State → Out
  | 0, s => .next s
  | n + 1, s =>
    match step s with
    | .next t => stepTimes n t
    | .fault r => .fault r
    | .refused r => .refused r

/-- The events of a list that are register accesses. -/
def accesses (es : List Event) : List Event := es.filter (· matches .mmio _ _ _ _)

/-- `bytes` written to txdata, each after a read that saw the FIFO not full, the `n`-th read being the `n`-th draw: the
accesses of transmit_sync's loop (rules R151, R155). -/
def pollWriteEvents : Nat → List Byte → List Event
  | _, [] => []
  | n, b :: rest =>
    .mmio .foreground .read 0x00 (dataWord false (Config.drawByte n)) ::
      .mmio .foreground .write 0x00 (b.setWidth 32) :: pollWriteEvents (n + 1) rest

/-- `bytes` written to txdata with a full-check read after each, the FIFO holding `occ` bytes before them and `depth` at
most: the accesses of the fill of transmit_buffer (rule R163) or of the handler's continuation (rule R181). -/
def writeCheckEvents (c : Ctx) (depth : Nat) : Nat → Nat → List Byte → List Event
  | _, _, [] => []
  | n, occ, b :: rest =>
    .mmio c .write 0x00 (b.setWidth 32) ::
      .mmio c .read 0x00 (dataWord (decide (occ + 1 = depth)) (Config.drawByte n)) ::
        writeCheckEvents c depth (n + 1) (occ + 1) rest

/-! ## Runs and fairness (rules R245, R248) -/

/-- An infinite run. -/
def IsRun (r : Nat → State) : Prop := ∀ n, step (r n) = .next (r (n + 1))

/-- The agent of choice class `P` steps at position `n` of a run: it is chosen and enabled. -/
def StepsAt (P : Choice → Bool) (r : Nat → State) (n : Nat) : Prop :=
  P (r n).nextChoice.1 = true ∧ (r n).nextChoice.2.enabled (r n).nextChoice.1 = true

/-- Something holds at infinitely many positions of a run. -/
def Often (p : Nat → Prop) : Prop := ∀ n, ∃ m, n ≤ m ∧ p m

/-- Strong fairness of the foreground (rule R245). -/
def ForegroundFair (r : Nat → State) : Prop :=
  Often (fun n => (r n).foregroundEnabled = true) → Often (StepsAt (· matches .foreground) r)

/-- Weak fairness of the handler (rule R245): once dispatched it steps until it returns or faults. -/
def HandlerFair (r : Nat → State) : Prop :=
  ∀ n, (∀ m, n ≤ m → (r m).handlerEnabled = true) → Often (StepsAt (· matches .handler) r)

/-- Weak fairness of dispatch while `irq` holds (rule R245). -/
def DispatchFair (r : Nat → State) : Prop :=
  ∀ n, (∀ m, n ≤ m → (r m).irq = true ∧ (r m).dispatchEnabled = true) →
    Often (StepsAt (· matches .dispatch) r)

/-- `TX_PROGRESS`, the named premise of weak fairness of the transmitter (rules R122, R245). -/
def TxProgress (r : Nat → State) : Prop :=
  ∀ n, (∀ m, n ≤ m → (r m).transmitterEnabled = true) → Often (StepsAt (· matches .transmitter) r)

/-- The observation considers only runs with finitely many line steps and finitely many spurious dispatches (rule R245). -/
def LibertiesFinite (r : Nat → State) : Prop :=
  ¬ Often (StepsAt (· matches .line _) r) ∧
    ¬ Often (fun n => StepsAt (· matches .dispatch) r n ∧ (r n).irq = false)

/-- The executions of rule R245 without the premise `TX_PROGRESS`. -/
def FairRun (r : Nat → State) : Prop :=
  IsRun r ∧ ForegroundFair r ∧ HandlerFair r ∧ DispatchFair r ∧ LibertiesFinite r

/-! ## Invariants -/

/-- The FIFO bounds of rules R30 and R31. -/
abbrev State.FifoBounds (s : State) : Prop :=
  s.occTx ≤ s.params.txDepth ∧ s.occRx ≤ s.params.rxDepth

/-- The label and locals are ones that operation `i` can rest at between two of its micro-steps (rules R44, R141, R151,
R163, R164). -/
def labelFits (i : Instr) (l : FgLabel) (loc : FgLocals) : Prop :=
  match i with
  | .configure _ _ _ _ => (l = .cf1 ∧ loc.d ≤ 0xFFFF#32) ∨ l = .cf2
  | .transmitSync bytes =>
    l = .ts1 ∧ loc.i = 0 ∨ (l = .ts2 ∨ l = .ts3) ∧ loc.i < bytes.length ∨ l = .ts4
  | .transmitBuffer buf len =>
    len.toNat ≤ buf.data.length ∧
      ((l = .tb1 ∨ l = .tb2 ∨ l = .tb3 ∨ l = .tb4) ∧ loc.buf = some buf ∧ loc.i < len.toNat ∨
        l = .tb5 ∧ loc.buf = some buf ∧ loc.i ≤ len.toNat ∨ (l = .tb6 ∨ l = .tb7 ∨ l = .tb8) ∧ loc.buf = none)
  | _ => False

/-- The foreground context is one its operation can rest at (rule R44). -/
def State.ContextFits (s : State) : Prop :=
  s.fg.lbl = .start ∨ ∃ i, s.fetch = .ok (.op i) ∧ labelFits i s.fg.lbl s.fg.loc

/-- `drv.busy` and the slot (rules R39, R40, R50): between acceptance and TB5 the slot is empty and the transfer in
flight; everywhere else the slot is occupied exactly when a transfer is in flight. -/
def State.SlotMatchesBusy (s : State) : Prop :=
  if s.fg.lbl.beforePut then s.drv.slot = none ∧ s.drv.busy = true
  else s.drv.busy = s.drv.slot.isSome

/-- The invariant of every run: an admitted program, FIFO bounds, a fitting context, slot and busy in step. -/
def State.Inv (s : State) : Prop :=
  s.program.refusal = none ∧ s.FifoBounds ∧ s.ContextFits ∧ s.SlotMatchesBusy

/-- The receiver has never been enabled (rule R126). -/
abbrev State.ReceiverOff (s : State) : Prop := s.hw.rxctrl.rxen = false ∧ s.hw.rxfifo = []

/-- Where the handler is, its locals agree with the driver record (rules R181, R183, R184), in a run with dispatch only
between operations. -/
def handlerFits (h : Hs) (d : Drv) (ie : Watermarks) : Prop :=
  d.cursor ≤ d.length ∧
    match h.lbl with
    | .h0 | .h1 => ie.txwm = d.busy
    | .h2 | .h2a | .h2b | .h3 | .h3a | .h3b => ie.txwm = d.busy
    | .h4 => ie.txwm = false
    | .h5 => h.loc.n = d.length ∧ ie.txwm = d.busy
    | .h6 | .h7 | .h8 => h.loc.n = d.length ∧ h.loc.i < h.loc.n.toNat ∧ ie.txwm = d.busy

/-- Cursor, length, busy and the watermark enable at each label of the foreground while the handler does not run (rules
R41, R50, R163), with `WriteThenCheck`. -/
def State.ForegroundFits (s : State) : Prop :=
  match s.fg.lbl with
  | .tb1 => True
  | .tb2 | .tb3 => s.hw.ie.txwm = true ∧ s.drv.busy = true
  | .tb4 => s.hw.ie.txwm = true ∧ s.drv.busy = true ∧ s.drv.cursor.toNat = s.fg.loc.i + 1
  | .tb5 | .tb6 =>
    s.hw.ie.txwm = true ∧ s.drv.busy = true ∧
      ∀ buf len, s.fetch = .ok (.op (.transmitBuffer buf len)) → s.drv.cursor ≤ len
  | .tb7 | .tb8 => s.hw.ie.txwm = true ∧ s.drv.busy = true ∧ s.drv.cursor ≤ s.drv.length
  | _ => s.hw.ie.txwm = s.drv.busy ∧ s.drv.cursor ≤ s.drv.length

/-- The two contexts and the driver record agree, in a run with dispatch only between operations and
`WriteThenCheck`. -/
def State.EngineFits (s : State) : Prop :=
  match s.hs with
  | some h => s.fg.lbl = .start ∧ handlerFits h s.drv s.hw.ie
  | none => s.ForegroundFits

/-- The invariant of rule R50 in runs without the preemption race: `ATOMIC_DRIVER_OPS = true`, the decided fill order, and
a program without raw writes to ie. -/
def State.EngineInv (s : State) : Prop :=
  s.Inv ∧ s.params.atomicDriverOps = true ∧ s.params.fillOrder = .writeThenCheck ∧
    s.program.noIeWrite = true ∧ s.EngineFits

end Sys2Proof.Machine
end

