-- ==== Sys2Proof/Certificates/Slice0/Obligations.lean ====
section
/-! DEFINITION. The statements for the provers, each a proposition about the machine in general: what every operation
does, what every agent does, and what every step keeps. Where a statement gives the whole next state as an update of the
state before, everything it does not name is unchanged: that is its frame. -/

open Sys2Proof Sys2Proof.Machine

/-! ## Register accesses (40_register_access.md) -/

/-- Rule R102: `mmio.r txdata` (descriptor 0x00, no operand) returns `full` in bit 31, 0 in bits 30:8 and a draw in
bits 7:0, emits the access and the return, and has no side effect. `Config.drawByte` is a free value: the statement
holds whatever it is. That a return empties the foreground's locals is the model's own (log entry 10). The count of
free values is the model's own field (log entry 5). -/
def Obligations.TxdataReadShowsFull : Prop :=
  encode .mmioRTxdata = ⟨0x00#8, []⟩ ∧
  ∀ s : State, s.fg.lbl = .start →
    ∀ r : Word, r = (if s.hw.txfifo.length = s.params.txDepth then 0x80000000#32 else 0#32) |||
        (Config.drawByte s.draws).setWidth 32 →
      exec .mmioRTxdata s = .next { s with
        draws := s.draws + 1
        trace := s.trace ++ [.mmio .foreground .read 0x00 r, .ret s.fg.k (.word r)]
        fg := ⟨s.fg.k + 1, .start, .empty⟩ }

/-- Rule R103: `mmio.r rxdata` (descriptor 0x04, no operand) pops the head of a non-empty receive FIFO and returns it;
of an empty one it returns bit 31 and a draw in bits 7:0 and changes nothing else. That a return empties the
foreground's locals is the model's own (log entry 10). The count of free values is the model's own field (log entry
5). That a read pops is what rule R103 says, from general knowledge of the family (K6; log entry 14, PRESUMED). -/
def Obligations.RxdataReadPopsHead : Prop :=
  encode .mmioRRxdata = ⟨0x04#8, []⟩ ∧
  (∀ (s : State) (b : Byte) (rest : List Byte), s.fg.lbl = .start → s.hw.rxfifo = b :: rest →
    exec .mmioRRxdata s = .next { s with
      hw := { s.hw with rxfifo := rest }
      trace := s.trace ++ [.mmio .foreground .read 0x04 (b.setWidth 32), .ret s.fg.k (.word (b.setWidth 32))]
      fg := ⟨s.fg.k + 1, .start, .empty⟩ }) ∧
  ∀ s : State, s.fg.lbl = .start → s.hw.rxfifo = [] →
    ∀ r : Word, r = 0x80000000#32 ||| (Config.drawByte s.draws).setWidth 32 →
      exec .mmioRRxdata s = .next { s with
        draws := s.draws + 1
        trace := s.trace ++ [.mmio .foreground .read 0x04 r, .ret s.fg.k (.word r)]
        fg := ⟨s.fg.k + 1, .start, .empty⟩ }

/-- Rules R105, R107, R109, R113: a read of txctrl, rxctrl, ie or div returns the stored fields at their positions and
0 in the reserved bits, with no side effect. That a return empties the foreground's locals is the model's own (log
entry 10). -/
def Obligations.ControlReadsReturnFields : Prop :=
  encode .mmioRTxctrl = ⟨0x08#8, []⟩ ∧ encode .mmioRRxctrl = ⟨0x0C#8, []⟩ ∧
  encode .mmioRIe = ⟨0x10#8, []⟩ ∧ encode .mmioRDiv = ⟨0x18#8, []⟩ ∧
  ∀ s : State, s.fg.lbl = .start →
    (∀ r : Word, r = s.hw.txctrl.txcnt.setWidth 32 <<< 16 ||| (if s.hw.txctrl.nstop then 2#32 else 0#32) |||
        (if s.hw.txctrl.txen then 1#32 else 0#32) →
      exec .mmioRTxctrl s = .next { s with
        trace := s.trace ++ [.mmio .foreground .read 0x08 r, .ret s.fg.k (.word r)]
        fg := ⟨s.fg.k + 1, .start, .empty⟩ }) ∧
    (∀ r : Word, r = s.hw.rxctrl.rxcnt.setWidth 32 <<< 16 ||| (if s.hw.rxctrl.rxen then 1#32 else 0#32) →
      exec .mmioRRxctrl s = .next { s with
        trace := s.trace ++ [.mmio .foreground .read 0x0C r, .ret s.fg.k (.word r)]
        fg := ⟨s.fg.k + 1, .start, .empty⟩ }) ∧
    (∀ r : Word, r = (if s.hw.ie.rxwm then 2#32 else 0#32) ||| (if s.hw.ie.txwm then 1#32 else 0#32) →
      exec .mmioRIe s = .next { s with
        trace := s.trace ++ [.mmio .foreground .read 0x10 r, .ret s.fg.k (.word r)]
        fg := ⟨s.fg.k + 1, .start, .empty⟩ }) ∧
    (∀ r : Word, r = s.hw.div.setWidth 32 →
      exec .mmioRDiv s = .next { s with
        trace := s.trace ++ [.mmio .foreground .read 0x18 r, .ret s.fg.k (.word r)]
        fg := ⟨s.fg.k + 1, .start, .empty⟩ })

/-- Rule R111 with the values of rule R27: `mmio.r ip` (descriptor 0x14) returns the two watermark levels of this
step, `occ_tx < txcnt` in bit 0 and `occ_rx > rxcnt` in bit 1, raw or masked by ie as `IP_RAW` says; reading clears
nothing. That a return empties the foreground's locals is the model's own (log entry 10). The comparisons are the
decided rules of R32, which the spec takes from general knowledge (log entry 14, PRESUMED). -/
def Obligations.IpReadShowsLevels : Prop :=
  encode .mmioRIp = ⟨0x14#8, []⟩ ∧
  ∀ s : State, s.fg.lbl = .start →
    ∀ r : Word, r =
        (if s.hw.rxctrl.rxcnt.toNat < s.hw.rxfifo.length ∧ (s.params.ipRaw = true ∨ s.hw.ie.rxwm = true)
          then 2#32 else 0#32) |||
        (if s.hw.txfifo.length < s.hw.txctrl.txcnt.toNat ∧ (s.params.ipRaw = true ∨ s.hw.ie.txwm = true)
          then 1#32 else 0#32) →
      exec .mmioRIp s = .next { s with
        trace := s.trace ++ [.mmio .foreground .read 0x14 r, .ret s.fg.k (.word r)]
        fg := ⟨s.fg.k + 1, .start, .empty⟩ }

/-- Rule R101, the FIFO not full: `mmio.w txdata, v` with bits 30:8 zero enqueues `v[7:0]` at the tail; bit 31 is
ignored. That a return empties the foreground's locals is the model's own (log entry 10). -/
def Obligations.TxdataWriteEnqueues : Prop :=
  ∀ (s : State) (v : Word), s.fg.lbl = .start → v.extractLsb' 8 23 = 0#23 →
    s.hw.txfifo.length < s.params.txDepth →
    exec (.mmioWTxdata v) s = .next { s with
      hw := { s.hw with txfifo := s.hw.txfifo ++ [v.extractLsb' 0 8] }
      trace := s.trace ++ [.mmio .foreground .write 0x00 v, .ret s.fg.k .none]
      fg := ⟨s.fg.k + 1, .start, .empty⟩ }

/-- Rule R101, the FIFO full: under `TX_OVERFLOW = Fault` the write raises TxOverflow and does nothing else; under
`Drop` the byte is lost and only the access and the return are recorded. That a return empties the foreground's locals
is the model's own (log entry 10). That a fault is a next state with the fault set is the model's own form (log entry
8). -/
def Obligations.TxdataWriteToFullFifo : Prop :=
  ∀ (s : State) (v : Word), s.fg.lbl = .start → v.extractLsb' 8 23 = 0#23 →
    s.params.txDepth ≤ s.hw.txfifo.length →
    (s.params.txOverflow = .fault →
      exec (.mmioWTxdata v) s =
        .next { s with fault := some ⟨.txOverflow, .foreground, s.fg.k, .m0⟩ }) ∧
    (s.params.txOverflow = .drop →
      exec (.mmioWTxdata v) s = .next { s with
        trace := s.trace ++ [.mmio .foreground .write 0x00 v, .ret s.fg.k .none]
        fg := ⟨s.fg.k + 1, .start, .empty⟩ })

/-- Rules R106, R108, R110, R114: a write of a value with no reserved bit set stores the fields of txctrl, rxctrl, ie
or div from their positions. That a return empties the foreground's locals is the model's own (log entry 10). -/
def Obligations.ControlWritesStoreFields : Prop :=
  ∀ (s : State) (v : Word), s.fg.lbl = .start →
    (v.extractLsb' 19 13 = 0#13 → v.extractLsb' 2 14 = 0#14 →
      exec (.mmioWTxctrl v) s = .next { s with
        hw := { s.hw with txctrl := ⟨v.getLsbD 0, v.getLsbD 1, v.extractLsb' 16 3⟩ }
        trace := s.trace ++ [.mmio .foreground .write 0x08 v, .ret s.fg.k .none]
        fg := ⟨s.fg.k + 1, .start, .empty⟩ }) ∧
    (v.extractLsb' 19 13 = 0#13 → v.extractLsb' 1 15 = 0#15 →
      exec (.mmioWRxctrl v) s = .next { s with
        hw := { s.hw with rxctrl := ⟨v.getLsbD 0, v.extractLsb' 16 3⟩ }
        trace := s.trace ++ [.mmio .foreground .write 0x0C v, .ret s.fg.k .none]
        fg := ⟨s.fg.k + 1, .start, .empty⟩ }) ∧
    (v.extractLsb' 2 30 = 0#30 →
      exec (.mmioWIe v) s = .next { s with
        hw := { s.hw with ie := ⟨v.getLsbD 0, v.getLsbD 1⟩ }
        trace := s.trace ++ [.mmio .foreground .write 0x10 v, .ret s.fg.k .none]
        fg := ⟨s.fg.k + 1, .start, .empty⟩ }) ∧
    (v.toNat ≤ 0xFFFF →
      exec (.mmioWDiv v) s = .next { s with
        hw := { s.hw with div := BitVec.ofNat 16 v.toNat }
        trace := s.trace ++ [.mmio .foreground .write 0x18 v, .ret s.fg.k .none]
        fg := ⟨s.fg.k + 1, .start, .empty⟩ })

/-- Rules R29, R101, R106, R108, R110, R114: a write with a reserved bit set raises ReservedBitWrite at M0 and changes
nothing else: no register, no FIFO, no event. That a fault is a next state with the fault set is the model's own form
(log entry 8). -/
def Obligations.ReservedBitsFault : Prop :=
  ∀ (s : State) (v : Word), s.fg.lbl = .start →
    ∀ t : State, t = { s with fault := some ⟨.reservedBitWrite, .foreground, s.fg.k, .m0⟩ } →
      (v.extractLsb' 8 23 ≠ 0#23 → exec (.mmioWTxdata v) s = .next t) ∧
      (v.extractLsb' 19 13 ≠ 0#13 ∨ v.extractLsb' 2 14 ≠ 0#14 → exec (.mmioWTxctrl v) s = .next t) ∧
      (v.extractLsb' 19 13 ≠ 0#13 ∨ v.extractLsb' 1 15 ≠ 0#15 → exec (.mmioWRxctrl v) s = .next t) ∧
      (v.extractLsb' 2 30 ≠ 0#30 → exec (.mmioWIe v) s = .next t) ∧
      (0xFFFF < v.toNat → exec (.mmioWDiv v) s = .next t)

/-- Rules R104 and R112: a write of any value to rxdata (descriptor 0x84) or ip (0x94) raises ReadOnlyWrite at M0 and
changes nothing else. That a fault is a next state with the fault set is the model's own form (log entry 8). -/
def Obligations.ReadOnlyRegistersFault : Prop :=
  ∀ (s : State) (v : Word), s.fg.lbl = .start →
    encode (.mmioWRxdata v) = ⟨0x84#8, [.num v.toNat]⟩ ∧ encode (.mmioWIp v) = ⟨0x94#8, [.num v.toNat]⟩ ∧
    exec (.mmioWRxdata v) s =
      .next { s with fault := some ⟨.readOnlyWrite, .foreground, s.fg.k, .m0⟩ } ∧
    exec (.mmioWIp v) s =
      .next { s with fault := some ⟨.readOnlyWrite, .foreground, s.fg.k, .m0⟩ }

/-- Reading back: after a write of a value without reserved bits to txctrl, rxctrl, ie or div, a read of the same register
returns that very value. -/
def Obligations.ControlWriteReadsBack : Prop :=
  ∀ (s : State) (v : Word), s.fg.lbl = .start →
    (v &&& 0xFFF8FFFC#32 = 0#32 → ∃ t u, exec (.mmioWTxctrl v) s = .next t ∧ exec .mmioRTxctrl t = .next u ∧
      u.trace = s.trace ++ [.mmio .foreground .write 0x08 v, .ret s.fg.k .none,
        .mmio .foreground .read 0x08 v, .ret (s.fg.k + 1) (.word v)]) ∧
    (v &&& 0xFFF8FFFE#32 = 0#32 → ∃ t u, exec (.mmioWRxctrl v) s = .next t ∧ exec .mmioRRxctrl t = .next u ∧
      u.trace = s.trace ++ [.mmio .foreground .write 0x0C v, .ret s.fg.k .none,
        .mmio .foreground .read 0x0C v, .ret (s.fg.k + 1) (.word v)]) ∧
    (v &&& 0xFFFFFFFC#32 = 0#32 → ∃ t u, exec (.mmioWIe v) s = .next t ∧ exec .mmioRIe t = .next u ∧
      u.trace = s.trace ++ [.mmio .foreground .write 0x10 v, .ret s.fg.k .none,
        .mmio .foreground .read 0x10 v, .ret (s.fg.k + 1) (.word v)]) ∧
    (v &&& 0xFFFF0000#32 = 0#32 → ∃ t u, exec (.mmioWDiv v) s = .next t ∧ exec .mmioRDiv t = .next u ∧
      u.trace = s.trace ++ [.mmio .foreground .write 0x18 v, .ret s.fg.k .none,
        .mmio .foreground .read 0x18 v, .ret (s.fg.k + 1) (.word v)])

/-- Rules R63 and R64: an access whose width is not 4, or whose address is `UART_BASE` plus none of the seven offsets,
raises UnmappedAccess; an access of width 4 at one of the seven reaches that register. That an address is a number
without a width is the model's reading (log entry 15, DEDUCED). -/
def Obligations.OnlyWholeRegistersMapped : Prop :=
  ∀ (s : State) (c : Ctx) (addr width : Nat) (v : Word),
    ((width ≠ 4 ∨ ∀ n : Nat, n < 7 → addr ≠ s.drv.base + 4 * n) →
      s.memRead c addr width = .error .unmappedAccess ∧ s.memWrite c addr width v = .error .unmappedAccess) ∧
    (∀ n : Nat, n < 7 → width = 4 → addr = s.drv.base + 4 * n →
      ∃ r : Reg, s.regAt? addr width = some r ∧ r.offset = 4 * n)

/-- Rules R64 and R88: an MMIO descriptor whose offset is none of the seven is admitted in a program and raises
UnmappedAccess when it is executed, with no other effect. That the choice is read from the schedule is the model's own
(log entry 1). That a fault is a next state with the fault set is the model's own form (log entry 8). -/
def Obligations.UnmappedDescriptorFaults : Prop :=
  ∀ (s : State) (e : Entry) (rest : List Choice),
    s.program.refusal = none → s.fault = none → s.hs = none → s.fg.lbl = .start →
    s.schedule = .foreground :: rest → s.program.ops[s.fg.k]? = some e →
    e.desc.extractLsb' 5 2 = 0#2 → (∀ r : Reg, (e.desc.extractLsb' 0 5).toNat ≠ r.offset) →
    step s = .next { s with
      schedule := rest
      fault := some ⟨.unmappedAccess, .foreground, s.fg.k, .m0⟩ }

/-! ## Hardware agents (40_register_access.md sections 9 and 10) -/

/-- Rules R120 and R121: chosen where no fault is set, `txen = 1` and the FIFO is not empty, the transmitter removes
the head of the FIFO and sends it with the stop-bit setting and the divisor in force; with `txen = 0`, or with an
empty FIFO, it has no step: choosing it changes nothing but the schedule, and the FIFO keeps its contents. That the
choice is read from the schedule, and that a choice that is not enabled passes, are the model's own (log entries 1 and
2). -/
def Obligations.TransmitterSendsHead : Prop :=
  ∀ (s : State) (rest : List Choice),
    s.program.refusal = none → s.fault = none → s.schedule = .transmitter :: rest →
    (∀ (b : Byte) (queue : List Byte), s.hw.txctrl.txen = true → s.hw.txfifo = b :: queue →
      step s = .next { s with
        schedule := rest
        hw := { s.hw with txfifo := queue }
        trace := s.trace ++ [.lineTx b s.hw.txctrl.nstop s.hw.div] }) ∧
    (s.hw.txctrl.txen = false ∨ s.hw.txfifo = [] → step s = .next { s with schedule := rest })

/-- Rules R125 and R126: with `rxen = 1` a delivered byte is appended to the receive FIFO, or lost with RxDrop when
the FIFO is full; with `rxen = 0` nothing is received. That the choice is read from the schedule, and that a choice
that is not enabled passes, are the model's own (log entries 1 and 2). -/
def Obligations.LineDeliversOrDrops : Prop :=
  ∀ (s : State) (b : Byte) (rest : List Choice),
    s.program.refusal = none → s.fault = none → s.schedule = .line b :: rest →
    (s.hw.rxctrl.rxen = true → s.hw.rxfifo.length < s.params.rxDepth →
      step s = .next { s with
        schedule := rest
        hw := { s.hw with rxfifo := s.hw.rxfifo ++ [b] }
        trace := s.trace ++ [.rxArrive b] }) ∧
    (s.hw.rxctrl.rxen = true → s.params.rxDepth ≤ s.hw.rxfifo.length →
      step s = .next { s with schedule := rest, trace := s.trace ++ [.rxDrop b] }) ∧
    (s.hw.rxctrl.rxen = false → step s = .next { s with schedule := rest })

/-- Rule R126: in a program with no raw write to rxctrl, a receiver that is off with an empty FIFO stays so under
every step, and `rxwm_cond` stays false. The condition is the decided rule of R32, which the spec takes from general
knowledge (log entry 14, PRESUMED). -/
def Obligations.ReceiverStaysOff : Prop :=
  ∀ s t : State, s.program.noRxctrlWrite = true → s.ReceiverOff → step s = .next t →
    t.ReceiverOff ∧ t.program.noRxctrlWrite = true ∧ t.rxwmCond = false

/-! ## configure (41_configuration.md) -/

/-- Rule R145: for every clock C and baud B with B > 0, C / B ≥ 1 and C / B − 1 ≤ 0xFFFF, with no parity, no flow
control and no transfer in flight, configure runs its three micro-steps, writes ⌊C/B⌋ − 1 to div, records the stop-bit
mode and returns Success; nothing else changes. That a return empties the foreground's locals is the model's own (log
entry 10). The spec marks rule R145 as derived from R141 and R143. -/
def Obligations.ConfigureWritesDivisor : Prop :=
  ∀ (s : State) (baud : Word) (stop : StopBits) (d : Nat),
    s.fg.lbl = .start → s.drv.busy = false → 0 < baud.toNat → 1 ≤ s.drv.clock.toNat / baud.toNat →
    d = s.drv.clock.toNat / baud.toNat - 1 → d ≤ 0xFFFF →
    ∃ t u : State, exec (.configure baud .none false stop) s = .next t ∧
      exec (.configure baud .none false stop) t = .next u ∧
      exec (.configure baud .none false stop) u = .next { s with
        hw := { s.hw with div := BitVec.ofNat 16 d }
        drv := { s.drv with stop := stop }
        trace := s.trace ++ [.mmio .foreground .write 0x18 (BitVec.ofNat 32 d), .ret s.fg.k (.result .success)]
        fg := ⟨s.fg.k + 1, .start, .empty⟩ }

/-- Rule R142: with parity other than none, or with flow control, configure (descriptor 0x40, its operands numbered as
rule R87 numbers them) returns UnsupportedFeature for any other parameter values, in any state, and writes no register
and no driver field. That a return empties the foreground's locals is the model's own (log entry 10). Parity's numbers
are those of rule R87, which the spec takes from general knowledge (log entry 14, PRESUMED). -/
def Obligations.ConfigureUnsupportedFeature : Prop :=
  ∀ (s : State) (baud : Word) (parity : Parity) (flow : Bool) (stop : StopBits),
    encode (.configure baud parity flow stop) = ⟨0x40#8, [.num baud.toNat,
      .num (match parity with | .none => 0 | .odd => 1 | .even => 2),
      .num (if flow = true then 1 else 0), .num (match stop with | .one => 0 | .two => 1)]⟩ ∧
    (s.fg.lbl = .start → (parity ≠ .none ∨ flow = true) →
      exec (.configure baud parity flow stop) s = .next { s with
        trace := s.trace ++ [.ret s.fg.k (.result .unsupportedFeature)]
        fg := ⟨s.fg.k + 1, .start, .empty⟩ })

/-- Rules R141, R143, R234: after the feature checks configure faults at CF0, in this order, on a transfer in flight,
on baud 0, on a clock below the baud rate, on a divisor above 0xFFFF; a fault changes nothing else. That a fault is a
next state with the fault set is the model's own form (log entry 8). -/
def Obligations.ConfigureFaultOrder : Prop :=
  ∀ (s : State) (baud : Word) (stop : StopBits), s.fg.lbl = .start →
    ∀ f : FaultReason → Out,
      (∀ r, f r = .next { s with fault := some ⟨r, .foreground, s.fg.k, .cf0⟩ }) →
      (s.drv.busy = true → exec (.configure baud .none false stop) s = f .configureWhileBusy) ∧
      (s.drv.busy = false → baud.toNat = 0 →
        exec (.configure baud .none false stop) s = f .configDivideByZero) ∧
      (s.drv.busy = false → 0 < baud.toNat → s.drv.clock.toNat < baud.toNat →
        exec (.configure baud .none false stop) s = f .configDivisorUnderflow) ∧
      (s.drv.busy = false → 0 < baud.toNat → 0xFFFF < s.drv.clock.toNat / baud.toNat - 1 →
        exec (.configure baud .none false stop) s = f .configDivisorOverflow)

/-! ## transmit_sync (42_sync_transmit.md) -/

/-- Rules R151, R152, R233: entering transmit_sync faults on a transfer in flight; otherwise TS0 and TS1 write
0x00010001 to txctrl whatever the configured stop-bit mode and go on to the poll, or to the return where there is no
byte. That a fault is a next state with the fault set is the model's own form (log entry 8). -/
def Obligations.SyncProgramsTransmitter : Prop :=
  ∀ (s : State) (bytes : List Byte), s.fg.lbl = .start →
    (s.drv.busy = true →
      exec (.transmitSync bytes) s =
        .next { s with fault := some ⟨.syncWhileBusy, .foreground, s.fg.k, .ts0⟩ }) ∧
    (s.drv.busy = false →
      execTimes (.transmitSync bytes) 2 s = .next { s with
        hw := { s.hw with txctrl := ⟨true, false, 1⟩ }
        trace := s.trace ++ [.mmio .foreground .write 0x08 0x00010001#32]
        fg := ⟨s.fg.k, if bytes = [] then .ts4 else .ts2, { s.fg.loc with i := 0 }⟩ })

/-- Rules R151, R153, R155: where the FIFO has room for all the bytes and no other agent steps between, transmit_sync
returns after exactly one read that saw the FIFO not full and one write for each byte, in order, the bytes queued
behind what the FIFO held; no driver field and no interrupt enable changes. That a return empties the foreground's
locals is the model's own (log entry 10). The count of free values is the model's own field (log entry 5). -/
def Obligations.SyncQueuesEveryByte : Prop :=
  ∀ (s : State) (bytes : List Byte), s.fg.lbl = .start → s.drv.busy = false →
    s.hw.txfifo.length + bytes.length ≤ s.params.txDepth →
    execTimes (.transmitSync bytes) (2 * bytes.length + 3) s = .next { s with
      hw := { s.hw with txctrl := ⟨true, false, 1⟩, txfifo := s.hw.txfifo ++ bytes }
      draws := s.draws + bytes.length
      trace := s.trace ++ [.mmio .foreground .write 0x08 0x00010001#32] ++ pollWriteEvents s.draws bytes ++
        [.ret s.fg.k .none]
      fg := ⟨s.fg.k + 1, .start, .empty⟩ }

/-- Rules R151 and R154: at TS2 one poll reads txdata; it stays at TS2 while the FIFO is full and goes on to TS3 when
it is not. The data bits of the read are a free value. The count of free values is the model's own field (log entry
5). -/
def Obligations.SyncPollsWhileFull : Prop :=
  ∀ (s : State) (bytes : List Byte), s.fg.lbl = .ts2 →
    ∀ r : Word, r = (if s.hw.txfifo.length = s.params.txDepth then 0x80000000#32 else 0#32) |||
        (Config.drawByte s.draws).setWidth 32 →
      exec (.transmitSync bytes) s = .next { s with
        draws := s.draws + 1
        trace := s.trace ++ [.mmio .foreground .read 0x00 r]
        fg := ⟨s.fg.k, if s.hw.txfifo.length = s.params.txDepth then .ts2 else .ts3, s.fg.loc⟩ }

/-- Rule R151 at TS3 and TS4: with room in the FIFO TS3 writes the byte at the index, moves the index on and goes to
TS4 after the last byte and to the next poll otherwise; TS4 returns with no result. On a full FIFO, which no run
reaches at TS3, rule R101 decides: TxOverflow and nothing else under `Fault`; under `Drop` the byte is lost and the
step goes on. That a return empties the foreground's locals is the model's own (log entry 10). That a fault is a next
state with the fault set is the model's own form (log entry 8). -/
def Obligations.SyncWritesByte : Prop :=
  ∀ (s : State) (bytes : List Byte),
    (∀ b : Byte, s.fg.lbl = .ts3 → bytes[s.fg.loc.i]? = some b →
      (s.hw.txfifo.length < s.params.txDepth →
        exec (.transmitSync bytes) s = .next { s with
          hw := { s.hw with txfifo := s.hw.txfifo ++ [b] }
          trace := s.trace ++ [.mmio .foreground .write 0x00 (b.setWidth 32)]
          fg := ⟨s.fg.k, if s.fg.loc.i + 1 = bytes.length then .ts4 else .ts2,
            { s.fg.loc with i := s.fg.loc.i + 1 }⟩ }) ∧
      (s.params.txDepth ≤ s.hw.txfifo.length → s.params.txOverflow = .fault →
        exec (.transmitSync bytes) s =
          .next { s with fault := some ⟨.txOverflow, .foreground, s.fg.k, .ts3⟩ }) ∧
      (s.params.txDepth ≤ s.hw.txfifo.length → s.params.txOverflow = .drop →
        exec (.transmitSync bytes) s = .next { s with
          trace := s.trace ++ [.mmio .foreground .write 0x00 (b.setWidth 32)]
          fg := ⟨s.fg.k, if s.fg.loc.i + 1 = bytes.length then .ts4 else .ts2,
            { s.fg.loc with i := s.fg.loc.i + 1 }⟩ })) ∧
    (s.fg.lbl = .ts4 →
      exec (.transmitSync bytes) s = .next { s with
        trace := s.trace ++ [.ret s.fg.k .none]
        fg := ⟨s.fg.k + 1, .start, .empty⟩ })

/-! ## transmit_buffer and its family (43_async_transmit.md) -/

/-- Rule R162: transmit_buffer with length 0 returns InvalidSize with the buffer it was given, in any state, in flight
or not, and touches no register and no driver field. That a return empties the foreground's locals is the model's own
(log entry 10). -/
def Obligations.ZeroLengthReturnsBuffer : Prop :=
  ∀ (s : State) (buf : Buffer), s.fg.lbl = .start →
    exec (.transmitBuffer buf 0#32) s = .next { s with
      trace := s.trace ++ [.ret s.fg.k (.resultBuffer .invalidSize (some buf))]
      fg := ⟨s.fg.k + 1, .start, .empty⟩ }

/-- Rules R163, R165, R233, R234 at TB0 with a length above 0: a transfer in flight faults, then a length above the
buffer's size; otherwise the transfer is accepted: busy is set, the buffer and index 0 go to the locals, and the
cursor is set to 0 only under `CURSOR_INIT_WRITE`. That a fault is a next state with the fault set is the model's own
form (log entry 8). -/
def Obligations.TransmitBufferAccepts : Prop :=
  ∀ (s : State) (buf : Buffer) (len : Word), s.fg.lbl = .start → 0 < len.toNat →
    (s.drv.busy = true →
      exec (.transmitBuffer buf len) s =
        .next { s with fault := some ⟨.transmitWhileBusy, .foreground, s.fg.k, .tb0⟩ }) ∧
    (s.drv.busy = false → buf.data.length < len.toNat →
      exec (.transmitBuffer buf len) s =
        .next { s with fault := some ⟨.bufferTooShort, .foreground, s.fg.k, .tb0⟩ }) ∧
    (s.drv.busy = false → len.toNat ≤ buf.data.length →
      exec (.transmitBuffer buf len) s = .next { s with
        drv := { s.drv with
          busy := true
          cursor := if s.params.cursorInitWrite = true then 0#32 else s.drv.cursor }
        fg := ⟨s.fg.k, .tb1, { s.fg.loc with buf := some buf, i := 0 }⟩ })

/-- Rules R163 and R167 under the decided fill order, no other agent stepping between: transmit_buffer with room for
at least one byte writes ie 1, then m = min(len, room) bytes of the buffer in order, each followed by a full check,
puts the buffer in the slot and the length beside it, starts the transmitter with the configured stop bits and trigger
count 1, and returns Success with the cursor at m. That a return empties the foreground's locals is the model's own
(log entry 10). The count of free values is the model's own field (log entry 5). -/
def Obligations.TransmitBufferFillsFifo : Prop :=
  ∀ (s : State) (buf : Buffer) (len : Word) (m : Nat), s.fg.lbl = .start → s.params.fillOrder = .writeThenCheck →
    s.drv.busy = false → 0 < len.toNat → len.toNat ≤ buf.data.length →
    s.hw.txfifo.length < s.params.txDepth →
    m = min len.toNat (s.params.txDepth - s.hw.txfifo.length) →
    execTimes (.transmitBuffer buf len) (3 * m + 6) s = .next { s with
      hw := { s.hw with
        ie := ⟨true, false⟩
        txctrl := ⟨true, decide (s.drv.stop = .two), 1⟩
        txfifo := s.hw.txfifo ++ buf.data.take m }
      drv := { s.drv with slot := some buf, length := len, cursor := BitVec.ofNat 32 m, busy := true }
      draws := s.draws + m
      trace := s.trace ++ [.mmio .foreground .write 0x10 0x00000001#32] ++
        writeCheckEvents .foreground s.params.txDepth s.draws s.hw.txfifo.length (buf.data.take m) ++
        [.mmio .foreground .write 0x08 (if s.drv.stop = .two then 0x00010003#32 else 0x00010001#32),
          .ret s.fg.k (.resultBuffer .success none)]
      fg := ⟨s.fg.k + 1, .start, .empty⟩ }

/-- Rules R163 and R165, TB1 to TB8 one by one in any state at that label, whatever the other agents did before it: ie
1; a byte to txdata; the cursor; the full check, with the end of the loop when full or at the length; the slot; the
length; txctrl with the configured stop bits; Success. TB2 to TB4 are those of `WriteThenCheck` (those of
`CheckThenWrite` are TransmitBufferChecksFirst), the others are of both fill orders. On a full FIFO TB2 raises
TxOverflow and does nothing else under `TX_OVERFLOW = Fault`; under `Drop` the byte is lost, the access is recorded
and TB3 follows (rules R101, R283). That a return empties the foreground's locals is the model's own (log entry 10).
The count of free values is the model's own field (log entry 5). That a fault is a next state with the fault set is
the model's own form (log entry 8). -/
def Obligations.TransmitBufferMicroSteps : Prop :=
  ∀ (s : State) (buf : Buffer) (len : Word),
    (s.fg.lbl = .tb1 →
      exec (.transmitBuffer buf len) s = .next { s with
        hw := { s.hw with ie := ⟨true, false⟩ }
        trace := s.trace ++ [.mmio .foreground .write 0x10 0x00000001#32]
        fg := ⟨s.fg.k, .tb2, s.fg.loc⟩ }) ∧
    (∀ (held : Buffer) (b : Byte), s.params.fillOrder = .writeThenCheck → s.fg.lbl = .tb2 →
      s.fg.loc.buf = some held → held.data[s.fg.loc.i]? = some b →
      (s.hw.txfifo.length < s.params.txDepth →
        exec (.transmitBuffer buf len) s = .next { s with
          hw := { s.hw with txfifo := s.hw.txfifo ++ [b] }
          trace := s.trace ++ [.mmio .foreground .write 0x00 (b.setWidth 32)]
          fg := ⟨s.fg.k, .tb3, s.fg.loc⟩ }) ∧
      (s.params.txDepth ≤ s.hw.txfifo.length → s.params.txOverflow = .fault →
        exec (.transmitBuffer buf len) s =
          .next { s with fault := some ⟨.txOverflow, .foreground, s.fg.k, .tb2⟩ }) ∧
      (s.params.txDepth ≤ s.hw.txfifo.length → s.params.txOverflow = .drop →
        exec (.transmitBuffer buf len) s = .next { s with
          trace := s.trace ++ [.mmio .foreground .write 0x00 (b.setWidth 32)]
          fg := ⟨s.fg.k, .tb3, s.fg.loc⟩ })) ∧
    (s.params.fillOrder = .writeThenCheck → s.fg.lbl = .tb3 →
      exec (.transmitBuffer buf len) s = .next { s with
        drv := { s.drv with cursor := BitVec.ofNat 32 (s.fg.loc.i + 1) }
        fg := ⟨s.fg.k, .tb4, s.fg.loc⟩ }) ∧
    (s.params.fillOrder = .writeThenCheck → s.fg.lbl = .tb4 →
      ∀ r : Word, r = (if s.hw.txfifo.length = s.params.txDepth then 0x80000000#32 else 0#32) |||
          (Config.drawByte s.draws).setWidth 32 →
        exec (.transmitBuffer buf len) s = .next { s with
          draws := s.draws + 1
          trace := s.trace ++ [.mmio .foreground .read 0x00 r]
          fg := ⟨s.fg.k,
            if s.hw.txfifo.length = s.params.txDepth ∨ s.fg.loc.i + 1 = len.toNat then .tb5 else .tb2,
            { s.fg.loc with i := s.fg.loc.i + 1 }⟩ }) ∧
    (s.fg.lbl = .tb5 →
      exec (.transmitBuffer buf len) s = .next { s with
        drv := { s.drv with slot := s.fg.loc.buf }
        fg := ⟨s.fg.k, .tb6, { s.fg.loc with buf := none }⟩ }) ∧
    (s.fg.lbl = .tb6 →
      exec (.transmitBuffer buf len) s = .next { s with
        drv := { s.drv with length := len }
        fg := ⟨s.fg.k, .tb7, s.fg.loc⟩ }) ∧
    (s.fg.lbl = .tb7 →
      exec (.transmitBuffer buf len) s = .next { s with
        hw := { s.hw with txctrl := ⟨true, decide (s.drv.stop = .two), 1⟩ }
        trace := s.trace ++
          [.mmio .foreground .write 0x08 (if s.drv.stop = .two then 0x00010003#32 else 0x00010001#32)]
        fg := ⟨s.fg.k, .tb8, s.fg.loc⟩ }) ∧
    (s.fg.lbl = .tb8 →
      exec (.transmitBuffer buf len) s = .next { s with
        trace := s.trace ++ [.ret s.fg.k (.resultBuffer .success none)]
        fg := ⟨s.fg.k + 1, .start, .empty⟩ })

/-- Rule R164: under `CheckThenWrite` TB2 reads txdata and leaves for TB5 with no write when the FIFO is full, TB3
writes the byte at the index, and TB4 stores the cursor and ends the loop at the length. On a full FIFO, which no run
reaches at TB3, rule R101 decides: TxOverflow and nothing else under `Fault`; under `Drop` the byte is lost and TB4
follows. The count of free values is the model's own field (log entry 5). That a fault is a next state with the fault
set is the model's own form (log entry 8). -/
def Obligations.TransmitBufferChecksFirst : Prop :=
  ∀ (s : State) (buf : Buffer) (len : Word), s.params.fillOrder = .checkThenWrite →
    (s.fg.lbl = .tb2 →
      ∀ r : Word, r = (if s.hw.txfifo.length = s.params.txDepth then 0x80000000#32 else 0#32) |||
          (Config.drawByte s.draws).setWidth 32 →
        exec (.transmitBuffer buf len) s = .next { s with
          draws := s.draws + 1
          trace := s.trace ++ [.mmio .foreground .read 0x00 r]
          fg := ⟨s.fg.k, if s.hw.txfifo.length = s.params.txDepth then .tb5 else .tb3, s.fg.loc⟩ }) ∧
    (∀ (held : Buffer) (b : Byte), s.fg.lbl = .tb3 → s.fg.loc.buf = some held →
      held.data[s.fg.loc.i]? = some b →
      (s.hw.txfifo.length < s.params.txDepth →
        exec (.transmitBuffer buf len) s = .next { s with
          hw := { s.hw with txfifo := s.hw.txfifo ++ [b] }
          trace := s.trace ++ [.mmio .foreground .write 0x00 (b.setWidth 32)]
          fg := ⟨s.fg.k, .tb4, s.fg.loc⟩ }) ∧
      (s.params.txDepth ≤ s.hw.txfifo.length → s.params.txOverflow = .fault →
        exec (.transmitBuffer buf len) s =
          .next { s with fault := some ⟨.txOverflow, .foreground, s.fg.k, .tb3⟩ }) ∧
      (s.params.txDepth ≤ s.hw.txfifo.length → s.params.txOverflow = .drop →
        exec (.transmitBuffer buf len) s = .next { s with
          trace := s.trace ++ [.mmio .foreground .write 0x00 (b.setWidth 32)]
          fg := ⟨s.fg.k, .tb4, s.fg.loc⟩ })) ∧
    (s.fg.lbl = .tb4 →
      exec (.transmitBuffer buf len) s = .next { s with
        drv := { s.drv with cursor := BitVec.ofNat 32 (s.fg.loc.i + 1) }
        fg := ⟨s.fg.k, if s.fg.loc.i + 1 = len.toNat then .tb5 else .tb2,
          { s.fg.loc with i := s.fg.loc.i + 1 }⟩ })

/-- Rules R168, R169, R202, R203: transmit_abort (0x43), transmit_word (0x44), receive_abort (0x46) and receive_word
(0x47) return GeneralFailure in every state and change nothing else. That a return empties the foreground's locals is
the model's own (log entry 10). -/
def Obligations.StubsReturnGeneralFailure : Prop :=
  encode .transmitAbort = ⟨0x43#8, []⟩ ∧ (∀ w : Word, encode (.transmitWord w) = ⟨0x44#8, [.num w.toNat]⟩) ∧
  encode .receiveAbort = ⟨0x46#8, []⟩ ∧ encode .receiveWord = ⟨0x47#8, []⟩ ∧
  ∀ (s t : State) (w : Word), s.fg.lbl = .start →
    t = { s with
      trace := s.trace ++ [.ret s.fg.k (.result .generalFailure)]
      fg := ⟨s.fg.k + 1, .start, .empty⟩ } →
    exec .transmitAbort s = .next t ∧ exec (.transmitWord w) s = .next t ∧
      exec .receiveAbort s = .next t ∧ exec .receiveWord s = .next t

/-- Rule R201: receive_buffer (0x45) returns GeneralFailure with the buffer it was given, whatever the length, and
changes nothing else. That a return empties the foreground's locals is the model's own (log entry 10). -/
def Obligations.ReceiveBufferReturnsBuffer : Prop :=
  ∀ (s : State) (buf : Buffer) (len : Word),
    encode (.receiveBuffer buf len) = ⟨0x45#8, [.buffer buf, .num len.toNat]⟩ ∧
    (s.fg.lbl = .start →
      exec (.receiveBuffer buf len) s = .next { s with
        trace := s.trace ++ [.ret s.fg.k (.resultBuffer .generalFailure (some buf))]
        fg := ⟨s.fg.k + 1, .start, .empty⟩ })

/-- Rules R205 and R206: registering a client replaces the one registered before, in flight or not, and changes
nothing else. That a return empties the foreground's locals is the model's own (log entry 10). -/
def Obligations.RegistrationReplacesClient : Prop :=
  ∀ (s : State) (c : ClientId), s.fg.lbl = .start →
    exec (.setTransmitClient c) s = .next { s with
      drv := { s.drv with txClient := some c }
      trace := s.trace ++ [.ret s.fg.k .none]
      fg := ⟨s.fg.k + 1, .start, .empty⟩ } ∧
    exec (.setReceiveClient c) s = .next { s with
      drv := { s.drv with rxClient := some c }
      trace := s.trace ++ [.ret s.fg.k .none]
      fg := ⟨s.fg.k + 1, .start, .empty⟩ }

/-! ## handle_interrupt (44_interrupt_handler.md) -/

/-- Rules R181 and R182 at H0: the handler reads ip once; with bit 0 clear it returns and changes nothing but the
trace, with bit 0 set it goes on to H1 with the snapshot, whatever bit 1 and ie are. The comparisons are the decided
rules of R32, which the spec takes from general knowledge (log entry 14, PRESUMED). -/
def Obligations.HandlerTakesSnapshot : Prop :=
  ∀ (s : State) (l : HsLocals), s.hs = some ⟨.h0, l⟩ →
    ∀ r : Word, r =
        (if s.hw.rxctrl.rxcnt.toNat < s.hw.rxfifo.length ∧ (s.params.ipRaw = true ∨ s.hw.ie.rxwm = true)
          then 2#32 else 0#32) |||
        (if s.hw.txfifo.length < s.hw.txctrl.txcnt.toNat ∧ (s.params.ipRaw = true ∨ s.hw.ie.txwm = true)
          then 1#32 else 0#32) →
      exec .handleInterrupt s = .next { s with
        trace := s.trace ++ [.mmio .handler .read 0x14 r]
        hs := if s.hw.txfifo.length < s.hw.txctrl.txcnt.toNat ∧ (s.params.ipRaw = true ∨ s.hw.ie.txwm = true)
          then some ⟨.h1, { l with s := r }⟩ else none }

/-- Rules R181, R184, R185 under `WriteWhole`: from H1 with the cursor at the length, H1 to H4 write txctrl 0 and ie 0,
empty an occupied slot, clear busy, and give the buffer with the stored length and Success to the registered client, or
drop it where none is registered; an empty slot is left with busy as it was. -/
def Obligations.HandlerCompletesTransfer : Prop :=
  ∀ (s : State) (l : HsLocals), s.hs = some ⟨.h1, l⟩ → s.drv.cursor = s.drv.length →
    s.params.doneWriteMode = .writeWhole →
    ∀ t : State, t = { s with
        hw := { s.hw with txctrl := ⟨false, false, 0⟩, ie := ⟨false, false⟩ }
        trace := s.trace ++ [.mmio .handler .write 0x08 0#32, .mmio .handler .write 0x10 0#32]
        hs := none } →
      (s.drv.slot = none → execTimes .handleInterrupt 4 s = .next t) ∧
      (∀ b, s.drv.slot = some b → s.drv.txClient = none →
        execTimes .handleInterrupt 4 s = .next { t with
          drv := { s.drv with slot := none, busy := false }
          trace := t.trace ++ [.bufferDropped b] }) ∧
      (∀ b c, s.drv.slot = some b → s.drv.txClient = some c →
        execTimes .handleInterrupt 4 s = .next { t with
          drv := { s.drv with slot := none, busy := false }
          trace := t.trace ++ [.callback c b s.drv.length .success] })

/-- Rules R184 to R186 under `ClearField`: from H1 with the cursor at the length, H2a to H3b clear only txen and the
transmit-watermark enable, each by a read and a write of the value read with bit 0 cleared, and reach H4 with the
length read at H1; the trigger count, the stop bits and the receive enable stay. H4 then empties an occupied slot,
clears busy, and gives the buffer with the stored length and Success to the registered client, or drops it where none
is registered; an empty slot is left with busy as it was; the handler returns. -/
def Obligations.HandlerClearsFields : Prop :=
  ∀ (s : State) (l : HsLocals), s.hs = some ⟨.h1, l⟩ → s.drv.cursor = s.drv.length →
    s.params.doneWriteMode = .clearField →
    ∀ t : State, t = { s with
        hw := { s.hw with
          txctrl := { s.hw.txctrl with txen := false }
          ie := { s.hw.ie with txwm := false } }
        trace := s.trace ++ [
          .mmio .handler .read 0x08 s.hw.txctrl.word,
          .mmio .handler .write 0x08 (Txctrl.word { s.hw.txctrl with txen := false }),
          .mmio .handler .read 0x10 s.hw.ie.word,
          .mmio .handler .write 0x10 (Watermarks.word { s.hw.ie with txwm := false })]
        hs := none } →
      (∃ l', l'.n = s.drv.length ∧ execTimes .handleInterrupt 5 s = .next { t with hs := some ⟨.h4, l'⟩ }) ∧
      (s.drv.slot = none → execTimes .handleInterrupt 6 s = .next t) ∧
      (∀ b, s.drv.slot = some b → s.drv.txClient = none →
        execTimes .handleInterrupt 6 s = .next { t with
          drv := { s.drv with slot := none, busy := false }
          trace := t.trace ++ [.bufferDropped b] }) ∧
      (∀ b c, s.drv.slot = some b → s.drv.txClient = some c →
        execTimes .handleInterrupt 6 s = .next { t with
          drv := { s.drv with slot := none, busy := false }
          trace := t.trace ++ [.callback c b s.drv.length .success] })

/-- Rule R183 under the decided fill order, no other agent stepping between: from H1 with the slot occupied, the
cursor below the length and room in the FIFO, the handler writes m = min(length − cursor, room) bytes from the cursor
on, each followed by a full check, leaves the cursor after them and the buffer in the slot, and returns. The count of
free values is the model's own field (log entry 5). -/
def Obligations.HandlerContinuesTransfer : Prop :=
  ∀ (s : State) (l : HsLocals) (buf : Buffer) (m : Nat), s.hs = some ⟨.h1, l⟩ →
    s.params.fillOrder = .writeThenCheck → s.drv.slot = some buf →
    s.drv.cursor.toNat < s.drv.length.toNat → s.drv.length.toNat ≤ buf.data.length →
    s.hw.txfifo.length < s.params.txDepth →
    m = min (s.drv.length.toNat - s.drv.cursor.toNat) (s.params.txDepth - s.hw.txfifo.length) →
    execTimes .handleInterrupt (3 * m + 2) s = .next { s with
      hw := { s.hw with txfifo := s.hw.txfifo ++ (buf.data.drop s.drv.cursor.toNat).take m }
      drv := { s.drv with cursor := s.drv.cursor + BitVec.ofNat 32 m }
      draws := s.draws + m
      trace := s.trace ++ writeCheckEvents .handler s.params.txDepth s.draws s.hw.txfifo.length
        ((buf.data.drop s.drv.cursor.toNat).take m)
      hs := none }

/-- Rule R183: from H1, with a cursor that is not the length, an empty slot or a cursor past the length ends the handler
at H5 with nothing written. -/
def Obligations.HandlerSkipsWithoutWork : Prop :=
  ∀ (s : State) (l : HsLocals), s.hs = some ⟨.h1, l⟩ → s.drv.cursor ≠ s.drv.length →
    (s.drv.slot = none ∨ s.drv.length.toNat < s.drv.cursor.toNat) →
    execTimes .handleInterrupt 2 s = .next { s with hs := none }

/-- Rules R183 and R187: where the index is at or past the end of the slot's buffer, the write of the continuation
raises HandlerIndexOutOfRange, at H6 or under `CheckThenWrite` at H7, and nothing is written. That a fault is a next
state with the fault set is the model's own form (log entry 8). -/
def Obligations.HandlerIndexFaults : Prop :=
  ∀ (s : State) (l : HsLocals) (buf : Buffer), s.drv.slot = some buf → buf.data.length ≤ l.i →
    (s.hs = some ⟨.h6, l⟩ → s.params.fillOrder = .writeThenCheck →
      exec .handleInterrupt s =
        .next { s with fault := some ⟨.handlerIndexOutOfRange, .handler, s.fg.k, .h6⟩ }) ∧
    (s.hs = some ⟨.h7, l⟩ → s.params.fillOrder = .checkThenWrite →
      exec .handleInterrupt s =
        .next { s with fault := some ⟨.handlerIndexOutOfRange, .handler, s.fg.k, .h7⟩ })

/-- Rule R187: under `CheckThenWrite` H6 reads txdata and returns with no write when the FIFO is full, H7 writes the
byte at the index, and H8 stores the cursor and returns at the length. On a full FIFO at H7, which no run reaches
under `CheckThenWrite`, rule R101 decides: TxOverflow and nothing else under `Fault`; under `Drop` the byte is lost
and H8 follows. The count of free values is the model's own field (log entry 5). That a fault is a next state with the
fault set is the model's own form (log entry 8). -/
def Obligations.HandlerChecksFirst : Prop :=
  ∀ (s : State) (l : HsLocals), s.params.fillOrder = .checkThenWrite →
    (s.hs = some ⟨.h6, l⟩ →
      ∀ r : Word, r = (if s.hw.txfifo.length = s.params.txDepth then 0x80000000#32 else 0#32) |||
          (Config.drawByte s.draws).setWidth 32 →
        exec .handleInterrupt s = .next { s with
          draws := s.draws + 1
          trace := s.trace ++ [.mmio .handler .read 0x00 r]
          hs := if s.hw.txfifo.length = s.params.txDepth then none else some ⟨.h7, l⟩ }) ∧
    (∀ (buf : Buffer) (b : Byte), s.hs = some ⟨.h7, l⟩ → s.drv.slot = some buf →
      buf.data[l.i]? = some b →
      (s.hw.txfifo.length < s.params.txDepth →
        exec .handleInterrupt s = .next { s with
          hw := { s.hw with txfifo := s.hw.txfifo ++ [b] }
          trace := s.trace ++ [.mmio .handler .write 0x00 (b.setWidth 32)]
          hs := some ⟨.h8, l⟩ }) ∧
      (s.params.txDepth ≤ s.hw.txfifo.length → s.params.txOverflow = .fault →
        exec .handleInterrupt s =
          .next { s with fault := some ⟨.txOverflow, .handler, s.fg.k, .h7⟩ }) ∧
      (s.params.txDepth ≤ s.hw.txfifo.length → s.params.txOverflow = .drop →
        exec .handleInterrupt s = .next { s with
          trace := s.trace ++ [.mmio .handler .write 0x00 (b.setWidth 32)]
          hs := some ⟨.h8, l⟩ })) ∧
    (s.hs = some ⟨.h8, l⟩ →
      exec .handleInterrupt s = .next { s with
        drv := { s.drv with cursor := BitVec.ofNat 32 (l.i + 1) }
        hs := if l.i + 1 = l.n.toNat then none else some ⟨.h6, { l with i := l.i + 1 }⟩ })

/-- Rules R181, R183 to R186: the handler one micro-step at a time, in any state at that label, whatever the other
agents did before it (H0 is HandlerTakesSnapshot; H6 to H8 of `CheckThenWrite` are HandlerChecksFirst; the index past
the buffer's end is HandlerIndexFaults). H1 reads the cursor and the length, and goes to H2, or to H2a under
`ClearField`, when they are equal and to H5 otherwise. H2 and H3 write txctrl 0 and ie 0; H2a and H3a read them, and
H2b and H3b write the value read back with bit 0 cleared, where it has no reserved bit set. H4, in both modes, empties
an occupied slot, clears busy, gives the buffer to the registered client or drops it, and returns. H5 returns on an
empty slot and on a cursor at or past the length, and otherwise starts the loop at the cursor. Under `WriteThenCheck`
H6 writes the byte at the index, H7 stores the cursor, H8 reads txdata and returns when the FIFO is full or at the
length. On a full FIFO H6 raises TxOverflow and does nothing else under `TX_OVERFLOW = Fault`; under `Drop` the byte
is lost, the access is recorded and H7 follows (rules R101, R188). The count of free values is the model's own field
(log entry 5). That a fault is a next state with the fault set is the model's own form (log entry 8). -/
def Obligations.HandlerMicroSteps : Prop :=
  ∀ (s : State) (l : HsLocals),
    (s.hs = some ⟨.h1, l⟩ →
      exec .handleInterrupt s = .next { s with
        hs := some ⟨if s.drv.cursor = s.drv.length then
            (if s.params.doneWriteMode = .writeWhole then .h2 else .h2a) else .h5,
          { l with c := s.drv.cursor, n := s.drv.length }⟩ }) ∧
    (s.hs = some ⟨.h2, l⟩ →
      exec .handleInterrupt s = .next { s with
        hw := { s.hw with txctrl := ⟨false, false, 0⟩ }
        trace := s.trace ++ [.mmio .handler .write 0x08 0#32]
        hs := some ⟨.h3, l⟩ }) ∧
    (s.hs = some ⟨.h3, l⟩ →
      exec .handleInterrupt s = .next { s with
        hw := { s.hw with ie := ⟨false, false⟩ }
        trace := s.trace ++ [.mmio .handler .write 0x10 0#32]
        hs := some ⟨.h4, l⟩ }) ∧
    (s.hs = some ⟨.h2a, l⟩ →
      exec .handleInterrupt s = .next { s with
        trace := s.trace ++ [.mmio .handler .read 0x08 s.hw.txctrl.word]
        hs := some ⟨.h2b, { l with t := s.hw.txctrl.word }⟩ }) ∧
    (s.hs = some ⟨.h2b, l⟩ → l.t &&& 0xFFF8FFFC#32 = 0#32 →
      exec .handleInterrupt s = .next { s with
        hw := { s.hw with txctrl := ⟨false, l.t.getLsbD 1, l.t.extractLsb' 16 3⟩ }
        trace := s.trace ++ [.mmio .handler .write 0x08 (l.t &&& 0xFFFFFFFE#32)]
        hs := some ⟨.h3a, l⟩ }) ∧
    (s.hs = some ⟨.h3a, l⟩ →
      exec .handleInterrupt s = .next { s with
        trace := s.trace ++ [.mmio .handler .read 0x10 s.hw.ie.word]
        hs := some ⟨.h3b, { l with t := s.hw.ie.word }⟩ }) ∧
    (s.hs = some ⟨.h3b, l⟩ → l.t &&& 0xFFFFFFFC#32 = 0#32 →
      exec .handleInterrupt s = .next { s with
        hw := { s.hw with ie := ⟨false, l.t.getLsbD 1⟩ }
        trace := s.trace ++ [.mmio .handler .write 0x10 (l.t &&& 0xFFFFFFFE#32)]
        hs := some ⟨.h4, l⟩ }) ∧
    (s.hs = some ⟨.h4, l⟩ →
      (s.drv.slot = none → exec .handleInterrupt s = .next { s with hs := none }) ∧
      ∀ b : Buffer, s.drv.slot = some b →
        exec .handleInterrupt s = .next { s with
          drv := { s.drv with slot := none, busy := false }
          trace := s.trace ++ [match s.drv.txClient with
            | some c => .callback c b l.n .success
            | none => .bufferDropped b]
          hs := none }) ∧
    (s.hs = some ⟨.h5, l⟩ →
      exec .handleInterrupt s = .next { s with
        hs := if s.drv.slot = none ∨ l.n.toNat ≤ l.c.toNat then none
          else some ⟨.h6, { l with i := l.c.toNat }⟩ }) ∧
    (∀ (buf : Buffer) (b : Byte), s.params.fillOrder = .writeThenCheck → s.hs = some ⟨.h6, l⟩ → s.drv.slot = some buf →
      buf.data[l.i]? = some b →
      (s.hw.txfifo.length < s.params.txDepth →
        exec .handleInterrupt s = .next { s with
          hw := { s.hw with txfifo := s.hw.txfifo ++ [b] }
          trace := s.trace ++ [.mmio .handler .write 0x00 (b.setWidth 32)]
          hs := some ⟨.h7, l⟩ }) ∧
      (s.params.txDepth ≤ s.hw.txfifo.length → s.params.txOverflow = .fault →
        exec .handleInterrupt s =
          .next { s with fault := some ⟨.txOverflow, .handler, s.fg.k, .h6⟩ }) ∧
      (s.params.txDepth ≤ s.hw.txfifo.length → s.params.txOverflow = .drop →
        exec .handleInterrupt s = .next { s with
          trace := s.trace ++ [.mmio .handler .write 0x00 (b.setWidth 32)]
          hs := some ⟨.h7, l⟩ })) ∧
    (s.params.fillOrder = .writeThenCheck → s.hs = some ⟨.h7, l⟩ →
      exec .handleInterrupt s = .next { s with
        drv := { s.drv with cursor := BitVec.ofNat 32 (l.i + 1) }
        hs := some ⟨.h8, l⟩ }) ∧
    (s.params.fillOrder = .writeThenCheck → s.hs = some ⟨.h8, l⟩ →
      ∀ r : Word, r = (if s.hw.txfifo.length = s.params.txDepth then 0x80000000#32 else 0#32) |||
          (Config.drawByte s.draws).setWidth 32 →
        exec .handleInterrupt s = .next { s with
          draws := s.draws + 1
          trace := s.trace ++ [.mmio .handler .read 0x00 r]
          hs := if s.hw.txfifo.length = s.params.txDepth ∨ l.i + 1 = l.n.toNat then none
            else some ⟨.h6, { l with i := l.i + 1 }⟩ })

/-- Rule R188: a micro-step of the handler, at any label, always answers a next state and can raise only
HandlerIndexOutOfRange or TxOverflow; at H2b and H3b, which write back a value another micro-step read, where that
value has no reserved bit of the register set, as every value that H2a and H3a read (rule R29). That a raised fault is
an answered next state is the model's own form (log entry 8), and that an empty slot at H6, or at H7 under
`CheckThenWrite`, raises HandlerIndexOutOfRange is the model's choice (log entry 12, DESIGN CHOICE; no run reaches
it). -/
def Obligations.HandlerRaisesNoOtherFault : Prop :=
  ∀ (s : State) (h : Hs), s.hs = some h → s.fault = none →
    (h.lbl = .h2b → h.loc.t &&& 0xFFF8FFFC#32 = 0#32) → (h.lbl = .h3b → h.loc.t &&& 0xFFFFFFFC#32 = 0#32) →
    ∃ t, exec .handleInterrupt s = .next t ∧
      ∀ f, t.fault = some f → f.reason = .handlerIndexOutOfRange ∨ f.reason = .txOverflow

/-- Rule R245: once entered the handler steps until it returns or faults: from any label and any locals, within three
micro-steps for each byte of the slot's buffer and twelve more. That a raised fault is a next state with the fault set
is the model's own form (log entry 8), and that an empty slot at H6, or at H7 under `CheckThenWrite`, raises
HandlerIndexOutOfRange is the model's choice (log entry 12, DESIGN CHOICE; no run reaches it). -/
def Obligations.HandlerReturnsOrFaults : Prop :=
  ∀ (s : State) (h : Hs), s.hs = some h →
    ∃ n t, n ≤ 3 * ((s.drv.slot.map fun b => b.data.length).getD 0) + 12 ∧
      execTimes .handleInterrupt n s = .next t ∧ (t.hs = none ∨ t.fault ≠ none)

/-- Rules R184 and R223: a completion callback is emitted only by the handler at H4 with the slot occupied: it carries the
buffer of the slot, the registered client, the length read at H1 and Success, and the step empties the slot and clears
busy. No foreground operation, no hardware agent and no other micro-step issues one. -/
def Obligations.CallbackOnlyAtCompletion : Prop :=
  ∀ (s t : State) (c : ClientId) (b : Buffer) (n : Word) (r : Result), step s = .next t →
    Event.callback c b n r ∈ t.trace.drop s.trace.length →
    ∃ h : Hs, s.hs = some h ∧ h.lbl = .h4 ∧ n = h.loc.n ∧ r = .success ∧ s.drv.slot = some b ∧
      s.drv.txClient = some c ∧ t.drv.slot = none ∧ t.drv.busy = false ∧ t.hs = none

/-! ## Dispatch, contexts, faults, programs (60_exceptions.md, 10_state.md) -/

/-- Rules R240 to R242: where no fault is set, the handler is not running, `irq ∨ SPURIOUS_IRQ` holds and the
operation is not held atomic, dispatch emits `Dispatch(¬irq)` and enters the handler at H0 with no locals; the
foreground keeps its label and locals and nothing else changes. While the handler runs (no nesting), while `irq` is
low without `SPURIOUS_IRQ`, and inside an operation under `ATOMIC_DRIVER_OPS`, dispatch is held off: choosing it
changes nothing but the schedule. That the choice is read from the schedule, and that a choice that is not enabled
passes, are the model's own (log entries 1 and 2). irq is that of rule R33. The comparisons are the decided rules of
R32, which the spec takes from general knowledge (log entry 14, PRESUMED). -/
def Obligations.DispatchEntersHandler : Prop :=
  ∀ (s : State) (rest : List Choice) (irq : Bool), s.program.refusal = none → s.fault = none →
    s.schedule = .dispatch :: rest →
    irq = ((decide (s.hw.txfifo.length < s.hw.txctrl.txcnt.toNat) && s.hw.ie.txwm) ||
      (decide (s.hw.rxctrl.rxcnt.toNat < s.hw.rxfifo.length) && s.hw.ie.rxwm)) →
    (s.hs = none → (irq = true ∨ s.params.spuriousIrq = true) →
      (s.params.atomicDriverOps = false ∨ s.fg.lbl = .start) →
      step s = .next { s with
        schedule := rest
        trace := s.trace ++ [.dispatch (!irq)]
        hs := some ⟨.h0, .empty⟩ }) ∧
    (s.hs ≠ none ∨ irq = false ∧ s.params.spuriousIrq = false ∨
        s.params.atomicDriverOps = true ∧ s.fg.lbl ≠ .start →
      step s = .next { s with schedule := rest })

/-- Rule R46: the foreground may take a micro-step exactly when the handler does not run, no fault is set and an
operation is left, whatever irq and `ATOMIC_DRIVER_OPS` are; no step changes the foreground's operation index, label
or locals otherwise; so while the handler runs no step of any agent changes them. -/
def Obligations.ForegroundFrozenInHandler : Prop :=
  (∀ s : State, s.enabled .foreground = true ↔
    s.hs = none ∧ s.fault = none ∧ s.fg.k < s.program.ops.length) ∧
  (∀ s t : State, step s = .next t → t.fg ≠ s.fg →
    s.hs = none ∧ s.fault = none ∧ s.fg.k < s.program.ops.length) ∧
  ∀ s t : State, s.hs ≠ none → step s = .next t → t.fg = s.fg

/-- Rules R49 and R230: in a faulted state no agent has a step: of an admitted program the machine stops with the
recorded fault, and no state at all follows. That a fault is a next state with the fault set is the model's own form
(log entry 8). -/
def Obligations.FaultIsSticky : Prop :=
  ∀ (s : State) (f : FaultRecord), s.fault = some f →
    (s.program.refusal = none → step s = .fault (.stopped f)) ∧ ∀ t, step s ≠ .next t

/-- Rule R230: a step that raises a fault does nothing else: the state after it is the state before it with the fault
set, but for the model's own schedule and count of free values (log entries 1 and 5). That a fault is a next state with
the fault set is the model's own form (log entry 8). -/
def Obligations.FaultChangesNothingElse : Prop :=
  ∀ s t : State, step s = .next t → s.fault = none → t.fault ≠ none →
    t = { s with fault := t.fault, schedule := t.schedule, draws := t.draws }

/-- Rules R84 to R88 and R232: a program with an entry that is refused has no run: every step of every state with it
is refused; a program without one is not refused. An entry is admitted exactly when it is a register read with no
operand or a register write with one u32, or one of the API operations 0 to 9, with d[7] = 0 and its own operands,
each in its type, and its buffer declared; so a reserved descriptor, 0x4A (operation 10, handle_interrupt), an operand
outside its type and a buffer that is not declared are refused, and nothing else is. The typed form of the operands is
the model's own (log entry 7), and so is that a buffer is declared when its identity and its bytes together are those
of a declaration, whether or not two declarations share an identity (log entry 19). -/
def Obligations.RefusedProgramHasNoRun : Prop :=
  (∀ s : State,
    ((∃ e ∈ s.program.ops, e.refusal s.program.bufs ≠ none) → ∃ k r, step s = .refused (.program k r)) ∧
    ((∀ e ∈ s.program.ops, e.refusal s.program.bufs = none) → ∀ k r, step s ≠ .refused (.program k r))) ∧
  ∀ (d : Byte) (args : List Operand) (bufs : List Buffer) (op : Nat), op = (d.extractLsb' 0 5).toNat →
    (Entry.refusal bufs ⟨d, args⟩ = none ↔
      d.extractLsb' 5 2 = 0#2 ∧ d.getLsbD 7 = false ∧ args = [] ∨
      d.extractLsb' 5 2 = 0#2 ∧ d.getLsbD 7 = true ∧ (∃ v < 2 ^ 32, args = [.num v]) ∨
      d.extractLsb' 5 2 = 2#2 ∧ d.getLsbD 7 = false ∧
        (op = 0 ∧ (∃ baud < 2 ^ 32, ∃ parity < 3, ∃ flow < 2, ∃ stop < 2,
            args = [.num baud, .num parity, .num flow, .num stop]) ∨
          op = 1 ∧ (∃ bytes, (∀ b ∈ bytes, b < 2 ^ 8) ∧ args = [.bytes bytes]) ∨
          (op = 2 ∨ op = 5) ∧ (∃ buf ∈ bufs, ∃ len < 2 ^ 32, args = [.buffer buf, .num len]) ∨
          (op = 3 ∨ op = 6 ∨ op = 7) ∧ args = [] ∨
          op = 4 ∧ (∃ w < 2 ^ 32, args = [.num w]) ∨
          (op = 8 ∨ op = 9) ∧ ∃ c, args = [.client c]))

/-- Rules R44, R45 and R46: where the foreground is chosen and enabled, a step is one micro-step of the operation
decoded at index `k`, taken with the choice removed from the schedule; where the handler runs and is chosen, a step is
one micro-step of handle_interrupt. That the choice is read from the schedule is the model's own (log entry 1). -/
def Obligations.StepRunsDecodedOperation : Prop :=
  (∀ (s : State) (e : Entry) (i : Instr) (rest : List Choice), s.program.refusal = none → s.fault = none →
    s.hs = none → s.schedule = .foreground :: rest → s.program.ops[s.fg.k]? = some e →
    decode e = .ok (.op i) → step s = exec i { s with schedule := rest }) ∧
  ∀ (s : State) (h : Hs) (rest : List Choice), s.program.refusal = none → s.fault = none → s.hs = some h →
    s.schedule = .handler :: rest → step s = exec .handleInterrupt { s with schedule := rest }

/-! ## Encoding (30_encoding.md) -/

/-- Decoding an encoded operation gives the operation back, every operand at every value (rules R84 to R87). -/
def Obligations.DecodeOfEncode : Prop := ∀ i : Instr, decode (encode i) = .ok (.op i)

/-- Encoding what was decoded gives the fetched entry back: each entry has one meaning and no bit of it is dropped. -/
def Obligations.EncodeOfDecode : Prop :=
  ∀ (e : Entry) (i : Instr), decode e = .ok (.op i) → encode i = e

/-- Rule R85, all fourteen rows, for every value written; and the descriptors of rule R86, written out bit by bit
(rule R84: d[7], d[6:5], d[4:0]), with operands, each decoding to the operation it stands for. -/
def Obligations.DescriptorsDecode : Prop :=
  decode ⟨0b0_00_00000#8, []⟩ = .ok (.op .mmioRTxdata) ∧
  decode ⟨0b0_00_00100#8, []⟩ = .ok (.op .mmioRRxdata) ∧
  decode ⟨0b0_00_01000#8, []⟩ = .ok (.op .mmioRTxctrl) ∧
  decode ⟨0b0_00_01100#8, []⟩ = .ok (.op .mmioRRxctrl) ∧
  decode ⟨0b0_00_10000#8, []⟩ = .ok (.op .mmioRIe) ∧
  decode ⟨0b0_00_10100#8, []⟩ = .ok (.op .mmioRIp) ∧
  decode ⟨0b0_00_11000#8, []⟩ = .ok (.op .mmioRDiv) ∧
  (∀ v : Word,
    decode ⟨0b1_00_00000#8, [.num v.toNat]⟩ = .ok (.op (.mmioWTxdata v)) ∧
    decode ⟨0b1_00_00100#8, [.num v.toNat]⟩ = .ok (.op (.mmioWRxdata v)) ∧
    decode ⟨0b1_00_01000#8, [.num v.toNat]⟩ = .ok (.op (.mmioWTxctrl v)) ∧
    decode ⟨0b1_00_01100#8, [.num v.toNat]⟩ = .ok (.op (.mmioWRxctrl v)) ∧
    decode ⟨0b1_00_10000#8, [.num v.toNat]⟩ = .ok (.op (.mmioWIe v)) ∧
    decode ⟨0b1_00_10100#8, [.num v.toNat]⟩ = .ok (.op (.mmioWIp v)) ∧
    decode ⟨0b1_00_11000#8, [.num v.toNat]⟩ = .ok (.op (.mmioWDiv v))) ∧
  (∀ (p : Parity) (f : Bool) (c : StopBits),
    decode ⟨0b0_10_00000#8, [.num 9600, .num p.code, .num f.toNat, .num c.code]⟩ =
      .ok (.op (.configure 9600#32 p f c))) ∧
  decode ⟨0b0_10_00001#8, [.bytes [0x48, 0x69]]⟩ = .ok (.op (.transmitSync [0x48#8, 0x69#8])) ∧
  decode ⟨0b0_10_00010#8, [.buffer ⟨⟨1⟩, [7#8]⟩, .num 1]⟩ = .ok (.op (.transmitBuffer ⟨⟨1⟩, [7#8]⟩ 1#32)) ∧
  decode ⟨0b0_10_00011#8, []⟩ = .ok (.op .transmitAbort) ∧
  decode ⟨0b0_10_00100#8, [.num 0x41]⟩ = .ok (.op (.transmitWord 0x41#32)) ∧
  decode ⟨0b0_10_00101#8, [.buffer ⟨⟨1⟩, [7#8]⟩, .num 4]⟩ = .ok (.op (.receiveBuffer ⟨⟨1⟩, [7#8]⟩ 4#32)) ∧
  decode ⟨0b0_10_00110#8, []⟩ = .ok (.op .receiveAbort) ∧
  decode ⟨0b0_10_00111#8, []⟩ = .ok (.op .receiveWord) ∧
  decode ⟨0b0_10_01000#8, [.client ⟨2⟩]⟩ = .ok (.op (.setTransmitClient ⟨2⟩)) ∧
  decode ⟨0b0_10_01001#8, [.client ⟨3⟩]⟩ = .ok (.op (.setReceiveClient ⟨3⟩)) ∧
  decode ⟨0b0_10_01010#8, []⟩ = .ok (.op .handleInterrupt)

/-- Rule R88: the reserved descriptors, with any operands, are exactly those with d[6:5] = 01 or 11, those of the API
format with d[7] = 1, and those of the API format with an operation number above 10. -/
def Obligations.ReservedDescriptors : Prop :=
  ∀ (d : Byte) (args : List Operand),
    decode ⟨d, args⟩ = .error (.reservedDescriptor d) ↔
      d.extractLsb' 5 2 = 1#2 ∨ d.extractLsb' 5 2 = 3#2 ∨
        d.extractLsb' 5 2 = 2#2 ∧ (d.getLsbD 7 = true ∨ 10 < (d.extractLsb' 0 5).toNat)

/-! ## What every step keeps -/

/-- Rules R13 and R48: a step only appends to the trace, and at most one of the events it appends is a register access. -/
def Obligations.TraceOnlyGrows : Prop :=
  ∀ s t : State, step s = .next t → ∃ es, t.trace = s.trace ++ es ∧ (accesses es).length ≤ 1

/-- Rules R20, R36, R37, R73: no step changes the program, a parameter, the register base or the clock. -/
def Obligations.ParametersFixed : Prop :=
  ∀ s t : State, step s = .next t →
    t.program = s.program ∧ t.params = s.params ∧ t.drv.base = s.drv.base ∧ t.drv.clock = s.drv.clock

/-- Rules R39 to R43: who writes the driver record. A step changes the stop-bit mode only as configure at CF2, the
length only as transmit_buffer at TB6, a client only as a registration, and empties or fills the slot only at H4 or
TB5. It changes busy only to true, as transmit_buffer with a length from 1 up to the buffer's size at its first
micro-step TB0, or to false, as the handler at H4 that empties an occupied slot. It changes the cursor only to 0 at
TB0 under `CURSOR_INIT_WRITE`, or to the index after the byte at TB3 (TB4 under `CheckThenWrite`) or at H7 (H8). The
base and the clock no step changes (ParametersFixed). -/
def Obligations.DriverFieldWriters : Prop :=
  ∀ s t : State, step s = .next t →
    (t.drv.stop ≠ s.drv.stop →
      s.fg.lbl = .cf2 ∧ ∃ b p f, s.fetch = .ok (.op (.configure b p f t.drv.stop))) ∧
    (t.drv.length ≠ s.drv.length →
      s.fg.lbl = .tb6 ∧ ∃ b, s.fetch = .ok (.op (.transmitBuffer b t.drv.length))) ∧
    (t.drv.txClient ≠ s.drv.txClient →
      ∃ c, t.drv.txClient = some c ∧ s.fetch = .ok (.op (.setTransmitClient c))) ∧
    (t.drv.rxClient ≠ s.drv.rxClient →
      ∃ c, t.drv.rxClient = some c ∧ s.fetch = .ok (.op (.setReceiveClient c))) ∧
    (t.drv.slot ≠ s.drv.slot →
      s.hs = none ∧ s.fg.lbl = .tb5 ∧ t.drv.slot = s.fg.loc.buf ∨
        t.drv.slot = none ∧ ∃ h, s.hs = some h ∧ h.lbl = .h4) ∧
    (t.drv.busy ≠ s.drv.busy →
      t.drv.busy = true ∧ s.hs = none ∧ s.fg.lbl = .start ∧
          (∃ b n, s.fetch = .ok (.op (.transmitBuffer b n)) ∧ 0 < n.toNat ∧ n.toNat ≤ b.data.length) ∨
        t.drv.busy = false ∧ s.drv.slot ≠ none ∧ t.drv.slot = none ∧ ∃ h, s.hs = some h ∧ h.lbl = .h4) ∧
    (t.drv.cursor ≠ s.drv.cursor →
      s.hs = none ∧ (∃ b n, s.fetch = .ok (.op (.transmitBuffer b n))) ∧
          (s.fg.lbl = .start ∧ s.params.cursorInitWrite = true ∧ t.drv.cursor = 0#32 ∨
            (s.fg.lbl = .tb3 ∧ s.params.fillOrder = .writeThenCheck ∨
                s.fg.lbl = .tb4 ∧ s.params.fillOrder = .checkThenWrite) ∧
              t.drv.cursor = BitVec.ofNat 32 (s.fg.loc.i + 1)) ∨
        ∃ h, s.hs = some h ∧
          (h.lbl = .h7 ∧ s.params.fillOrder = .writeThenCheck ∨
            h.lbl = .h8 ∧ s.params.fillOrder = .checkThenWrite) ∧
          t.drv.cursor = BitVec.ofNat 32 (h.loc.i + 1))

/-- Every step keeps the invariant: an admitted program, the FIFO bounds of rules R30 and R31, a foreground context that
its operation can rest at (rule R44), and busy in step with the slot (rules R40, R50), whatever agent steps, races
included. -/
def Obligations.StepKeepsInvariant : Prop := ∀ s t : State, s.Inv → step s = .next t → t.Inv

/-- The launch state of every admitted program, with any valid parameters, meets the invariant, and so does reset. -/
def Obligations.LaunchMeetsInvariant : Prop :=
  (∀ (p : Params) (base : Nat) (clock : Word) (prog : Program) (choices : List Choice),
    p.Valid → prog.refusal = none →
    State.Inv { State.launch p base clock with program := prog, schedule := choices }) ∧
  State.reset.Inv

/-- No run gets stuck: a state that meets the invariant and is not faulted has a next state, whichever agent is chosen. In
particular no operation meets a label or an index that is not its own. That there is a next state whichever agent is
chosen is the model's choice: the choice is read from the schedule (log entry 1), and a choice that is not enabled
passes (log entry 2). The spec gives an agent that is not enabled no step, and where no agent is enabled, as at a
finished state of rule R248 with `SPURIOUS_IRQ` false and the transmitter and the line off, it gives no step at all
(rule R237). -/
def Obligations.InvariantNeverStuck : Prop :=
  ∀ s : State, s.Inv → s.fault = none → ∃ t, step s = .next t

/-- Rule R50 without the preemption race (`ATOMIC_DRIVER_OPS = true`), under the decided fill order and with no raw write
to ie: every step keeps the engine invariant, and at every quiet point after it the slot is occupied exactly when a
transfer is in flight, the cursor is at most the length, and the watermark interrupt is enabled exactly when a transfer
is in flight. -/
def Obligations.QuietPointInvariants : Prop :=
  ∀ s t : State, s.EngineInv → step s = .next t →
    t.EngineInv ∧
      (t.Quiet → (t.drv.slot ≠ none ↔ t.drv.busy = true) ∧ t.drv.cursor.toNat ≤ t.drv.length.toNat ∧
        (t.hw.ie.txwm = true ↔ t.drv.busy = true))

/-- The launch state of every admitted program without a raw write to ie meets the engine invariant. -/
def Obligations.LaunchMeetsEngineInvariant : Prop :=
  ∀ (p : Params) (base : Nat) (clock : Word) (prog : Program) (choices : List Choice),
    p.Valid → p.atomicDriverOps = true → p.fillOrder = .writeThenCheck → prog.refusal = none →
    prog.noIeWrite = true →
    State.EngineInv { State.launch p base clock with program := prog, schedule := choices }

/-- Rule R51: the state after reset and construction, register by register and field by field, for every value of the
OPEN parameters with a transmit FIFO of at least one entry (rule R8). The locals of the foreground, which rule R51
leaves empty, and the model's own fields are not part of the statement. -/
def Obligations.ResetState : Prop :=
  ∀ (p : Params) (base : Nat) (clock : Word) (s : State), s = State.launch p base clock → 1 ≤ p.txDepth →
    s.hw = ⟨⟨false, false, 0⟩, ⟨false, 0⟩, ⟨false, false⟩, p.divReset, [], []⟩ ∧
    s.drv = ⟨base, clock, .one, none, none, none, 0, 0, false⟩ ∧
    s.fg.k = 0 ∧ s.fg.lbl = .start ∧ s.hs = none ∧ s.trace = [] ∧ s.fault = none ∧
    s.full = false ∧ s.rxEmpty = true ∧ s.ip = ⟨false, false⟩ ∧ s.irq = false
end

