-- ==== Sys2Proof/Laws/Bits.lean ====
section
/-! SUPPORT. The bit-field laws of the register values (rules R81 and R82): what a field reads of an assembled value. -/

namespace Sys2Proof.Machine

@[simp] theorem bit31_dataWord (f : Bool) (b : Byte) : bit31 (dataWord f b) = f := by
  cases f <;> simp [bit31, dataWord, bitAt]

@[simp] theorem bit0_watermarks_word (w : Watermarks) : bit0 w.word = w.txwm := by
  obtain ⟨a, b⟩ := w
  cases a <;> cases b <;> rfl

@[simp] theorem bit1_watermarks_word (w : Watermarks) : bit1 w.word = w.rxwm := by
  obtain ⟨a, b⟩ := w
  cases a <;> cases b <;> rfl

@[simp] theorem watermarks_ofWord_word (w : Watermarks) : Watermarks.ofWord w.word = w := by
  simp [Watermarks.ofWord]

/-- The fields of an assembled txctrl value are the assembled fields (rules R81, R82). -/
@[simp] theorem txctrl_ofWord_word (r : Txctrl) : Txctrl.ofWord r.word = r := by
  obtain ⟨a, b, c⟩ := r
  revert a b c
  decide

/-- The fields of an assembled rxctrl value are the assembled fields (rules R81, R82). -/
@[simp] theorem rxctrl_ofWord_word (r : Rxctrl) : Rxctrl.ofWord r.word = r := by
  obtain ⟨a, c⟩ := r
  revert a c
  decide

/-- An assembled txctrl value has no reserved bit set (rule R29). -/
@[simp] theorem txctrl_word_not_reserved (r : Txctrl) : Reg.txctrl.reservedSet r.word = false := by
  obtain ⟨a, b, c⟩ := r
  revert a b c
  decide

/-- An assembled ie value has no reserved bit set (rule R29). -/
@[simp] theorem watermarks_word_not_reserved (w : Watermarks) : Reg.ie.reservedSet w.word = false := by
  obtain ⟨a, b⟩ := w
  cases a <;> cases b <;> rfl

/-- A byte as a txdata value has no reserved bit set (rule R82). -/
@[simp] theorem byte_not_reserved (b : Byte) : Reg.txdata.reservedSet (b.setWidth 32) = false := by
  revert b
  decide

/-- The data field of a byte as a txdata value is the byte (rules R81, R82). -/
@[simp] theorem dataField_byte (b : Byte) : dataField (b.setWidth 32) = b := by
  revert b
  decide

/-- Clearing bit 0 of an assembled txctrl value clears txen and nothing else (rule R186). -/
@[simp] theorem clearBit0_txctrl_word (r : Txctrl) : clearBit0 r.word = Txctrl.word { r with txen := false } := by
  obtain ⟨a, b, c⟩ := r
  revert a b c
  decide

/-- Clearing bit 0 of an assembled ie value clears the transmit-watermark enable and nothing else (rule R186). -/
@[simp] theorem clearBit0_watermarks_word (w : Watermarks) :
    clearBit0 w.word = Watermarks.word { w with txwm := false } := by
  obtain ⟨a, b⟩ := w
  cases a <;> cases b <;> rfl

/-- A value with bit 0 cleared has bit 0 clear. -/
@[simp] theorem bit0_clearBit0 (v : Word) : bit0 (clearBit0 v) = false := by
  simp [bit0, clearBit0, withField]

/-- Clearing bit 0 is a mask (rules R72, R186). -/
theorem clearBit0_eq (v : Word) : clearBit0 v = v &&& 0xFFFFFFFE#32 := by
  have h : ~~~((BitVec.allOnes 1).setWidth 32 <<< 0) = 0xFFFFFFFE#32 := by decide
  simp only [clearBit0, withField, h]
  simp

/-- Clearing bit 0 sets no reserved bit (rules R29, R186). -/
theorem clearBit0_not_reserved {r : Reg} {v : Word} (h : r.reservedSet v = false) :
    r.reservedSet (clearBit0 v) = false := by
  simp only [Reg.reservedSet, bne_eq_false_iff_eq] at h ⊢
  rw [clearBit0_eq, BitVec.and_assoc, BitVec.and_comm 0xFFFFFFFE#32, ← BitVec.and_assoc, h]
  simp

/-- The fields of a txctrl value written back with bit 0 cleared (rules R81, R186). -/
theorem txctrl_ofWord_clearBit0 (v : Word) :
    Txctrl.ofWord (clearBit0 v) = ⟨false, v.getLsbD 1, v.extractLsb' 16 3⟩ := by
  have h : (v &&& 0xFFFFFFFE#32).extractLsb' 16 3 = v.extractLsb' 16 3 := by
    rw [BitVec.extractLsb'_and, show (0xFFFFFFFE#32).extractLsb' 16 3 = BitVec.allOnes 3 by decide,
      BitVec.and_allOnes]
  simp [Txctrl.ofWord, bit0, bit1, cntField, clearBit0_eq, h]

/-- The fields of an ie value written back with bit 0 cleared (rules R81, R186). -/
theorem watermarks_ofWord_clearBit0 (v : Word) : Watermarks.ofWord (clearBit0 v) = ⟨false, v.getLsbD 1⟩ := by
  simp [Watermarks.ofWord, bit0, bit1, clearBit0_eq]

/-! ## Assembled values, bit by bit -/

theorem dataWord_eq (f : Bool) (b : Byte) :
    dataWord f b = (if f = true then 0x80000000#32 else 0#32) ||| b.setWidth 32 := by
  cases f <;> rfl

theorem Txctrl.word_eq (r : Txctrl) : r.word = r.txcnt.setWidth 32 <<< 16 |||
    (if r.nstop = true then 2#32 else 0#32) ||| (if r.txen = true then 1#32 else 0#32) := by
  obtain ⟨a, b, c⟩ := r
  cases a <;> cases b <;> rfl

theorem Rxctrl.word_eq (r : Rxctrl) :
    r.word = r.rxcnt.setWidth 32 <<< 16 ||| (if r.rxen = true then 1#32 else 0#32) := by
  obtain ⟨a, c⟩ := r
  cases a <;> rfl

theorem Watermarks.word_eq (w : Watermarks) : w.word =
    (if w.rxwm = true then 2#32 else 0#32) ||| (if w.txwm = true then 1#32 else 0#32) := by
  obtain ⟨a, b⟩ := w
  cases a <;> cases b <;> rfl

/-! ## Reserved bits (rule R29) -/

/-- A field of a word is zero exactly when the word masked to the field is. -/
theorem and_field_eq_zero (v : Word) (lo w : Nat) (h : lo + w ≤ 32) :
    v &&& ((BitVec.allOnes w).setWidth 32 <<< lo) = 0#32 ↔ v.extractLsb' lo w = 0#w := by
  constructor
  · intro e
    ext i hi
    have := congrArg (fun x => x.getLsbD (lo + i)) e
    simp at this ⊢
    have := mt (fun a => this a (by omega)) (by omega)
    simpa using this
  · intro e
    ext i hi
    by_cases c : lo ≤ i ∧ i < lo + w
    · have := congrArg (fun x => x.getLsbD (i - lo)) e
      have h1 : lo + (i - lo) = i := by omega
      simp [h1, show i - lo < w by omega] at this
      simp [← BitVec.getLsbD_eq_getElem, this]
    · simp [← BitVec.getLsbD_eq_getElem]
      intro a b d
      omega

/-- Two fields of a word are zero exactly when the word masked to both is. -/
theorem and_fields_eq_zero (v m : Word) (a b c d : Nat) (h : a + b ≤ 32) (h' : c + d ≤ 32)
    (hm : m = ((BitVec.allOnes b).setWidth 32 <<< a) ||| ((BitVec.allOnes d).setWidth 32 <<< c)) :
    v &&& m = 0#32 ↔ v.extractLsb' a b = 0#b ∧ v.extractLsb' c d = 0#d := by
  rw [hm, BitVec.and_or_distrib_left, BitVec.or_eq_zero_iff, and_field_eq_zero _ _ _ h, and_field_eq_zero _ _ _ h']

theorem reservedSet_eq_false (r : Reg) (v : Word) : r.reservedSet v = false ↔ v &&& r.reserved = 0#32 := by
  simp [Reg.reservedSet]

theorem txdata_reserved (v : Word) : Reg.txdata.reservedSet v = false ↔ v.extractLsb' 8 23 = 0#23 := by
  rw [reservedSet_eq_false, ← and_field_eq_zero v 8 23 (by omega)]
  rfl

theorem txctrl_reserved (v : Word) :
    Reg.txctrl.reservedSet v = false ↔ v.extractLsb' 19 13 = 0#13 ∧ v.extractLsb' 2 14 = 0#14 := by
  rw [reservedSet_eq_false, ← and_fields_eq_zero v _ 19 13 2 14 (by omega) (by omega) rfl]
  rfl

theorem rxctrl_reserved (v : Word) :
    Reg.rxctrl.reservedSet v = false ↔ v.extractLsb' 19 13 = 0#13 ∧ v.extractLsb' 1 15 = 0#15 := by
  rw [reservedSet_eq_false, ← and_fields_eq_zero v _ 19 13 1 15 (by omega) (by omega) rfl]
  rfl

theorem ie_reserved (v : Word) : Reg.ie.reservedSet v = false ↔ v.extractLsb' 2 30 = 0#30 := by
  rw [reservedSet_eq_false, ← and_field_eq_zero v 2 30 (by omega)]
  rfl

theorem div_reserved (v : Word) : Reg.div.reservedSet v = false ↔ v.toNat ≤ 0xFFFF := by
  have : Reg.div.reservedSet v = false ↔ v.extractLsb' 16 16 = 0#16 := by
    rw [reservedSet_eq_false, ← and_field_eq_zero v 16 16 (by omega)]
    rfl
  rw [this, ← BitVec.toNat_inj]
  simp [BitVec.extractLsb', Nat.shiftRight_eq_div_pow]
  have := v.isLt
  omega

end Sys2Proof.Machine
end

