-- ==== Sys2Proof/Laws/Decode.lean ====
section
/-! SUPPORT. The laws of the decoder's parts (rules R84 to R88, R232): each operand reader on the operand its writer makes,
and the check of a whole program entry by entry. -/

namespace Sys2Proof

@[simp] theorem word?_num (v : Word) : (Operand.num v.toNat).word? = some v := by
  have := v.isLt
  simp [Operand.word?, this]

@[simp] theorem parity?_code (p : Parity) : (Operand.num p.code).parity? = some p := by
  cases p <;> rfl

@[simp] theorem bool?_toNat (b : Bool) : (Operand.num b.toNat).bool? = some b := by
  cases b <;> rfl

@[simp] theorem stop?_code (p : StopBits) : (Operand.num p.code).stop? = some p := by
  cases p <;> rfl

@[simp] theorem bytesOf_toNat (l : List Byte) : bytesOf (l.map BitVec.toNat) = some l := by
  induction l with
  | nil => rfl
  | cons b rest ih =>
    have := b.isLt
    simp [bytesOf, ih, this]

/-- A `u32` operand is a number below 2^32, and its value is that number (rule R87). -/
theorem word?_eq_some {a : Operand} {v : Word} (h : a.word? = some v) : a = .num v.toNat := by
  cases a <;> simp only [Operand.word?] at h
  case num n =>
    split at h
    · cases h
      simp only [BitVec.toNat_ofNat]
      congr
      omega
    · cases h
  all_goals cases h

/-- The bytes of a list of numbers are those numbers (rule R87). -/
theorem bytesOf_eq_some : ∀ {l : List Nat} {bs : List Byte}, bytesOf l = some bs → l = bs.map BitVec.toNat
  | [], bs, h => by
    cases h
    rfl
  | n :: rest, bs, h => by
    unfold bytesOf at h
    split at h
    · obtain ⟨r, hr, rfl⟩ := Option.map_eq_some_iff.mp h
      simp only [List.map_cons, BitVec.toNat_ofNat, ← bytesOf_eq_some hr]
      congr
      omega
    · cases h

/-- A Parity operand is its number (rule R87). -/
theorem parity?_eq_some {a : Operand} {p : Parity} (h : a.parity? = some p) : a = .num p.code := by
  unfold Operand.parity? at h
  split at h <;> cases h <;> rfl

/-- A Bool operand is its number (rule R87). -/
theorem bool?_eq_some {a : Operand} {p : Bool} (h : a.bool? = some p) : a = .num p.toNat := by
  unfold Operand.bool? at h
  split at h <;> cases h <;> rfl

/-- A StopBits operand is its number (rule R87). -/
theorem stop?_eq_some {a : Operand} {p : StopBits} (h : a.stop? = some p) : a = .num p.code := by
  unfold Operand.stop? at h
  split at h <;> cases h <;> rfl

/-- A Buffer operand is a buffer (rule R87). -/
theorem buffer?_eq_some {a : Operand} {p : Buffer} (h : a.buffer? = some p) : a = .buffer p := by
  unfold Operand.buffer? at h
  split at h
  · cases h
    rfl
  · cases h

/-- A ClientId operand is a client (rule R87). -/
theorem client?_eq_some {a : Operand} {p : ClientId} (h : a.client? = some p) : a = .client p := by
  unfold Operand.client? at h
  split at h
  · cases h
    rfl
  · cases h

/-- A list of bytes operand is the numbers of its bytes (rule R87). -/
theorem bytes?_eq_some {a : Operand} {p : List Byte} (h : a.bytes? = some p) : a = .bytes (p.map BitVec.toNat) := by
  unfold Operand.bytes? at h
  split at h
  · rw [bytesOf_eq_some h]
  · cases h

/-- The check of a program's entries passes exactly when every entry passes (rule R232). -/
theorem refusalFrom_eq_none {bufs : List Buffer} :
    ∀ {l : List Entry} {k : Nat}, refusalFrom bufs k l = none ↔ ∀ e ∈ l, e.refusal bufs = none
  | [], k => by simp [refusalFrom]
  | e :: rest, k => by
    unfold refusalFrom
    cases h : e.refusal bufs with
    | some r => simp [h]
    | none => simp [h, refusalFrom_eq_none (l := rest)]

/-- A program is admitted exactly when every entry is (rule R232). -/
theorem Program.refusal_eq_none {p : Program} : p.refusal = none ↔ ∀ e ∈ p.ops, e.refusal p.bufs = none :=
  refusalFrom_eq_none

/-- An admitted entry decodes, and an operation it decodes to may stand in the program (rules R88, R232). -/
theorem Entry.refusal_eq_none {bufs : List Buffer} {e : Entry} (h : e.refusal bufs = none) :
    ∃ f, decode e = .ok f ∧ ∀ i, f = .op i → i.WellFormed bufs := by
  unfold Entry.refusal at h
  cases hd : decode e with
  | error r => rw [hd] at h; cases h
  | ok f =>
    refine ⟨f, rfl, ?_⟩
    rintro i rfl
    rw [hd] at h
    exact h

end Sys2Proof
end

