-- ==== Sys2Proof/Laws/Flags.lean ====
section
/-! SUPPORT. Each flag of Machine/Flags.lean as a proposition over the FIFOs and the stored registers (rules R27, R32 to
R35), and the values that show them. -/

namespace Sys2Proof.Machine

/-- `full` (rule R34). -/
theorem State.full_iff (s : State) : s.full = true ↔ s.hw.txfifo.length = s.params.txDepth := decide_eq_true_iff

/-- `empty` (rule R35). -/
theorem State.rxEmpty_iff (s : State) : s.rxEmpty = true ↔ s.hw.rxfifo = [] := by
  simp [State.rxEmpty, State.occRx]

/-- `txwm_cond` with the decided rule (rules R8, R32). -/
theorem State.txwmCond_iff (s : State) : s.txwmCond = true ↔ s.hw.txfifo.length < s.hw.txctrl.txcnt.toNat :=
  decide_eq_true_iff

/-- `rxwm_cond` with the decided rule (rules R8, R32). -/
theorem State.rxwmCond_iff (s : State) : s.rxwmCond = true ↔ s.hw.rxctrl.rxcnt.toNat < s.hw.rxfifo.length :=
  decide_eq_true_iff

/-- Bit 0 of ip (rule R27). -/
theorem State.ip_txwm_iff (s : State) : s.ip.txwm = true ↔
    s.hw.txfifo.length < s.hw.txctrl.txcnt.toNat ∧ (s.params.ipRaw = true ∨ s.hw.ie.txwm = true) := by
  simp [State.ip, State.txwmCond_iff]

/-- Bit 1 of ip (rule R27). -/
theorem State.ip_rxwm_iff (s : State) : s.ip.rxwm = true ↔
    s.hw.rxctrl.rxcnt.toNat < s.hw.rxfifo.length ∧ (s.params.ipRaw = true ∨ s.hw.ie.rxwm = true) := by
  simp [State.ip, State.rxwmCond_iff]

/-- The value of a txdata read (rule R102). -/
theorem State.dataWord_full (s : State) (b : Byte) : dataWord s.full b =
    (if s.hw.txfifo.length = s.params.txDepth then 0x80000000#32 else 0#32) ||| b.setWidth 32 := by
  simp only [dataWord_eq, State.full_iff]

/-- The value of an ip read (rules R27, R111). -/
theorem State.ip_word (s : State) : s.ip.word =
    (if s.hw.rxctrl.rxcnt.toNat < s.hw.rxfifo.length ∧ (s.params.ipRaw = true ∨ s.hw.ie.rxwm = true)
      then 2#32 else 0#32) |||
    (if s.hw.txfifo.length < s.hw.txctrl.txcnt.toNat ∧ (s.params.ipRaw = true ∨ s.hw.ie.txwm = true)
      then 1#32 else 0#32) := by
  simp only [Watermarks.word_eq, State.ip_txwm_iff, State.ip_rxwm_iff]

end Sys2Proof.Machine
end

