-- ==== Sys2Proof/Laws/State.lean ====
section
/-! SUPPORT. One lemma per field per update of the state (Machine/Ops.lean): what each update writes, and that it leaves
the other fields alone. -/

namespace Sys2Proof.Machine

variable (s : State)

/-! ### emit -/

@[simp] theorem State.emit_hw (e : Event) : (s.emit e).hw = s.hw := rfl
@[simp] theorem State.emit_drv (e : Event) : (s.emit e).drv = s.drv := rfl
@[simp] theorem State.emit_fg (e : Event) : (s.emit e).fg = s.fg := rfl
@[simp] theorem State.emit_hs (e : Event) : (s.emit e).hs = s.hs := rfl
@[simp] theorem State.emit_trace (e : Event) : (s.emit e).trace = s.trace ++ [e] := rfl
@[simp] theorem State.emit_fault (e : Event) : (s.emit e).fault = s.fault := rfl
@[simp] theorem State.emit_program (e : Event) : (s.emit e).program = s.program := rfl
@[simp] theorem State.emit_params (e : Event) : (s.emit e).params = s.params := rfl
@[simp] theorem State.emit_schedule (e : Event) : (s.emit e).schedule = s.schedule := rfl
@[simp] theorem State.emit_draws (e : Event) : (s.emit e).draws = s.draws := rfl

/-! ### raise -/

@[simp] theorem State.raise_hw (r : FaultReason) (c : Ctx) (m : MicroStep) : (s.raise r c m).hw = s.hw := rfl
@[simp] theorem State.raise_drv (r : FaultReason) (c : Ctx) (m : MicroStep) : (s.raise r c m).drv = s.drv := rfl
@[simp] theorem State.raise_fg (r : FaultReason) (c : Ctx) (m : MicroStep) : (s.raise r c m).fg = s.fg := rfl
@[simp] theorem State.raise_hs (r : FaultReason) (c : Ctx) (m : MicroStep) : (s.raise r c m).hs = s.hs := rfl
@[simp] theorem State.raise_trace (r : FaultReason) (c : Ctx) (m : MicroStep) : (s.raise r c m).trace = s.trace := rfl
@[simp] theorem State.raise_fault (r : FaultReason) (c : Ctx) (m : MicroStep) : (s.raise r c m).fault = some ⟨r, c, s.fg.k, m⟩ := rfl
@[simp] theorem State.raise_program (r : FaultReason) (c : Ctx) (m : MicroStep) : (s.raise r c m).program = s.program := rfl
@[simp] theorem State.raise_params (r : FaultReason) (c : Ctx) (m : MicroStep) : (s.raise r c m).params = s.params := rfl
@[simp] theorem State.raise_schedule (r : FaultReason) (c : Ctx) (m : MicroStep) : (s.raise r c m).schedule = s.schedule := rfl
@[simp] theorem State.raise_draws (r : FaultReason) (c : Ctx) (m : MicroStep) : (s.raise r c m).draws = s.draws := rfl

/-! ### setHw -/

@[simp] theorem State.setHw_hw (h : Hw) : (s.setHw h).hw = h := rfl
@[simp] theorem State.setHw_drv (h : Hw) : (s.setHw h).drv = s.drv := rfl
@[simp] theorem State.setHw_fg (h : Hw) : (s.setHw h).fg = s.fg := rfl
@[simp] theorem State.setHw_hs (h : Hw) : (s.setHw h).hs = s.hs := rfl
@[simp] theorem State.setHw_trace (h : Hw) : (s.setHw h).trace = s.trace := rfl
@[simp] theorem State.setHw_fault (h : Hw) : (s.setHw h).fault = s.fault := rfl
@[simp] theorem State.setHw_program (h : Hw) : (s.setHw h).program = s.program := rfl
@[simp] theorem State.setHw_params (h : Hw) : (s.setHw h).params = s.params := rfl
@[simp] theorem State.setHw_schedule (h : Hw) : (s.setHw h).schedule = s.schedule := rfl
@[simp] theorem State.setHw_draws (h : Hw) : (s.setHw h).draws = s.draws := rfl

/-! ### setDrv -/

@[simp] theorem State.setDrv_hw (d : Drv) : (s.setDrv d).hw = s.hw := rfl
@[simp] theorem State.setDrv_drv (d : Drv) : (s.setDrv d).drv = d := rfl
@[simp] theorem State.setDrv_fg (d : Drv) : (s.setDrv d).fg = s.fg := rfl
@[simp] theorem State.setDrv_hs (d : Drv) : (s.setDrv d).hs = s.hs := rfl
@[simp] theorem State.setDrv_trace (d : Drv) : (s.setDrv d).trace = s.trace := rfl
@[simp] theorem State.setDrv_fault (d : Drv) : (s.setDrv d).fault = s.fault := rfl
@[simp] theorem State.setDrv_program (d : Drv) : (s.setDrv d).program = s.program := rfl
@[simp] theorem State.setDrv_params (d : Drv) : (s.setDrv d).params = s.params := rfl
@[simp] theorem State.setDrv_schedule (d : Drv) : (s.setDrv d).schedule = s.schedule := rfl
@[simp] theorem State.setDrv_draws (d : Drv) : (s.setDrv d).draws = s.draws := rfl

/-! ### drew -/

@[simp] theorem State.drew_hw : s.drew.hw = s.hw := rfl
@[simp] theorem State.drew_drv : s.drew.drv = s.drv := rfl
@[simp] theorem State.drew_fg : s.drew.fg = s.fg := rfl
@[simp] theorem State.drew_hs : s.drew.hs = s.hs := rfl
@[simp] theorem State.drew_trace : s.drew.trace = s.trace := rfl
@[simp] theorem State.drew_fault : s.drew.fault = s.fault := rfl
@[simp] theorem State.drew_program : s.drew.program = s.program := rfl
@[simp] theorem State.drew_params : s.drew.params = s.params := rfl
@[simp] theorem State.drew_schedule : s.drew.schedule = s.schedule := rfl
@[simp] theorem State.drew_draws : s.drew.draws = s.draws + 1 := rfl

/-! ### goto -/

@[simp] theorem State.goto_hw (l : FgLabel) (loc : FgLocals) : (s.goto l loc).hw = s.hw := rfl
@[simp] theorem State.goto_drv (l : FgLabel) (loc : FgLocals) : (s.goto l loc).drv = s.drv := rfl
@[simp] theorem State.goto_fg (l : FgLabel) (loc : FgLocals) : (s.goto l loc).fg = ⟨s.fg.k, l, loc⟩ := rfl
@[simp] theorem State.goto_hs (l : FgLabel) (loc : FgLocals) : (s.goto l loc).hs = s.hs := rfl
@[simp] theorem State.goto_trace (l : FgLabel) (loc : FgLocals) : (s.goto l loc).trace = s.trace := rfl
@[simp] theorem State.goto_fault (l : FgLabel) (loc : FgLocals) : (s.goto l loc).fault = s.fault := rfl
@[simp] theorem State.goto_program (l : FgLabel) (loc : FgLocals) : (s.goto l loc).program = s.program := rfl
@[simp] theorem State.goto_params (l : FgLabel) (loc : FgLocals) : (s.goto l loc).params = s.params := rfl
@[simp] theorem State.goto_schedule (l : FgLabel) (loc : FgLocals) : (s.goto l loc).schedule = s.schedule := rfl
@[simp] theorem State.goto_draws (l : FgLabel) (loc : FgLocals) : (s.goto l loc).draws = s.draws := rfl

/-! ### ret -/

@[simp] theorem State.ret_hw (r : RetVal) : (s.ret r).hw = s.hw := rfl
@[simp] theorem State.ret_drv (r : RetVal) : (s.ret r).drv = s.drv := rfl
@[simp] theorem State.ret_fg (r : RetVal) : (s.ret r).fg = ⟨s.fg.k + 1, .start, .empty⟩ := rfl
@[simp] theorem State.ret_hs (r : RetVal) : (s.ret r).hs = s.hs := rfl
@[simp] theorem State.ret_trace (r : RetVal) : (s.ret r).trace = s.trace ++ [.ret s.fg.k r] := rfl
@[simp] theorem State.ret_fault (r : RetVal) : (s.ret r).fault = s.fault := rfl
@[simp] theorem State.ret_program (r : RetVal) : (s.ret r).program = s.program := rfl
@[simp] theorem State.ret_params (r : RetVal) : (s.ret r).params = s.params := rfl
@[simp] theorem State.ret_schedule (r : RetVal) : (s.ret r).schedule = s.schedule := rfl
@[simp] theorem State.ret_draws (r : RetVal) : (s.ret r).draws = s.draws := rfl

/-! ### takeInterrupt -/

@[simp] theorem State.takeInterrupt_hw : s.takeInterrupt.hw = s.hw := rfl
@[simp] theorem State.takeInterrupt_drv : s.takeInterrupt.drv = s.drv := rfl
@[simp] theorem State.takeInterrupt_fg : s.takeInterrupt.fg = s.fg := rfl
@[simp] theorem State.takeInterrupt_hs : s.takeInterrupt.hs = some ⟨.h0, .empty⟩ := rfl
@[simp] theorem State.takeInterrupt_trace : s.takeInterrupt.trace = s.trace ++ [.dispatch (!s.irq)] := rfl
@[simp] theorem State.takeInterrupt_fault : s.takeInterrupt.fault = s.fault := rfl
@[simp] theorem State.takeInterrupt_program : s.takeInterrupt.program = s.program := rfl
@[simp] theorem State.takeInterrupt_params : s.takeInterrupt.params = s.params := rfl
@[simp] theorem State.takeInterrupt_schedule : s.takeInterrupt.schedule = s.schedule := rfl
@[simp] theorem State.takeInterrupt_draws : s.takeInterrupt.draws = s.draws := rfl

/-! ### handlerReturn -/

@[simp] theorem State.handlerReturn_hw : s.handlerReturn.hw = s.hw := rfl
@[simp] theorem State.handlerReturn_drv : s.handlerReturn.drv = s.drv := rfl
@[simp] theorem State.handlerReturn_fg : s.handlerReturn.fg = s.fg := rfl
@[simp] theorem State.handlerReturn_hs : s.handlerReturn.hs = none := rfl
@[simp] theorem State.handlerReturn_trace : s.handlerReturn.trace = s.trace := rfl
@[simp] theorem State.handlerReturn_fault : s.handlerReturn.fault = s.fault := rfl
@[simp] theorem State.handlerReturn_program : s.handlerReturn.program = s.program := rfl
@[simp] theorem State.handlerReturn_params : s.handlerReturn.params = s.params := rfl
@[simp] theorem State.handlerReturn_schedule : s.handlerReturn.schedule = s.schedule := rfl
@[simp] theorem State.handlerReturn_draws : s.handlerReturn.draws = s.draws := rfl

/-! ### hgoto -/

@[simp] theorem State.hgoto_hw (l : HsLabel) (loc : HsLocals) : (s.hgoto l loc).hw = s.hw := rfl
@[simp] theorem State.hgoto_drv (l : HsLabel) (loc : HsLocals) : (s.hgoto l loc).drv = s.drv := rfl
@[simp] theorem State.hgoto_fg (l : HsLabel) (loc : HsLocals) : (s.hgoto l loc).fg = s.fg := rfl
@[simp] theorem State.hgoto_hs (l : HsLabel) (loc : HsLocals) : (s.hgoto l loc).hs = some ⟨l, loc⟩ := rfl
@[simp] theorem State.hgoto_trace (l : HsLabel) (loc : HsLocals) : (s.hgoto l loc).trace = s.trace := rfl
@[simp] theorem State.hgoto_fault (l : HsLabel) (loc : HsLocals) : (s.hgoto l loc).fault = s.fault := rfl
@[simp] theorem State.hgoto_program (l : HsLabel) (loc : HsLocals) : (s.hgoto l loc).program = s.program := rfl
@[simp] theorem State.hgoto_params (l : HsLabel) (loc : HsLocals) : (s.hgoto l loc).params = s.params := rfl
@[simp] theorem State.hgoto_schedule (l : HsLabel) (loc : HsLocals) : (s.hgoto l loc).schedule = s.schedule := rfl
@[simp] theorem State.hgoto_draws (l : HsLabel) (loc : HsLocals) : (s.hgoto l loc).draws = s.draws := rfl

end Sys2Proof.Machine
end

