-- ==== Sys2Proof/Laws/Ops.lean ====
section
/-! SUPPORT. One lemma per shared operation of Machine/Ops.lean that says everything it can do; callers cite these instead
of unfolding. -/

namespace Sys2Proof.Machine

/-! ## Addresses -/

@[simp] theorem ofOffset?_offset (r : Reg) : Reg.ofOffset? r.offset = some r := by
  cases r <;> rfl

/-- An offset names a register exactly when it is that register's offset (rule R61). -/
theorem ofOffset?_eq_some {n : Nat} {r : Reg} (h : Reg.ofOffset? n = some r) : n = r.offset := by
  unfold Reg.ofOffset? at h
  split at h <;> simp at h <;> subst h <;> rfl

/-- `REG(r)` reaches `r` with a 4-byte access (rules R12, R64). -/
@[simp] theorem State.regAt?_reg (s : State) (r : Reg) : s.regAt? (s.reg r) 4 = some r := by
  simp [State.regAt?, State.reg]

/-- A 4-byte access at `UART_BASE + n` reaches what the offset `n` names (rule R64). -/
@[simp] theorem State.regAt?_base_add (s : State) (n : Nat) : s.regAt? (s.drv.base + n) 4 = Reg.ofOffset? n := by
  simp [State.regAt?]

/-- An access that reaches a register is a 4-byte access at its address (rules R63, R64). -/
theorem State.regAt?_eq_some {s : State} {addr width : Nat} {r : Reg} (h : s.regAt? addr width = some r) :
    width = 4 ∧ addr = s.reg r := by
  unfold State.regAt? at h
  split at h
  · cases h
  · split at h
    · cases h
    · have := ofOffset?_eq_some h
      exact ⟨by omega, by unfold State.reg; omega⟩

/-! ## Reads and writes of a register -/

/-- What a read does to the state (rules R102 to R113): nothing, one draw, or the head of the receive FIFO goes. -/
theorem State.readReg_cases (s : State) (r : Reg) :
    (s.readReg r).2 = s ∨ (s.readReg r).2 = s.drew ∨
      r = .rxdata ∧ ∃ b rest, s.hw.rxfifo = b :: rest ∧ (s.readReg r).2 = s.setHw { s.hw with rxfifo := rest } := by
  cases r <;> simp only [State.readReg] <;> try simp
  split
  · exact .inr (.inl rfl)
  · next b rest h => exact .inr (.inr ⟨b, rest, h, rfl⟩)

/-- What an enqueue can answer (rule R101). -/
theorem State.enqueue_cases (s : State) (b : Byte) :
    s.occTx < s.params.txDepth ∧ s.enqueue b = .ok (s.setHw { s.hw with txfifo := s.hw.txfifo ++ [b] }) ∨
    s.params.txDepth ≤ s.occTx ∧
      (s.params.txOverflow = .fault ∧ s.enqueue b = .error .txOverflow ∨
        s.params.txOverflow = .drop ∧ s.enqueue b = .ok s) := by
  unfold State.enqueue
  split
  · exact .inl ⟨‹_›, rfl⟩
  · next h => cases hp : s.params.txOverflow <;> simp [Nat.le_of_not_lt h]

/-- A write that does not fault changes nothing but the peripheral (rules R101 to R114). -/
theorem State.writeReg_ok {s t : State} {r : Reg} {v : Word} (h : s.writeReg r v = .ok t) :
    ∃ hw, t = s.setHw hw := by
  cases r <;> simp only [State.writeReg] at h
  case txdata =>
    split at h
    · cases h
    · rcases s.enqueue_cases (dataField v) with ⟨-, e⟩ | ⟨-, ⟨-, e⟩ | ⟨-, e⟩⟩ <;> rw [e] at h <;> cases h
      · exact ⟨_, rfl⟩
      · exact ⟨s.hw, rfl⟩
  case rxdata => cases h
  case ip => cases h
  all_goals
    split at h
    · cases h
    · cases h
      exact ⟨_, rfl⟩

/-- What a write does to the peripheral, register by register (rules R101 to R114). -/
theorem State.writeReg_hw {s t : State} {r : Reg} {v : Word} (h : s.writeReg r v = .ok t) :
    r = .txdata ∧ (t.hw = s.hw ∨
        s.occTx < s.params.txDepth ∧ t.hw = { s.hw with txfifo := s.hw.txfifo ++ [dataField v] }) ∨
      r = .txctrl ∧ t.hw = { s.hw with txctrl := .ofWord v } ∨
      r = .rxctrl ∧ t.hw = { s.hw with rxctrl := .ofWord v } ∨
      r = .ie ∧ t.hw = { s.hw with ie := .ofWord v } ∨
      r = .div ∧ t.hw = { s.hw with div := divField v } := by
  cases r <;> simp only [State.writeReg] at h
  case txdata =>
    split at h
    · cases h
    · rcases s.enqueue_cases (dataField v) with ⟨o, e⟩ | ⟨-, ⟨-, e⟩ | ⟨-, e⟩⟩ <;> rw [e] at h <;> cases h
      · exact .inl ⟨rfl, .inr ⟨o, rfl⟩⟩
      · exact .inl ⟨rfl, .inl rfl⟩
  case rxdata => cases h
  case ip => cases h
  all_goals
    split at h
    · cases h
    · cases h
      simp

/-- The faults a write can raise (rules R29, R101, R104, R112). -/
theorem State.writeReg_error {s : State} {r : Reg} {v : Word} {e : FaultReason} (h : s.writeReg r v = .error e) :
    (r = .rxdata ∨ r = .ip) ∧ e = .readOnlyWrite ∨ r.reservedSet v = true ∧ e = .reservedBitWrite ∨
      r = .txdata ∧ s.params.txDepth ≤ s.occTx ∧ e = .txOverflow := by
  cases r <;> simp only [State.writeReg] at h
  case txdata =>
    split at h
    · cases h
      exact .inr (.inl ⟨‹_›, rfl⟩)
    · rcases s.enqueue_cases (dataField v) with ⟨-, e⟩ | ⟨o, ⟨-, e⟩ | ⟨-, e⟩⟩ <;> rw [e] at h <;> cases h
      exact .inr (.inr ⟨rfl, o, rfl⟩)
  case rxdata =>
    cases h
    exact .inl ⟨.inl rfl, rfl⟩
  case ip =>
    cases h
    exact .inl ⟨.inr rfl, rfl⟩
  all_goals
    split at h
    · cases h
      exact .inr (.inl ⟨‹_›, rfl⟩)
    · cases h

/-! ## Loads and stores of a micro-step -/

/-- A micro-step's read of a register always happens: its value, its effect, its event, and the rest (rule R100). -/
theorem State.load_reg (s : State) (c : Ctx) (m : MicroStep) (r : Reg) (k : Word → State → State) :
    s.load c m (s.reg r) k =
      k (s.readReg r).1 ((s.readReg r).2.emit (.mmio c .read r.offset (s.readReg r).1)) := by
  simp [State.load, State.memRead]

/-- A micro-step's write of a register: the fault, or its effect, its event, and the rest (rule R100). -/
theorem State.store_reg (s : State) (c : Ctx) (m : MicroStep) (r : Reg) (v : Word) (k : State → State) :
    s.store c m (s.reg r) v k =
      match s.writeReg r v with
      | .error e => s.raise e c m
      | .ok t => k (t.emit (.mmio c .write r.offset v)) := by
  simp only [State.store, State.memWrite, State.regAt?_reg]
  cases s.writeReg r v <;> rfl

/-- A load at any address: UnmappedAccess, or the read of a register (rule R100). -/
theorem State.load_cases (s : State) (c : Ctx) (m : MicroStep) (addr : Nat) (k : Word → State → State) :
    s.load c m addr k = s.raise .unmappedAccess c m ∨
      ∃ r, addr = s.reg r ∧ s.load c m addr k =
        k (s.readReg r).1 ((s.readReg r).2.emit (.mmio c .read r.offset (s.readReg r).1)) := by
  cases h : s.regAt? addr 4 with
  | none => exact .inl (by simp [State.load, State.memRead, h])
  | some r =>
    obtain ⟨-, rfl⟩ := State.regAt?_eq_some h
    exact .inr ⟨r, rfl, s.load_reg c m r k⟩

/-- A store at any address: a fault, or the write of a register (rule R100). -/
theorem State.store_cases (s : State) (c : Ctx) (m : MicroStep) (addr : Nat) (v : Word) (k : State → State) :
    (∃ e, s.store c m addr v k = s.raise e c m) ∨
      ∃ r t, addr = s.reg r ∧ s.writeReg r v = .ok t ∧
        s.store c m addr v k = k (t.emit (.mmio c .write r.offset v)) := by
  cases h : s.regAt? addr 4 with
  | none => exact .inl ⟨.unmappedAccess, by simp [State.store, State.memWrite, h]⟩
  | some r =>
    obtain ⟨-, rfl⟩ := State.regAt?_eq_some h
    rw [State.store_reg]
    cases hw : s.writeReg r v with
    | error e => exact .inl ⟨e, rfl⟩
    | ok t => exact .inr ⟨r, t, rfl, hw, rfl⟩

/-! ## Writes the driver performs -/

/-- A write of an assembled txctrl value stores its fields (rules R83, R106). -/
theorem State.writeReg_txctrl_word (s : State) (r : Txctrl) :
    s.writeReg .txctrl r.word = .ok (s.setHw { s.hw with txctrl := r }) := by
  simp [State.writeReg]

/-- A write of an assembled ie value stores its fields (rules R83, R110). -/
theorem State.writeReg_ie_word (s : State) (w : Watermarks) :
    s.writeReg .ie w.word = .ok (s.setHw { s.hw with ie := w }) := by
  simp [State.writeReg]

/-- A write of a byte to txdata enqueues it or does what a full FIFO does (rules R83, R101). -/
theorem State.writeReg_txdata_byte (s : State) (b : Byte) :
    s.writeReg .txdata (b.setWidth 32) = s.enqueue b := by
  simp [State.writeReg]

/-- With room in the FIFO an enqueue appends at the tail (rule R101). -/
theorem State.enqueue_room {s : State} (h : s.hw.txfifo.length < s.params.txDepth) (b : Byte) :
    s.enqueue b = .ok (s.setHw { s.hw with txfifo := s.hw.txfifo ++ [b] }) := by
  simp [State.enqueue, State.occTx, h]

/-- With a full FIFO an enqueue overflows under `TX_OVERFLOW = Fault` (rule R101). -/
theorem State.enqueue_overflow {s : State} (h : s.params.txDepth ≤ s.hw.txfifo.length)
    (ho : s.params.txOverflow = .fault) (b : Byte) : s.enqueue b = .error .txOverflow := by
  simp [State.enqueue, State.occTx, Nat.not_lt.2 h, ho]

/-- With a full FIFO an enqueue loses the byte under `TX_OVERFLOW = Drop` (rule R101). -/
theorem State.enqueue_lost {s : State} (h : s.params.txDepth ≤ s.hw.txfifo.length)
    (ho : s.params.txOverflow = .drop) (b : Byte) : s.enqueue b = .ok s := by
  simp [State.enqueue, State.occTx, Nat.not_lt.2 h, ho]

/-! ## The foreground context -/

/-- An operation of one micro-step answers its state at `Start` and stops at another operation's label (rule R44). -/
theorem State.oneStep_cases (s t : State) :
    s.fg.lbl = .start ∧ s.oneStep t = .next t ∨ s.fg.lbl ≠ .start ∧ s.oneStep t = .fault .wrongLabel := by
  unfold State.oneStep
  split
  · exact .inl ⟨‹_›, rfl⟩
  · exact .inr ⟨‹_›, rfl⟩

@[simp] theorem State.oneStep_start {s : State} (h : s.fg.lbl = .start) (t : State) : s.oneStep t = .next t := by
  simp [State.oneStep, h]

end Sys2Proof.Machine
end

