-- ==== Sys2Proof/Laws/Foreground.lean ====
section
/-! SUPPORT. What each micro-step of configure, transmit_sync and transmit_buffer that accesses a register leaves (rules
R141, R151, R163, R164), with its access, its event and its next label written out. -/

namespace Sys2Proof.Machine

/-! ## configure -/

/-- CF1 with a divisor that fits (rule R141). -/
theorem configureDivisor_eq {s : State} (h : s.fg.loc.d.toNat ≤ 0xFFFF) : configureDivisor s =
    ((s.setHw { s.hw with div := divField s.fg.loc.d }).emit (.mmio .foreground .write 0x18 s.fg.loc.d)).goto
      .cf2 s.fg.loc := by
  have e : s.writeReg .div s.fg.loc.d = .ok (s.setHw { s.hw with div := divField s.fg.loc.d }) := by
    simp [State.writeReg, (div_reserved _).2 h]
  simp only [configureDivisor, State.store_reg, e]
  rfl

/-- What CF1 can be: the write, or the fault of a divisor that does not fit, which CF0 lets no run reach (rules R29,
R141). -/
theorem configureDivisor_cases (s : State) :
    s.fg.loc.d.toNat ≤ 0xFFFF ∧ configureDivisor s =
        ((s.setHw { s.hw with div := divField s.fg.loc.d }).emit (.mmio .foreground .write 0x18 s.fg.loc.d)).goto
          .cf2 s.fg.loc ∨
      configureDivisor s = s.raise .reservedBitWrite .foreground .cf1 := by
  cases hr : Reg.div.reservedSet s.fg.loc.d with
  | false => exact .inl ⟨(div_reserved _).1 hr, configureDivisor_eq ((div_reserved _).1 hr)⟩
  | true => exact .inr (by simp [configureDivisor, State.store_reg, State.writeReg, hr])

/-! ## transmit_sync -/

/-- TS1 (rules R151, R152). -/
theorem syncProgram_eq (bytes : List Byte) (s : State) : syncProgram bytes s =
    ((s.setHw { s.hw with txctrl := ⟨true, false, 1⟩ }).emit (.mmio .foreground .write 0x08 0x00010001#32)).goto
      (if bytes.length = 0 then .ts4 else .ts2) s.fg.loc := by
  have e : s.writeReg .txctrl 0x00010001#32 = .ok (s.setHw { s.hw with txctrl := ⟨true, false, 1⟩ }) :=
    s.writeReg_txctrl_word ⟨true, false, 1⟩
  simp only [syncProgram, State.store_reg, e]
  rfl

/-- TS2 (rule R151). -/
theorem syncPoll_eq (s : State) : syncPoll s =
    (s.drew.emit (.mmio .foreground .read 0x00 (dataWord s.full (Config.drawByte s.draws)))).goto
      (if s.full = true then .ts2 else .ts3) s.fg.loc := by
  simp only [syncPoll, State.load_reg, State.readReg, bit31_dataWord]
  rfl

/-- TS3 with room in the FIFO (rule R151). -/
theorem syncWrite_room {s : State} (h : s.hw.txfifo.length < s.params.txDepth) (bytes : List Byte) (b : Byte) :
    syncWrite bytes b s =
      ((s.setHw { s.hw with txfifo := s.hw.txfifo ++ [b] }).emit (.mmio .foreground .write 0x00 (b.setWidth 32))).goto
        (if s.fg.loc.i + 1 = bytes.length then .ts4 else .ts2) { s.fg.loc with i := s.fg.loc.i + 1 } := by
  simp only [syncWrite, State.store_reg, State.writeReg_txdata_byte, State.enqueue_room h]
  rfl

/-- TS3 on a full FIFO under `TX_OVERFLOW = Fault` (rules R101, R151). -/
theorem syncWrite_overflow {s : State} (h : s.params.txDepth ≤ s.hw.txfifo.length) (ho : s.params.txOverflow = .fault)
    (bytes : List Byte) (b : Byte) : syncWrite bytes b s = s.raise .txOverflow .foreground .ts3 := by
  simp only [syncWrite, State.store_reg, State.writeReg_txdata_byte, State.enqueue_overflow h ho]

/-- TS3 on a full FIFO under `TX_OVERFLOW = Drop` (rules R101, R151). -/
theorem syncWrite_lost {s : State} (h : s.params.txDepth ≤ s.hw.txfifo.length) (ho : s.params.txOverflow = .drop)
    (bytes : List Byte) (b : Byte) : syncWrite bytes b s =
      (s.emit (.mmio .foreground .write 0x00 (b.setWidth 32))).goto
        (if s.fg.loc.i + 1 = bytes.length then .ts4 else .ts2) { s.fg.loc with i := s.fg.loc.i + 1 } := by
  simp only [syncWrite, State.store_reg, State.writeReg_txdata_byte, State.enqueue_lost h ho]
  rfl

/-- What TS3 can be (rules R101, R151). -/
theorem syncWrite_cases (bytes : List Byte) (b : Byte) (s : State) :
    s.hw.txfifo.length < s.params.txDepth ∧ syncWrite bytes b s =
        ((s.setHw { s.hw with txfifo := s.hw.txfifo ++ [b] }).emit (.mmio .foreground .write 0x00 (b.setWidth 32))).goto
          (if s.fg.loc.i + 1 = bytes.length then .ts4 else .ts2) { s.fg.loc with i := s.fg.loc.i + 1 } ∨
      syncWrite bytes b s = s.raise .txOverflow .foreground .ts3 ∨
      syncWrite bytes b s = (s.emit (.mmio .foreground .write 0x00 (b.setWidth 32))).goto
        (if s.fg.loc.i + 1 = bytes.length then .ts4 else .ts2) { s.fg.loc with i := s.fg.loc.i + 1 } := by
  rcases s.enqueue_cases b with ⟨h, -⟩ | ⟨h, ⟨ho, -⟩ | ⟨ho, -⟩⟩
  · exact .inl ⟨h, syncWrite_room h bytes b⟩
  · exact .inr (.inl (syncWrite_overflow h ho bytes b))
  · exact .inr (.inr (syncWrite_lost h ho bytes b))

/-! ## transmit_buffer -/

/-- TB1 (rule R163). -/
theorem bufferEnable_eq (s : State) : bufferEnable s =
    ((s.setHw { s.hw with ie := ⟨true, false⟩ }).emit (.mmio .foreground .write 0x10 0x00000001#32)).goto
      .tb2 s.fg.loc := by
  have e : s.writeReg .ie 0x00000001#32 = .ok (s.setHw { s.hw with ie := ⟨true, false⟩ }) :=
    s.writeReg_ie_word ⟨true, false⟩
  simp only [bufferEnable, State.store_reg, e]
  rfl

/-- The write of the fill with room in the FIFO (rules R163, R164). -/
theorem fillWrite_room {s : State} (h : s.hw.txfifo.length < s.params.txDepth) (m : MicroStep) (b : Byte) (n : FgLabel) :
    fillWrite m b n s =
      ((s.setHw { s.hw with txfifo := s.hw.txfifo ++ [b] }).emit (.mmio .foreground .write 0x00 (b.setWidth 32))).goto
        n s.fg.loc := by
  simp only [fillWrite, State.store_reg, State.writeReg_txdata_byte, State.enqueue_room h]
  rfl

/-- The write of the fill on a full FIFO under `TX_OVERFLOW = Fault` (rules R101, R163, R164, R283). -/
theorem fillWrite_overflow {s : State} (h : s.params.txDepth ≤ s.hw.txfifo.length) (ho : s.params.txOverflow = .fault)
    (m : MicroStep) (b : Byte) (n : FgLabel) : fillWrite m b n s = s.raise .txOverflow .foreground m := by
  simp only [fillWrite, State.store_reg, State.writeReg_txdata_byte, State.enqueue_overflow h ho]

/-- The write of the fill on a full FIFO under `TX_OVERFLOW = Drop` (rules R101, R163, R164, R283). -/
theorem fillWrite_lost {s : State} (h : s.params.txDepth ≤ s.hw.txfifo.length) (ho : s.params.txOverflow = .drop)
    (m : MicroStep) (b : Byte) (n : FgLabel) : fillWrite m b n s =
      (s.emit (.mmio .foreground .write 0x00 (b.setWidth 32))).goto
        n s.fg.loc := by
  simp only [fillWrite, State.store_reg, State.writeReg_txdata_byte, State.enqueue_lost h ho]
  rfl

/-- What the write of the fill can be (rules R101, R163, R164). -/
theorem fillWrite_cases (m : MicroStep) (b : Byte) (n : FgLabel) (s : State) :
    s.hw.txfifo.length < s.params.txDepth ∧ fillWrite m b n s =
        ((s.setHw { s.hw with txfifo := s.hw.txfifo ++ [b] }).emit (.mmio .foreground .write 0x00 (b.setWidth 32))).goto
          n s.fg.loc ∨
      fillWrite m b n s = s.raise .txOverflow .foreground m ∨
      fillWrite m b n s = (s.emit (.mmio .foreground .write 0x00 (b.setWidth 32))).goto n s.fg.loc := by
  rcases s.enqueue_cases b with ⟨h, -⟩ | ⟨h, ⟨ho, -⟩ | ⟨ho, -⟩⟩
  · exact .inl ⟨h, fillWrite_room h m b n⟩
  · exact .inr (.inl (fillWrite_overflow h ho m b n))
  · exact .inr (.inr (fillWrite_lost h ho m b n))

/-- TB4 of `WriteThenCheck` (rule R163). -/
theorem fillCheckAfter_eq (len : Word) (s : State) : fillCheckAfter len s =
    (s.drew.emit (.mmio .foreground .read 0x00 (dataWord s.full (Config.drawByte s.draws)))).goto
      (if s.full = true ∨ s.fg.loc.i + 1 = len.toNat then .tb5 else .tb2)
      { s.fg.loc with i := s.fg.loc.i + 1 } := by
  simp only [fillCheckAfter, State.load_reg, State.readReg, bit31_dataWord, Bool.or_eq_true, decide_eq_true_eq]
  rfl

/-- TB2 of `CheckThenWrite` (rule R164). -/
theorem fillCheckBefore_eq (s : State) : fillCheckBefore s =
    (s.drew.emit (.mmio .foreground .read 0x00 (dataWord s.full (Config.drawByte s.draws)))).goto
      (if s.full = true then .tb5 else .tb3) s.fg.loc := by
  simp only [fillCheckBefore, State.load_reg, State.readReg, bit31_dataWord]
  rfl

/-- The value TB7 writes to txctrl (rules R42, R163, R167). -/
theorem startWord_eq (p : StopBits) :
    Txctrl.word ⟨true, nstopOf p, 1⟩ = if p = .two then 0x00010003#32 else 0x00010001#32 := by
  cases p <;> rfl

/-- TB7 (rules R163, R167). -/
theorem bufferStart_eq (s : State) : bufferStart s =
    ((s.setHw { s.hw with txctrl := ⟨true, nstopOf s.drv.stop, 1⟩ }).emit
      (.mmio .foreground .write 0x08 (Txctrl.word ⟨true, nstopOf s.drv.stop, 1⟩))).goto .tb8 s.fg.loc := by
  simp only [bufferStart, State.store_reg, State.writeReg_txctrl_word]
  rfl

/-! ## What each operation of several micro-steps can answer -/

/-- What CF0 can be (rules R141, R234). -/
theorem configureCheck_cases (baud : Word) (parity : Parity) (flow : Bool) (s : State) :
    configureCheck baud parity flow s = s.ret (.result .unsupportedFeature) ∨
      (∃ r, configureCheck baud parity flow s = s.raise r .foreground .cf0) ∨
      s.drv.busy = false ∧ (s.drv.clock / baud - 1).toNat ≤ 0xFFFF ∧
        configureCheck baud parity flow s = s.goto .cf1 { s.fg.loc with d := s.drv.clock / baud - 1 } := by
  unfold configureCheck
  by_cases h1 : parity ≠ .none
  · rw [if_pos h1]
    exact .inl rfl
  rw [if_neg h1]
  by_cases h2 : flow = true
  · rw [if_pos h2]
    exact .inl rfl
  rw [if_neg h2]
  by_cases h3 : s.drv.busy = true
  · rw [if_pos h3]
    exact .inr (.inl ⟨_, rfl⟩)
  rw [if_neg h3]
  by_cases h4 : baud = 0
  · rw [if_pos h4]
    exact .inr (.inl ⟨_, rfl⟩)
  rw [if_neg h4]
  by_cases h5 : s.drv.clock / baud = 0
  · rw [if_pos h5]
    exact .inr (.inl ⟨_, rfl⟩)
  rw [if_neg h5]
  by_cases h6 : 0xFFFF#32 < s.drv.clock / baud - 1
  · rw [if_pos h6]
    exact .inr (.inl ⟨_, rfl⟩)
  rw [if_neg h6]
  refine .inr (.inr ⟨Bool.eq_false_iff.2 h3, ?_, rfl⟩)
  have := BitVec.not_lt.1 h6
  simpa [BitVec.le_def] using this

/-- What configure can answer: at each of its labels its micro-step, at another's a fault (rules R44, R141). -/
theorem execConfigure_cases {baud : Word} {parity : Parity} {flow : Bool} {stop : StopBits} {s t : State}
    (h : execConfigure baud parity flow stop s = .next t) :
    s.fg.lbl = .start ∧ t = configureCheck baud parity flow s ∨
      s.fg.lbl = .cf1 ∧ t = configureDivisor s ∨ s.fg.lbl = .cf2 ∧ t = configureStop stop s := by
  unfold execConfigure at h
  split at h <;> cases h <;> simp [*]

/-- What transmit_sync can answer (rules R44, R151). -/
theorem execTransmitSync_cases {bytes : List Byte} {s t : State} (h : execTransmitSync bytes s = .next t) :
    s.fg.lbl = .start ∧ t = syncEnter s ∨ s.fg.lbl = .ts1 ∧ t = syncProgram bytes s ∨
      s.fg.lbl = .ts2 ∧ t = syncPoll s ∨
      s.fg.lbl = .ts3 ∧ (∃ b, bytes[s.fg.loc.i]? = some b ∧ t = syncWrite bytes b s) ∨
      s.fg.lbl = .ts4 ∧ t = s.ret .none := by
  unfold execTransmitSync at h
  split at h
  case h_4 =>
    split at h
    · cases h
      exact .inr (.inr (.inr (.inl ⟨‹_›, _, ‹_›, rfl⟩)))
    · cases h
  all_goals cases h <;> simp [*]

/-- What transmit_buffer can answer (rules R44, R163, R164). -/
theorem execTransmitBuffer_cases {buf : Buffer} {len : Word} {s t : State}
    (h : execTransmitBuffer buf len s = .next t) :
    s.fg.lbl = .start ∧ t = bufferEnter buf len s ∨ s.fg.lbl = .tb1 ∧ t = bufferEnable s ∨
      s.params.fillOrder = .writeThenCheck ∧
        (s.fg.lbl = .tb2 ∧ (∃ b, byteAt? s.fg.loc.buf s.fg.loc.i = some b ∧ t = fillWrite .tb2 b .tb3 s) ∨
          s.fg.lbl = .tb3 ∧ t = (fillCursor s).goto .tb4 s.fg.loc ∨ s.fg.lbl = .tb4 ∧ t = fillCheckAfter len s) ∨
      s.params.fillOrder = .checkThenWrite ∧
        (s.fg.lbl = .tb2 ∧ t = fillCheckBefore s ∨
          s.fg.lbl = .tb3 ∧ (∃ b, byteAt? s.fg.loc.buf s.fg.loc.i = some b ∧ t = fillWrite .tb3 b .tb4 s) ∨
          s.fg.lbl = .tb4 ∧ t = fillAdvance len s) ∨
      s.fg.lbl = .tb5 ∧ t = bufferPut s ∨ s.fg.lbl = .tb6 ∧ t = bufferLength len s ∨
      s.fg.lbl = .tb7 ∧ t = bufferStart s ∨ s.fg.lbl = .tb8 ∧ t = s.ret (.resultBuffer .success none) := by
  have fill : ∀ {m n}, fillStep m n s = .next t →
      ∃ b, byteAt? s.fg.loc.buf s.fg.loc.i = some b ∧ t = fillWrite m b n s := by
    intro m n hf
    unfold fillStep at hf
    split at hf
    · cases hf
      exact ⟨_, ‹_›, rfl⟩
    · cases hf
  unfold execTransmitBuffer at h
  split at h
  case h_3 hl =>
    split at h
    · exact .inr (.inr (.inl ⟨‹_›, .inl ⟨hl, fill h⟩⟩))
    · cases h
      exact .inr (.inr (.inr (.inl ⟨‹_›, .inl ⟨hl, rfl⟩⟩)))
  case h_4 hl =>
    split at h
    · cases h
      exact .inr (.inr (.inl ⟨‹_›, .inr (.inl ⟨hl, rfl⟩)⟩))
    · exact .inr (.inr (.inr (.inl ⟨‹_›, .inr (.inl ⟨hl, fill h⟩)⟩)))
  case h_5 hl =>
    split at h
    · cases h
      exact .inr (.inr (.inl ⟨‹_›, .inr (.inr ⟨hl, rfl⟩)⟩))
    · cases h
      exact .inr (.inr (.inr (.inl ⟨‹_›, .inr (.inr ⟨hl, rfl⟩)⟩)))
  all_goals cases h <;> simp [*]

/-- What an operation of one micro-step can answer (rule R44). -/
theorem oneStep_eq_next {s t u : State} (h : s.oneStep u = .next t) : s.fg.lbl = .start ∧ t = u := by
  rcases s.oneStep_cases u with ⟨hl, e⟩ | ⟨-, e⟩ <;> rw [e] at h <;> cases h
  exact ⟨hl, rfl⟩

end Sys2Proof.Machine
end

