-- ==== Sys2Proof/Laws/Handler.lean ====
section
/-! SUPPORT. What each micro-step of handle_interrupt that accesses a register leaves (rules R181, R186, R187), with its
access, its event and its next label written out. -/

namespace Sys2Proof.Machine

/-- While the handler runs, handle_interrupt is its next micro-step (rule R181). -/
theorem exec_handleInterrupt {s : State} {lbl : HsLabel} {l : HsLocals} (h : s.hs = some ⟨lbl, l⟩) :
    exec .handleInterrupt s = .next (handlerStep lbl l s) := by
  simp [exec, execHandleInterrupt, h]

/-- H0 (rules R181, R182). -/
theorem handlerSnapshot_eq (l : HsLocals) (s : State) : handlerSnapshot l s =
    if s.ip.txwm = true then
      (s.emit (.mmio .handler .read 0x14 s.ip.word)).hgoto .h1 { l with s := s.ip.word }
    else (s.emit (.mmio .handler .read 0x14 s.ip.word)).handlerReturn := by
  simp only [handlerSnapshot, State.load_reg, State.readReg, bit0_watermarks_word]
  rfl

/-- H2 (rule R184). -/
theorem handlerWrite_txctrl_zero (m : MicroStep) (n : HsLabel) (l : HsLocals) (s : State) :
    handlerWrite m .txctrl 0#32 n l s =
      ((s.setHw { s.hw with txctrl := ⟨false, false, 0⟩ }).emit (.mmio .handler .write 0x08 0#32)).hgoto n l := by
  have e : s.writeReg .txctrl 0#32 = .ok (s.setHw { s.hw with txctrl := ⟨false, false, 0⟩ }) :=
    s.writeReg_txctrl_word ⟨false, false, 0⟩
  simp only [handlerWrite, State.store_reg, e]
  rfl

/-- H3 (rule R184). -/
theorem handlerWrite_ie_zero (m : MicroStep) (n : HsLabel) (l : HsLocals) (s : State) :
    handlerWrite m .ie 0#32 n l s =
      ((s.setHw { s.hw with ie := ⟨false, false⟩ }).emit (.mmio .handler .write 0x10 0#32)).hgoto n l := by
  have e : s.writeReg .ie 0#32 = .ok (s.setHw { s.hw with ie := ⟨false, false⟩ }) :=
    s.writeReg_ie_word ⟨false, false⟩
  simp only [handlerWrite, State.store_reg, e]
  rfl

/-- H2a (rule R186). -/
theorem handlerRead_txctrl (m : MicroStep) (n : HsLabel) (l : HsLocals) (s : State) :
    handlerRead m .txctrl n l s =
      (s.emit (.mmio .handler .read 0x08 s.hw.txctrl.word)).hgoto n { l with t := s.hw.txctrl.word } := by
  simp only [handlerRead, State.load_reg, State.readReg]
  rfl

/-- H3a (rule R186). -/
theorem handlerRead_ie (m : MicroStep) (n : HsLabel) (l : HsLocals) (s : State) :
    handlerRead m .ie n l s =
      (s.emit (.mmio .handler .read 0x10 s.hw.ie.word)).hgoto n { l with t := s.hw.ie.word } := by
  simp only [handlerRead, State.load_reg, State.readReg]
  rfl

/-- H2b where the value read was an assembled txctrl value (rule R186). -/
theorem handlerWrite_txctrl_clear (m : MicroStep) (n : HsLabel) (l : HsLocals) (s : State) (r : Txctrl) :
    handlerWrite m .txctrl (clearBit0 r.word) n l s =
      ((s.setHw { s.hw with txctrl := { r with txen := false } }).emit
        (.mmio .handler .write 0x08 (Txctrl.word { r with txen := false }))).hgoto n l := by
  rw [clearBit0_txctrl_word]
  simp only [handlerWrite, State.store_reg, State.writeReg_txctrl_word]
  rfl

/-- H3b where the value read was an assembled ie value (rule R186). -/
theorem handlerWrite_ie_clear (m : MicroStep) (n : HsLabel) (l : HsLocals) (s : State) (w : Watermarks) :
    handlerWrite m .ie (clearBit0 w.word) n l s =
      ((s.setHw { s.hw with ie := { w with txwm := false } }).emit
        (.mmio .handler .write 0x10 (Watermarks.word { w with txwm := false }))).hgoto n l := by
  rw [clearBit0_watermarks_word]
  simp only [handlerWrite, State.store_reg, State.writeReg_ie_word]
  rfl

/-- H2b for any value read without a reserved bit (rules R29, R186). -/
theorem handlerWrite_txctrl_back {l : HsLocals} (h : Reg.txctrl.reservedSet l.t = false) (m : MicroStep) (n : HsLabel)
    (s : State) : handlerWrite m .txctrl (clearBit0 l.t) n l s =
      ((s.setHw { s.hw with txctrl := .ofWord (clearBit0 l.t) }).emit
        (.mmio .handler .write 0x08 (clearBit0 l.t))).hgoto n l := by
  simp only [handlerWrite, State.store_reg, State.writeReg, clearBit0_not_reserved h, Bool.false_eq_true, if_false]
  rfl

/-- H3b for any value read without a reserved bit (rules R29, R186). -/
theorem handlerWrite_ie_back {l : HsLocals} (h : Reg.ie.reservedSet l.t = false) (m : MicroStep) (n : HsLabel)
    (s : State) : handlerWrite m .ie (clearBit0 l.t) n l s =
      ((s.setHw { s.hw with ie := .ofWord (clearBit0 l.t) }).emit
        (.mmio .handler .write 0x10 (clearBit0 l.t))).hgoto n l := by
  simp only [handlerWrite, State.store_reg, State.writeReg, clearBit0_not_reserved h, Bool.false_eq_true, if_false]
  rfl

/-- The continuation's write with a byte at the index and room in the FIFO (rules R181, R183, R187). -/
theorem handlerFill_room {m : MicroStep} {n : HsLabel} {l : HsLocals} {s : State} {b : Byte}
    (hb : byteAt? s.drv.slot l.i = some b) (h : s.hw.txfifo.length < s.params.txDepth) :
    handlerFill m n l s =
      ((s.setHw { s.hw with txfifo := s.hw.txfifo ++ [b] }).emit
        (.mmio .handler .write 0x00 (b.setWidth 32))).hgoto n l := by
  simp only [handlerFill, hb, State.store_reg, State.writeReg_txdata_byte, State.enqueue_room h]
  rfl

/-- The continuation's write on a full FIFO under `TX_OVERFLOW = Fault` (rules R101, R188). -/
theorem handlerFill_overflow {m : MicroStep} {n : HsLabel} {l : HsLocals} {s : State} {b : Byte}
    (hb : byteAt? s.drv.slot l.i = some b) (h : s.params.txDepth ≤ s.hw.txfifo.length)
    (ho : s.params.txOverflow = .fault) : handlerFill m n l s = s.raise .txOverflow .handler m := by
  simp only [handlerFill, hb, State.store_reg, State.writeReg_txdata_byte, State.enqueue_overflow h ho]

/-- The continuation's write on a full FIFO under `TX_OVERFLOW = Drop` (rules R101, R188). -/
theorem handlerFill_lost {m : MicroStep} {n : HsLabel} {l : HsLocals} {s : State} {b : Byte}
    (hb : byteAt? s.drv.slot l.i = some b) (h : s.params.txDepth ≤ s.hw.txfifo.length)
    (ho : s.params.txOverflow = .drop) : handlerFill m n l s =
      (s.emit (.mmio .handler .write 0x00 (b.setWidth 32))).hgoto n l := by
  simp only [handlerFill, hb, State.store_reg, State.writeReg_txdata_byte, State.enqueue_lost h ho]
  rfl

/-- The continuation's write past the buffer's end (rules R183, R187). -/
theorem handlerFill_noByte {m : MicroStep} {n : HsLabel} {l : HsLocals} {s : State}
    (hb : byteAt? s.drv.slot l.i = none) : handlerFill m n l s = s.raise .handlerIndexOutOfRange .handler m := by
  simp only [handlerFill, hb]

/-- What the continuation's write can be (rules R101, R181, R183, R187). -/
theorem handlerFill_cases (m : MicroStep) (n : HsLabel) (l : HsLocals) (s : State) :
    byteAt? s.drv.slot l.i = none ∧ handlerFill m n l s = s.raise .handlerIndexOutOfRange .handler m ∨
      ∃ b, byteAt? s.drv.slot l.i = some b ∧
        (s.hw.txfifo.length < s.params.txDepth ∧ handlerFill m n l s =
            ((s.setHw { s.hw with txfifo := s.hw.txfifo ++ [b] }).emit
              (.mmio .handler .write 0x00 (b.setWidth 32))).hgoto n l ∨
          handlerFill m n l s = s.raise .txOverflow .handler m ∨
          handlerFill m n l s = (s.emit (.mmio .handler .write 0x00 (b.setWidth 32))).hgoto n l) := by
  cases hb : byteAt? s.drv.slot l.i with
  | none => exact .inl ⟨rfl, handlerFill_noByte hb⟩
  | some b =>
    refine .inr ⟨b, rfl, ?_⟩
    rcases s.enqueue_cases b with ⟨h, -⟩ | ⟨h, ⟨ho, -⟩ | ⟨ho, -⟩⟩
    · exact .inl ⟨h, handlerFill_room hb h⟩
    · exact .inr (.inl (handlerFill_overflow hb h ho))
    · exact .inr (.inr (handlerFill_lost hb h ho))

/-- H8 of `WriteThenCheck` (rule R181). -/
theorem handlerCheckAfter_eq (l : HsLocals) (s : State) : handlerCheckAfter l s =
    if s.full = true ∨ l.i + 1 = l.n.toNat then
      (s.drew.emit (.mmio .handler .read 0x00 (dataWord s.full (Config.drawByte s.draws)))).handlerReturn
    else (s.drew.emit (.mmio .handler .read 0x00 (dataWord s.full (Config.drawByte s.draws)))).hgoto
      .h6 { l with i := l.i + 1 } := by
  simp only [handlerCheckAfter, State.load_reg, State.readReg, bit31_dataWord, Bool.or_eq_true, decide_eq_true_eq]
  rfl

/-- H6 of `CheckThenWrite` (rule R187). -/
theorem handlerCheckBefore_eq (l : HsLocals) (s : State) : handlerCheckBefore l s =
    if s.full = true then
      (s.drew.emit (.mmio .handler .read 0x00 (dataWord s.full (Config.drawByte s.draws)))).handlerReturn
    else (s.drew.emit (.mmio .handler .read 0x00 (dataWord s.full (Config.drawByte s.draws)))).hgoto .h7 l := by
  simp only [handlerCheckBefore, State.load_reg, State.readReg, bit31_dataWord]
  rfl

end Sys2Proof.Machine
end

