-- ==== Sys2Proof/Laws/Mmio.lean ====
section
/-! SUPPORT. What a raw access does at its one label (rules R115, R64). -/

namespace Sys2Proof.Machine

/-- A raw read of a register: the access, its event, and the return of the value (rule R115). -/
theorem mmioRead_reg {s : State} (h : s.fg.lbl = .start) (r : Reg) :
    mmioRead r.offset s =
      .next (((s.readReg r).2.emit (.mmio .foreground .read r.offset (s.readReg r).1)).ret (.word (s.readReg r).1)) := by
  rw [mmioRead, State.oneStep_start h]
  exact congrArg _ (s.load_reg .foreground .m0 r _)

/-- A raw write of a register: its fault, or the access, its event, and the return (rule R115). -/
theorem mmioWrite_reg {s : State} (h : s.fg.lbl = .start) (r : Reg) (v : Word) :
    mmioWrite r.offset v s =
      .next (match s.writeReg r v with
        | .error e => s.raise e .foreground .m0
        | .ok t => (t.emit (.mmio .foreground .write r.offset v)).ret .none) := by
  rw [mmioWrite, State.oneStep_start h]
  exact congrArg _ (s.store_reg .foreground .m0 r v _)

/-- A raw read at an offset that is no register: UnmappedAccess and nothing else (rules R64, R88). -/
theorem mmioRead_unmapped {s : State} (h : s.fg.lbl = .start) {off : Nat} (ho : Reg.ofOffset? off = none) :
    mmioRead off s = .next (s.raise .unmappedAccess .foreground .m0) := by
  rw [mmioRead, State.oneStep_start h]
  simp [State.load, State.memRead, ho]

/-- A raw write at an offset that is no register: UnmappedAccess and nothing else (rules R64, R88). -/
theorem mmioWrite_unmapped {s : State} (h : s.fg.lbl = .start) {off : Nat} (ho : Reg.ofOffset? off = none) (v : Word) :
    mmioWrite off v s = .next (s.raise .unmappedAccess .foreground .m0) := by
  rw [mmioWrite, State.oneStep_start h]
  simp [State.store, State.memWrite, ho]

/-- What a raw read can answer: only at `Start`, and then a next state (rules R64, R115). -/
theorem mmioRead_cases (off : Nat) (s : State) :
    s.fg.lbl ≠ .start ∧ mmioRead off s = .fault .wrongLabel ∨
      s.fg.lbl = .start ∧
        (mmioRead off s = .next (s.raise .unmappedAccess .foreground .m0) ∨
          ∃ r, mmioRead off s = .next
            (((s.readReg r).2.emit (.mmio .foreground .read r.offset (s.readReg r).1)).ret (.word (s.readReg r).1))) := by
  by_cases h : s.fg.lbl = .start
  · refine .inr ⟨h, ?_⟩
    cases ho : Reg.ofOffset? off with
    | none => exact .inl (mmioRead_unmapped h ho)
    | some r =>
      rw [ofOffset?_eq_some ho]
      exact .inr ⟨r, mmioRead_reg h r⟩
  · rcases s.oneStep_cases (s.load .foreground .m0 (s.drv.base + off) fun v t => t.ret (.word v)) with ⟨h', -⟩ | ⟨-, e⟩
    · exact absurd h' h
    · exact .inl ⟨h, e⟩

/-- What a raw write can answer: only at `Start`, and then a next state (rules R64, R115). -/
theorem mmioWrite_cases (off : Nat) (v : Word) (s : State) :
    s.fg.lbl ≠ .start ∧ mmioWrite off v s = .fault .wrongLabel ∨
      s.fg.lbl = .start ∧
        ((∃ e, mmioWrite off v s = .next (s.raise e .foreground .m0)) ∨
          ∃ r t, off = r.offset ∧ s.writeReg r v = .ok t ∧ mmioWrite off v s =
            .next ((t.emit (.mmio .foreground .write r.offset v)).ret .none)) := by
  by_cases h : s.fg.lbl = .start
  · refine .inr ⟨h, ?_⟩
    cases ho : Reg.ofOffset? off with
    | none => exact .inl ⟨_, mmioWrite_unmapped h ho v⟩
    | some r =>
      rw [ofOffset?_eq_some ho, mmioWrite_reg h r v]
      cases hw : s.writeReg r v with
      | error e => exact .inl ⟨e, rfl⟩
      | ok t => exact .inr ⟨r, t, rfl, hw, rfl⟩
  · rcases s.oneStep_cases (s.store .foreground .m0 (s.drv.base + off) v fun t => t.ret .none) with ⟨h', -⟩ | ⟨-, e⟩
    · exact absurd h' h
    · exact .inl ⟨h, e⟩

end Sys2Proof.Machine
end

