-- ==== Sys2Proof/Laws/Exec.lean ====
section
/-! SUPPORT. Said once: everything a micro-step of a foreground operation and of the handler can do, with the label it is
taken at and the state it leaves. Claims about every step are case analyses of these. -/

namespace Sys2Proof.Machine

/-- The outcomes of a foreground micro-step of operation `i` (rules R101 to R114, R141, R151, R163 to R169, R201 to
R206). -/
inductive FgStep (i : Instr) (s : State) : State → Prop where
  | raise (r : FaultReason) (m : MicroStep) : FgStep i s (s.raise r .foreground m)
  | read (r : Reg) (hl : s.fg.lbl = .start) : FgStep i s
      (((s.readReg r).2.emit (.mmio .foreground .read r.offset (s.readReg r).1)).ret (.word (s.readReg r).1))
  | write (r : Reg) (v : Word) (t : State) (hl : s.fg.lbl = .start)
      (hd : encode i = ⟨0x80#8 ||| BitVec.ofNat 8 r.offset, [.num v.toNat]⟩) (hw : s.writeReg r v = .ok t) :
      FgStep i s ((t.emit (.mmio .foreground .write r.offset v)).ret .none)
  | stub (r : RetVal) (hl : s.fg.lbl = .start) : FgStep i s (s.ret r)
  | txClient (c : ClientId) (hi : i = .setTransmitClient c) (hl : s.fg.lbl = .start) :
      FgStep i s ((s.setDrv { s.drv with txClient := some c }).ret .none)
  | rxClient (c : ClientId) (hi : i = .setReceiveClient c) (hl : s.fg.lbl = .start) :
      FgStep i s ((s.setDrv { s.drv with rxClient := some c }).ret .none)
  | cf0 (baud : Word) (p : Parity) (f : Bool) (st : StopBits) (hi : i = .configure baud p f st)
      (hl : s.fg.lbl = .start) (hb : s.drv.busy = false) (hd : (s.drv.clock / baud - 1).toNat ≤ 0xFFFF) :
      FgStep i s (s.goto .cf1 { s.fg.loc with d := s.drv.clock / baud - 1 })
  | cf1 (baud : Word) (p : Parity) (f : Bool) (st : StopBits) (hi : i = .configure baud p f st)
      (hl : s.fg.lbl = .cf1) : FgStep i s
      (((s.setHw { s.hw with div := divField s.fg.loc.d }).emit (.mmio .foreground .write 0x18 s.fg.loc.d)).goto
        .cf2 s.fg.loc)
  | cf2 (baud : Word) (p : Parity) (f : Bool) (st : StopBits) (hi : i = .configure baud p f st)
      (hl : s.fg.lbl = .cf2) : FgStep i s ((s.setDrv { s.drv with stop := st }).ret (.result .success))
  | ts0 (bytes : List Byte) (hi : i = .transmitSync bytes) (hl : s.fg.lbl = .start) (hb : s.drv.busy = false) :
      FgStep i s (s.goto .ts1 { s.fg.loc with i := 0 })
  | ts1 (bytes : List Byte) (hi : i = .transmitSync bytes) (hl : s.fg.lbl = .ts1) : FgStep i s
      (((s.setHw { s.hw with txctrl := ⟨true, false, 1⟩ }).emit (.mmio .foreground .write 0x08 0x00010001#32)).goto
        (if bytes.length = 0 then .ts4 else .ts2) s.fg.loc)
  | ts2 (bytes : List Byte) (hi : i = .transmitSync bytes) (hl : s.fg.lbl = .ts2) : FgStep i s
      ((s.drew.emit (.mmio .foreground .read 0x00 (dataWord s.full (Config.drawByte s.draws)))).goto
        (if s.full = true then .ts2 else .ts3) s.fg.loc)
  | ts3 (bytes : List Byte) (b : Byte) (hi : i = .transmitSync bytes) (hl : s.fg.lbl = .ts3)
      (hb : bytes[s.fg.loc.i]? = some b) (hr : s.hw.txfifo.length < s.params.txDepth) : FgStep i s
      (((s.setHw { s.hw with txfifo := s.hw.txfifo ++ [b] }).emit (.mmio .foreground .write 0x00 (b.setWidth 32))).goto
        (if s.fg.loc.i + 1 = bytes.length then .ts4 else .ts2) { s.fg.loc with i := s.fg.loc.i + 1 })
  | ts3Lost (bytes : List Byte) (b : Byte) (hi : i = .transmitSync bytes) (hl : s.fg.lbl = .ts3)
      (hb : bytes[s.fg.loc.i]? = some b) : FgStep i s
      ((s.emit (.mmio .foreground .write 0x00 (b.setWidth 32))).goto
        (if s.fg.loc.i + 1 = bytes.length then .ts4 else .ts2) { s.fg.loc with i := s.fg.loc.i + 1 })
  | ts4 (bytes : List Byte) (hi : i = .transmitSync bytes) (hl : s.fg.lbl = .ts4) : FgStep i s (s.ret .none)
  | tb0 (buf : Buffer) (len : Word) (hi : i = .transmitBuffer buf len) (hl : s.fg.lbl = .start)
      (h0 : len ≠ 0#32) (hb : s.drv.busy = false) (hs : len.toNat ≤ buf.data.length) : FgStep i s
      ((s.setDrv { s.drv with
          busy := true
          cursor := if s.params.cursorInitWrite = true then 0 else s.drv.cursor }).goto
        .tb1 { s.fg.loc with buf := some buf, i := 0 })
  | tb1 (buf : Buffer) (len : Word) (hi : i = .transmitBuffer buf len) (hl : s.fg.lbl = .tb1) : FgStep i s
      (((s.setHw { s.hw with ie := ⟨true, false⟩ }).emit (.mmio .foreground .write 0x10 0x00000001#32)).goto
        .tb2 s.fg.loc)
  | fill (buf : Buffer) (len : Word) (b : Byte) (l n : FgLabel) (hi : i = .transmitBuffer buf len)
      (hl : s.fg.lbl = l) (hn : s.params.fillOrder = .writeThenCheck ∧ l = .tb2 ∧ n = .tb3 ∨
        s.params.fillOrder = .checkThenWrite ∧ l = .tb3 ∧ n = .tb4)
      (hb : byteAt? s.fg.loc.buf s.fg.loc.i = some b) (hr : s.hw.txfifo.length < s.params.txDepth) : FgStep i s
      (((s.setHw { s.hw with txfifo := s.hw.txfifo ++ [b] }).emit (.mmio .foreground .write 0x00 (b.setWidth 32))).goto
        n s.fg.loc)
  | fillLost (buf : Buffer) (len : Word) (b : Byte) (l n : FgLabel) (hi : i = .transmitBuffer buf len)
      (hl : s.fg.lbl = l) (hn : s.params.fillOrder = .writeThenCheck ∧ l = .tb2 ∧ n = .tb3 ∨
        s.params.fillOrder = .checkThenWrite ∧ l = .tb3 ∧ n = .tb4) : FgStep i s
      ((s.emit (.mmio .foreground .write 0x00 (b.setWidth 32))).goto n s.fg.loc)
  | cursor (buf : Buffer) (len : Word) (hi : i = .transmitBuffer buf len) (hl : s.fg.lbl = .tb3)
      (ho : s.params.fillOrder = .writeThenCheck) : FgStep i s ((fillCursor s).goto .tb4 s.fg.loc)
  | checkAfter (buf : Buffer) (len : Word) (hi : i = .transmitBuffer buf len) (hl : s.fg.lbl = .tb4)
      (ho : s.params.fillOrder = .writeThenCheck) : FgStep i s
      ((s.drew.emit (.mmio .foreground .read 0x00 (dataWord s.full (Config.drawByte s.draws)))).goto
        (if s.full = true ∨ s.fg.loc.i + 1 = len.toNat then .tb5 else .tb2) { s.fg.loc with i := s.fg.loc.i + 1 })
  | checkBefore (buf : Buffer) (len : Word) (hi : i = .transmitBuffer buf len) (hl : s.fg.lbl = .tb2)
      (ho : s.params.fillOrder = .checkThenWrite) : FgStep i s
      ((s.drew.emit (.mmio .foreground .read 0x00 (dataWord s.full (Config.drawByte s.draws)))).goto
        (if s.full = true then .tb5 else .tb3) s.fg.loc)
  | advance (buf : Buffer) (len : Word) (hi : i = .transmitBuffer buf len) (hl : s.fg.lbl = .tb4)
      (ho : s.params.fillOrder = .checkThenWrite) : FgStep i s
      ((fillCursor s).goto (if s.fg.loc.i + 1 = len.toNat then .tb5 else .tb2)
        { s.fg.loc with i := s.fg.loc.i + 1 })
  | tb5 (buf : Buffer) (len : Word) (hi : i = .transmitBuffer buf len) (hl : s.fg.lbl = .tb5) : FgStep i s
      ((s.setDrv { s.drv with slot := s.fg.loc.buf }).goto .tb6 { s.fg.loc with buf := none })
  | tb6 (buf : Buffer) (len : Word) (hi : i = .transmitBuffer buf len) (hl : s.fg.lbl = .tb6) : FgStep i s
      ((s.setDrv { s.drv with length := len }).goto .tb7 s.fg.loc)
  | tb7 (buf : Buffer) (len : Word) (hi : i = .transmitBuffer buf len) (hl : s.fg.lbl = .tb7) : FgStep i s
      (((s.setHw { s.hw with txctrl := ⟨true, nstopOf s.drv.stop, 1⟩ }).emit
        (.mmio .foreground .write 0x08 (Txctrl.word ⟨true, nstopOf s.drv.stop, 1⟩))).goto .tb8 s.fg.loc)
  | tb8 (buf : Buffer) (len : Word) (hi : i = .transmitBuffer buf len) (hl : s.fg.lbl = .tb8) :
      FgStep i s (s.ret (.resultBuffer .success none))

/-- A raw read that answers a next state (rule R115). -/
theorem fgStep_mmioRead {i : Instr} {off : Nat} {s t : State} (h : mmioRead off s = .next t) : FgStep i s t := by
  rcases mmioRead_cases off s with ⟨-, e⟩ | ⟨hl, e | ⟨r, e⟩⟩ <;> rw [e] at h <;> cases h
  · exact .raise _ _
  · exact .read r hl

/-- A raw write of a register that answers a next state (rule R115). -/
theorem fgStep_mmioWrite {i : Instr} {r : Reg} {v : Word} {s t : State} (h : mmioWrite r.offset v s = .next t)
    (hd : encode i = ⟨0x80#8 ||| BitVec.ofNat 8 r.offset, [.num v.toNat]⟩) : FgStep i s t := by
  by_cases hl : s.fg.lbl = .start
  · rw [mmioWrite_reg hl] at h
    cases hw : s.writeReg r v with
    | error e =>
      rw [hw] at h
      cases h
      exact .raise _ _
    | ok u =>
      rw [hw] at h
      cases h
      exact .write r v u hl hd hw
  · rcases mmioWrite_cases r.offset v s with ⟨-, e⟩ | ⟨hl', -⟩
    · rw [e] at h
      cases h
    · exact absurd hl' hl

/-- What TB0 can be (rules R162, R163, R165, R234). -/
theorem bufferEnter_cases (buf : Buffer) (len : Word) (s : State) :
    bufferEnter buf len s = s.ret (.resultBuffer .invalidSize (some buf)) ∨
      (∃ r, bufferEnter buf len s = s.raise r .foreground .tb0) ∨
      len ≠ 0#32 ∧ s.drv.busy = false ∧ len.toNat ≤ buf.data.length ∧ bufferEnter buf len s =
        (s.setDrv { s.drv with
            busy := true
            cursor := if s.params.cursorInitWrite = true then 0 else s.drv.cursor }).goto
          .tb1 { s.fg.loc with buf := some buf, i := 0 } := by
  unfold bufferEnter
  by_cases h0 : len = 0
  · rw [if_pos h0]
    exact .inl rfl
  rw [if_neg h0]
  by_cases h1 : s.drv.busy = true
  · rw [if_pos h1]
    exact .inr (.inl ⟨_, rfl⟩)
  rw [if_neg h1]
  by_cases h2 : buf.data.length < len.toNat
  · rw [if_pos h2]
    exact .inr (.inl ⟨_, rfl⟩)
  rw [if_neg h2]
  exact .inr (.inr ⟨h0, Bool.eq_false_iff.2 h1, Nat.le_of_not_lt h2, rfl⟩)

/-- Every micro-step of a foreground operation is one of `FgStep`. -/
theorem fgStep_of_exec {i : Instr} {s t : State} (hi : i ≠ .handleInterrupt) (h : exec i s = .next t) :
    FgStep i s t := by
  cases i
  case handleInterrupt => exact absurd rfl hi
  case configure baud p f st =>
    rcases execConfigure_cases h with ⟨hl, rfl⟩ | ⟨hl, rfl⟩ | ⟨hl, rfl⟩
    · rcases configureCheck_cases baud p f s with e | ⟨r, e⟩ | ⟨hb, hd, e⟩ <;> rw [e]
      · exact .stub _ hl
      · exact .raise _ _
      · exact .cf0 _ _ _ _ rfl hl hb hd
    · rcases configureDivisor_cases s with ⟨-, e⟩ | e <;> rw [e]
      · exact .cf1 _ _ _ _ rfl hl
      · exact .raise _ _
    · exact .cf2 _ _ _ _ rfl hl
  case transmitSync bytes =>
    rcases execTransmitSync_cases h with ⟨hl, rfl⟩ | ⟨hl, rfl⟩ | ⟨hl, rfl⟩ | ⟨hl, b, hb, rfl⟩ | ⟨hl, rfl⟩
    · unfold syncEnter
      by_cases hb : s.drv.busy = true
      · rw [if_pos hb]
        exact .raise _ _
      · rw [if_neg hb]
        exact .ts0 _ rfl hl (Bool.eq_false_iff.2 hb)
    · rw [syncProgram_eq]
      exact .ts1 _ rfl hl
    · rw [syncPoll_eq]
      exact .ts2 _ rfl hl
    · rcases syncWrite_cases bytes b s with ⟨hr, e⟩ | e | e <;> rw [e]
      · exact .ts3 _ _ rfl hl hb hr
      · exact .raise _ _
      · exact .ts3Lost _ _ rfl hl hb
    · exact .ts4 _ rfl hl
  case transmitBuffer buf len =>
    rcases execTransmitBuffer_cases h with ⟨hl, rfl⟩ | ⟨hl, rfl⟩ |
      ⟨ho, ⟨hl, b, hb, rfl⟩ | ⟨hl, rfl⟩ | ⟨hl, rfl⟩⟩ | ⟨ho, ⟨hl, rfl⟩ | ⟨hl, b, hb, rfl⟩ | ⟨hl, rfl⟩⟩ |
      ⟨hl, rfl⟩ | ⟨hl, rfl⟩ | ⟨hl, rfl⟩ | ⟨hl, rfl⟩
    · rcases bufferEnter_cases buf len s with e | ⟨r, e⟩ | ⟨h0, hb, hs, e⟩ <;> rw [e]
      · exact .stub _ hl
      · exact .raise _ _
      · exact .tb0 _ _ rfl hl h0 hb hs
    · rw [bufferEnable_eq]
      exact .tb1 _ _ rfl hl
    · rcases fillWrite_cases .tb2 b .tb3 s with ⟨hr, e⟩ | e | e <;> rw [e]
      · exact .fill _ _ b _ _ rfl hl (.inl ⟨ho, rfl, rfl⟩) hb hr
      · exact .raise _ _
      · exact .fillLost _ _ b _ _ rfl hl (.inl ⟨ho, rfl, rfl⟩)
    · exact .cursor _ _ rfl hl ho
    · rw [fillCheckAfter_eq]
      exact .checkAfter _ _ rfl hl ho
    · rw [fillCheckBefore_eq]
      exact .checkBefore _ _ rfl hl ho
    · rcases fillWrite_cases .tb3 b .tb4 s with ⟨hr, e⟩ | e | e <;> rw [e]
      · exact .fill _ _ b _ _ rfl hl (.inr ⟨ho, rfl, rfl⟩) hb hr
      · exact .raise _ _
      · exact .fillLost _ _ b _ _ rfl hl (.inr ⟨ho, rfl, rfl⟩)
    · exact .advance _ _ rfl hl ho
    · exact .tb5 _ _ rfl hl
    · exact .tb6 _ _ rfl hl
    · rw [bufferStart_eq]
      exact .tb7 _ _ rfl hl
    · exact .tb8 _ _ rfl hl
  case setTransmitClient c =>
    obtain ⟨hl, rfl⟩ := oneStep_eq_next h
    exact .txClient c rfl hl
  case setReceiveClient c =>
    obtain ⟨hl, rfl⟩ := oneStep_eq_next h
    exact .rxClient c rfl hl
  case transmitAbort =>
    obtain ⟨hl, rfl⟩ := oneStep_eq_next h
    exact .stub _ hl
  case transmitWord w =>
    obtain ⟨hl, rfl⟩ := oneStep_eq_next h
    exact .stub _ hl
  case receiveBuffer buf len =>
    obtain ⟨hl, rfl⟩ := oneStep_eq_next h
    exact .stub _ hl
  case receiveAbort =>
    obtain ⟨hl, rfl⟩ := oneStep_eq_next h
    exact .stub _ hl
  case receiveWord =>
    obtain ⟨hl, rfl⟩ := oneStep_eq_next h
    exact .stub _ hl
  case mmioWTxdata v => exact fgStep_mmioWrite (r := .txdata) h rfl
  case mmioWRxdata v => exact fgStep_mmioWrite (r := .rxdata) h rfl
  case mmioWTxctrl v => exact fgStep_mmioWrite (r := .txctrl) h rfl
  case mmioWRxctrl v => exact fgStep_mmioWrite (r := .rxctrl) h rfl
  case mmioWIe v => exact fgStep_mmioWrite (r := .ie) h rfl
  case mmioWIp v => exact fgStep_mmioWrite (r := .ip) h rfl
  case mmioWDiv v => exact fgStep_mmioWrite (r := .div) h rfl
  all_goals exact fgStep_mmioRead h

/-- The outcomes of the handler's micro-step at `lbl` with locals `l` (rules R181 to R187). -/
inductive HsStep (lbl : HsLabel) (l : HsLocals) (s : State) : State → Prop where
  | raise (r : FaultReason) (m : MicroStep) : HsStep lbl l s (s.raise r .handler m)
  | snapshot (hl : lbl = .h0) (hw : s.ip.txwm = true) :
      HsStep lbl l s ((s.emit (.mmio .handler .read 0x14 s.ip.word)).hgoto .h1 { l with s := s.ip.word })
  | noWork (hl : lbl = .h0) : HsStep lbl l s (s.emit (.mmio .handler .read 0x14 s.ip.word)).handlerReturn
  | complete (n : HsLabel) (hl : lbl = .h1) (hc : s.drv.cursor = s.drv.length) (hn : n = .h2 ∨ n = .h2a) :
      HsStep lbl l s (s.hgoto n { l with c := s.drv.cursor, n := s.drv.length })
  | resume (hl : lbl = .h1) (hc : s.drv.cursor ≠ s.drv.length) :
      HsStep lbl l s (s.hgoto .h5 { l with c := s.drv.cursor, n := s.drv.length })
  | h2 (hl : lbl = .h2) : HsStep lbl l s
      (((s.setHw { s.hw with txctrl := ⟨false, false, 0⟩ }).emit (.mmio .handler .write 0x08 0#32)).hgoto .h3 l)
  | h3 (hl : lbl = .h3) : HsStep lbl l s
      (((s.setHw { s.hw with ie := ⟨false, false⟩ }).emit (.mmio .handler .write 0x10 0#32)).hgoto .h4 l)
  | h2a (hl : lbl = .h2a) : HsStep lbl l s
      ((s.emit (.mmio .handler .read 0x08 s.hw.txctrl.word)).hgoto .h2b { l with t := s.hw.txctrl.word })
  | h2b (hl : lbl = .h2b) : HsStep lbl l s
      (((s.setHw { s.hw with txctrl := .ofWord (clearBit0 l.t) }).emit
        (.mmio .handler .write 0x08 (clearBit0 l.t))).hgoto .h3a l)
  | h3a (hl : lbl = .h3a) : HsStep lbl l s
      ((s.emit (.mmio .handler .read 0x10 s.hw.ie.word)).hgoto .h3b { l with t := s.hw.ie.word })
  | h3b (hl : lbl = .h3b) : HsStep lbl l s
      (((s.setHw { s.hw with ie := .ofWord (clearBit0 l.t) }).emit
        (.mmio .handler .write 0x10 (clearBit0 l.t))).hgoto .h4 l)
  | nothing (hl : lbl = .h4) (hs : s.drv.slot = none) : HsStep lbl l s s.handlerReturn
  | callback (b : Buffer) (c : ClientId) (hl : lbl = .h4) (hs : s.drv.slot = some b) (hc : s.drv.txClient = some c) :
      HsStep lbl l s
        (((s.setDrv { s.drv with slot := none, busy := false }).emit (.callback c b l.n .success)).handlerReturn)
  | dropped (b : Buffer) (hl : lbl = .h4) (hs : s.drv.slot = some b) (hc : s.drv.txClient = none) : HsStep lbl l s
      (((s.setDrv { s.drv with slot := none, busy := false }).emit (.bufferDropped b)).handlerReturn)
  | skip (hl : lbl = .h5) : HsStep lbl l s s.handlerReturn
  | enter (b : Buffer) (hl : lbl = .h5) (hs : s.drv.slot = some b) (hc : l.c.toNat < l.n.toNat) :
      HsStep lbl l s (s.hgoto .h6 { l with i := l.c.toNat })
  | fill (b : Byte) (n : HsLabel) (hn : s.params.fillOrder = .writeThenCheck ∧ lbl = .h6 ∧ n = .h7 ∨
        s.params.fillOrder = .checkThenWrite ∧ lbl = .h7 ∧ n = .h8)
      (hb : byteAt? s.drv.slot l.i = some b) (hr : s.hw.txfifo.length < s.params.txDepth) : HsStep lbl l s
      (((s.setHw { s.hw with txfifo := s.hw.txfifo ++ [b] }).emit
        (.mmio .handler .write 0x00 (b.setWidth 32))).hgoto n l)
  | fillLost (b : Byte) (n : HsLabel) (hn : s.params.fillOrder = .writeThenCheck ∧ lbl = .h6 ∧ n = .h7 ∨
        s.params.fillOrder = .checkThenWrite ∧ lbl = .h7 ∧ n = .h8) : HsStep lbl l s
      ((s.emit (.mmio .handler .write 0x00 (b.setWidth 32))).hgoto n l)
  | cursor (hl : lbl = .h7) (ho : s.params.fillOrder = .writeThenCheck) :
      HsStep lbl l s ((handlerCursor l s).hgoto .h8 l)
  | checkReturn (hl : s.params.fillOrder = .writeThenCheck ∧ lbl = .h8 ∨
        s.params.fillOrder = .checkThenWrite ∧ lbl = .h6) : HsStep lbl l s
      (s.drew.emit (.mmio .handler .read 0x00 (dataWord s.full (Config.drawByte s.draws)))).handlerReturn
  | checkAgain (hl : lbl = .h8) (ho : s.params.fillOrder = .writeThenCheck) (hn : l.i + 1 ≠ l.n.toNat) :
      HsStep lbl l s ((s.drew.emit (.mmio .handler .read 0x00 (dataWord s.full (Config.drawByte s.draws)))).hgoto
        .h6 { l with i := l.i + 1 })
  | checkRoom (hl : lbl = .h6) (ho : s.params.fillOrder = .checkThenWrite) :
      HsStep lbl l s ((s.drew.emit (.mmio .handler .read 0x00 (dataWord s.full (Config.drawByte s.draws)))).hgoto
        .h7 l)
  | last (hl : lbl = .h8) (ho : s.params.fillOrder = .checkThenWrite) :
      HsStep lbl l s (handlerCursor l s).handlerReturn
  | again (hl : lbl = .h8) (ho : s.params.fillOrder = .checkThenWrite) (hn : l.i + 1 ≠ l.n.toNat) :
      HsStep lbl l s ((handlerCursor l s).hgoto .h6 { l with i := l.i + 1 })

/-- Every micro-step of the handler is one of `HsStep`. -/
theorem hsStep_handlerStep (lbl : HsLabel) (l : HsLocals) (s : State) : HsStep lbl l s (handlerStep lbl l s) := by
  have fill : ∀ {m n}, (s.params.fillOrder = .writeThenCheck ∧ lbl = .h6 ∧ n = .h7 ∨
      s.params.fillOrder = .checkThenWrite ∧ lbl = .h7 ∧ n = .h8) → HsStep lbl l s (handlerFill m n l s) := by
    intro m n hn
    rcases handlerFill_cases m n l s with ⟨-, e⟩ | ⟨b, hb, ⟨hr, e⟩ | e | e⟩ <;> rw [e]
    · exact .raise _ _
    · exact .fill b n hn hb hr
    · exact .raise _ _
    · exact .fillLost b n hn
  cases lbl
  case h0 =>
    show HsStep .h0 l s (handlerSnapshot l s)
    rw [handlerSnapshot_eq]
    split
    · exact .snapshot rfl ‹_›
    · exact .noWork rfl
  case h1 =>
    show HsStep .h1 l s (handlerDecide l s)
    unfold handlerDecide
    by_cases hc : s.drv.cursor = s.drv.length
    · simp only [if_pos hc]
      cases s.params.doneWriteMode
      · exact .complete _ rfl hc (.inl rfl)
      · exact .complete _ rfl hc (.inr rfl)
    · simp only [if_neg hc]
      exact .resume rfl hc
  case h2 =>
    show HsStep .h2 l s (handlerWrite _ _ _ _ _ _)
    rw [handlerWrite_txctrl_zero]
    exact .h2 rfl
  case h3 =>
    show HsStep .h3 l s (handlerWrite _ _ _ _ _ _)
    rw [handlerWrite_ie_zero]
    exact .h3 rfl
  case h2a =>
    show HsStep .h2a l s (handlerRead _ _ _ _ _)
    rw [handlerRead_txctrl]
    exact .h2a rfl
  case h3a =>
    show HsStep .h3a l s (handlerRead _ _ _ _ _)
    rw [handlerRead_ie]
    exact .h3a rfl
  case h2b =>
    show HsStep .h2b l s (handlerWrite _ _ _ _ _ _)
    unfold handlerWrite
    rw [State.store_reg]
    cases hr : Reg.txctrl.reservedSet (clearBit0 l.t) with
    | true =>
      simp only [State.writeReg, hr, if_true]
      exact .raise _ _
    | false =>
      simp only [State.writeReg, hr, Bool.false_eq_true, if_false]
      exact .h2b rfl
  case h3b =>
    show HsStep .h3b l s (handlerWrite _ _ _ _ _ _)
    unfold handlerWrite
    rw [State.store_reg]
    cases hr : Reg.ie.reservedSet (clearBit0 l.t) with
    | true =>
      simp only [State.writeReg, hr, if_true]
      exact .raise _ _
    | false =>
      simp only [State.writeReg, hr, Bool.false_eq_true, if_false]
      exact .h3b rfl
  case h4 =>
    show HsStep .h4 l s (handlerComplete l s)
    unfold handlerComplete
    split
    · exact .nothing rfl ‹_›
    · split
      · exact .callback _ _ rfl ‹_› ‹_›
      · exact .dropped _ rfl ‹_› ‹_›
  case h5 =>
    show HsStep .h5 l s (handlerResume l s)
    unfold handlerResume
    cases hs : s.drv.slot with
    | none => exact .skip rfl
    | some b =>
      by_cases hc : l.n.toNat ≤ l.c.toNat
      · simp only [if_pos hc]
        exact .skip rfl
      · simp only [if_neg hc]
        exact .enter b rfl hs (Nat.lt_of_not_le hc)
  case h6 =>
    show HsStep .h6 l s (match s.params.fillOrder with
      | .writeThenCheck => handlerFill .h6 .h7 l s
      | .checkThenWrite => handlerCheckBefore l s)
    cases ho : s.params.fillOrder
    · exact fill (.inl ⟨ho, rfl, rfl⟩)
    · simp only [handlerCheckBefore_eq]
      split
      · exact .checkReturn (.inr ⟨ho, rfl⟩)
      · exact .checkRoom rfl ho
  case h7 =>
    show HsStep .h7 l s (match s.params.fillOrder with
      | .writeThenCheck => (handlerCursor l s).hgoto .h8 l
      | .checkThenWrite => handlerFill .h7 .h8 l s)
    cases ho : s.params.fillOrder
    · exact .cursor rfl ho
    · exact fill (.inr ⟨ho, rfl, rfl⟩)
  case h8 =>
    show HsStep .h8 l s (match s.params.fillOrder with
      | .writeThenCheck => handlerCheckAfter l s
      | .checkThenWrite => handlerAdvance l s)
    cases ho : s.params.fillOrder
    · simp only [handlerCheckAfter_eq]
      split
      · exact .checkReturn (.inl ⟨ho, rfl⟩)
      · next h => exact .checkAgain rfl ho fun e => h (.inr e)
    · simp only [handlerAdvance]
      split
      · exact .last rfl ho
      · exact .again rfl ho ‹_›

end Sys2Proof.Machine
end

