-- ==== Sys2Proof/Laws/PerInstr.lean ====
section
/-! SUPPORT. One lemma per operation about its descriptor (rules R84 to R88): the format its bits are in, and that they
agree with the operands it carries. -/

namespace Sys2Proof.Laws.Descriptor

/-- A descriptor byte `d` with `n` operands is in one of the two formats of rule R84: an MMIO descriptor, whose offset is
one of the seven of rule R61 and which carries one operand exactly when `W = 1`; or an API descriptor with `d[7] = 0` and
an operation number of at most 10, which is none of the reserved ones of rule R88. -/
abbrev InFormat (d : Byte) (n : Nat) : Prop :=
  descFmt d = 0#2 ∧ (descOff d).toNat ∈ [0x00, 0x04, 0x08, 0x0C, 0x10, 0x14, 0x18] ∧ n = (descW d).toNat ∨
    descFmt d = 2#2 ∧ descW d = false ∧ (descOff d).toNat ≤ 10

/-- The descriptor of `i` and the number of its operands are in the format of rule R84. -/
def Statement (i : Instr) : Prop := InFormat (encode i).desc (encode i).args.length

theorem mmioRTxdata : Statement .mmioRTxdata :=
  (by decide : InFormat 0x00#8 0)

theorem mmioWTxdata (v : Word) : Statement (.mmioWTxdata v) :=
  (by decide : InFormat 0x80#8 1)

theorem mmioRRxdata : Statement .mmioRRxdata :=
  (by decide : InFormat 0x04#8 0)

theorem mmioWRxdata (v : Word) : Statement (.mmioWRxdata v) :=
  (by decide : InFormat 0x84#8 1)

theorem mmioRTxctrl : Statement .mmioRTxctrl :=
  (by decide : InFormat 0x08#8 0)

theorem mmioWTxctrl (v : Word) : Statement (.mmioWTxctrl v) :=
  (by decide : InFormat 0x88#8 1)

theorem mmioRRxctrl : Statement .mmioRRxctrl :=
  (by decide : InFormat 0x0C#8 0)

theorem mmioWRxctrl (v : Word) : Statement (.mmioWRxctrl v) :=
  (by decide : InFormat 0x8C#8 1)

theorem mmioRIe : Statement .mmioRIe :=
  (by decide : InFormat 0x10#8 0)

theorem mmioWIe (v : Word) : Statement (.mmioWIe v) :=
  (by decide : InFormat 0x90#8 1)

theorem mmioRIp : Statement .mmioRIp :=
  (by decide : InFormat 0x14#8 0)

theorem mmioWIp (v : Word) : Statement (.mmioWIp v) :=
  (by decide : InFormat 0x94#8 1)

theorem mmioRDiv : Statement .mmioRDiv :=
  (by decide : InFormat 0x18#8 0)

theorem mmioWDiv (v : Word) : Statement (.mmioWDiv v) :=
  (by decide : InFormat 0x98#8 1)

theorem configure (baud : Word) (parity : Parity) (flow : Bool) (stop : StopBits) : Statement (.configure baud parity flow stop) :=
  (by decide : InFormat 0x40#8 4)

theorem transmitSync (bytes : List Byte) : Statement (.transmitSync bytes) :=
  (by decide : InFormat 0x41#8 1)

theorem transmitBuffer (buf : Buffer) (len : Word) : Statement (.transmitBuffer buf len) :=
  (by decide : InFormat 0x42#8 2)

theorem transmitAbort : Statement .transmitAbort :=
  (by decide : InFormat 0x43#8 0)

theorem transmitWord (word : Word) : Statement (.transmitWord word) :=
  (by decide : InFormat 0x44#8 1)

theorem receiveBuffer (buf : Buffer) (len : Word) : Statement (.receiveBuffer buf len) :=
  (by decide : InFormat 0x45#8 2)

theorem receiveAbort : Statement .receiveAbort :=
  (by decide : InFormat 0x46#8 0)

theorem receiveWord : Statement .receiveWord :=
  (by decide : InFormat 0x47#8 0)

theorem setTransmitClient (client : ClientId) : Statement (.setTransmitClient client) :=
  (by decide : InFormat 0x48#8 1)

theorem setReceiveClient (client : ClientId) : Statement (.setReceiveClient client) :=
  (by decide : InFormat 0x49#8 1)

theorem handleInterrupt : Statement .handleInterrupt :=
  (by decide : InFormat 0x4A#8 0)

end Sys2Proof.Laws.Descriptor
end

