-- ==== Sys2Proof/Laws/Step.lean ====
section
/-! SUPPORT. What one step of the machine can be: the choice it takes, and the one agent it steps. -/

namespace Sys2Proof.Machine

/-- Taking the next choice moves only the schedule and the count of free values (rule R237). -/
theorem State.nextChoice_frame (s : State) :
    s.nextChoice.2 = { s with schedule := s.nextChoice.2.schedule, draws := s.nextChoice.2.draws } := by
  unfold State.nextChoice
  split <;> rfl

@[simp] theorem State.nextChoice_cons {s : State} {c : Choice} {rest : List Choice} (h : s.schedule = c :: rest) :
    s.nextChoice = (c, { s with schedule := rest }) := by
  simp [State.nextChoice, h]

/-- A step that answers a next state: the program is admitted, no fault is set, and the chosen agent has answered it. -/
theorem step_eq_next {s t : State} (h : step s = .next t) :
    s.program.refusal = none ∧ s.fault = none ∧ s.nextChoice.2.runChoice s.nextChoice.1 = .next t := by
  unfold step at h
  split at h
  · cases h
  · split at h
    · cases h
    · exact ⟨‹_›, ‹_›, h⟩

/-- The step of a machine that runs is the step of the chosen agent (rules R230, R232, R237). -/
theorem step_running {s : State} (hp : s.program.refusal = none) (hf : s.fault = none) :
    step s = s.nextChoice.2.runChoice s.nextChoice.1 := by
  simp [step, hp, hf]

/-- What the step of a chosen agent can be, when it answers a next state (rules R46, R115, R120, R125, R181, R240):
nothing, where the agent is not enabled; an operation's micro-step; an access to no register; the handler's micro-step;
a dispatch; a transmitter step; a line step. -/
theorem State.runChoice_cases {u t : State} {c : Choice} (h : u.runChoice c = .next t) :
    u.enabled c = false ∧ t = u ∨
    u.foregroundEnabled = true ∧
      ((∃ i, u.fetch = .ok (.op i) ∧ exec i u = .next t) ∨
        (∃ off, u.fetch = .ok (.unmappedRead off) ∧ mmioRead off.toNat u = .next t) ∨
        (∃ off v, u.fetch = .ok (.unmappedWrite off v) ∧ mmioWrite off.toNat v u = .next t)) ∨
    u.fault = none ∧ (∃ h, u.hs = some h ∧ t = handlerStep h.lbl h.loc u) ∨
    u.dispatchEnabled = true ∧ u.hs = none ∧ t = u.takeInterrupt ∨
    u.transmitterEnabled = true ∧ t = u.transmit ∨
    ∃ b, u.lineEnabled = true ∧ t = u.receive b := by
  unfold State.runChoice at h
  cases he : u.enabled c with
  | false =>
    rw [he] at h
    cases h
    exact .inl ⟨rfl, rfl⟩
  | true =>
    rw [he] at h
    cases c <;> simp only [if_true] at h
    case foreground =>
      refine .inr (.inl ⟨he, ?_⟩)
      unfold State.runForeground at h
      split at h
      · next f hf =>
        cases f with
        | op i => exact .inl ⟨i, hf, h⟩
        | unmappedRead off => exact .inr (.inl ⟨off, hf, h⟩)
        | unmappedWrite off v => exact .inr (.inr ⟨off, v, hf, h⟩)
      · cases h
    case handler =>
      have hh : u.fault.isNone = true ∧ u.hs.isSome = true := by
        simpa [State.enabled, State.handlerEnabled] using he
      obtain ⟨hs, hhs⟩ := Option.isSome_iff_exists.mp hh.2
      simp only [exec, execHandleInterrupt, hhs] at h
      cases h
      exact .inr (.inr (.inl ⟨Option.isNone_iff_eq_none.mp hh.1, hs, hhs, rfl⟩))
    case dispatch =>
      have hd : u.dispatchEnabled = true := he
      have hn : u.hs = none := by
        simp only [State.dispatchEnabled, Bool.and_eq_true, Option.isNone_iff_eq_none] at hd
        exact hd.1.1.2
      simp only [exec, execHandleInterrupt, hn, hd, if_true] at h
      cases h
      exact .inr (.inr (.inr (.inl ⟨hd, hn, rfl⟩)))
    case transmitter =>
      cases h
      exact .inr (.inr (.inr (.inr (.inl ⟨he, rfl⟩))))
    case line b =>
      cases h
      exact .inr (.inr (.inr (.inr (.inr ⟨b, he, rfl⟩))))

/-- The transmitter step where it is enabled (rule R120). -/
theorem State.transmit_enabled {s : State} (h : s.transmitterEnabled = true) :
    ∃ b rest, s.hw.txfifo = b :: rest ∧ s.hw.txctrl.txen = true ∧ s.transmit =
      (s.setHw { s.hw with txfifo := rest }).emit (.lineTx b s.hw.txctrl.nstop s.hw.div) := by
  simp only [State.transmitterEnabled, State.occTx, Bool.and_eq_true] at h
  cases hq : s.hw.txfifo with
  | nil => simp [hq] at h
  | cons b rest => exact ⟨b, rest, rfl, h.1.2, by simp [State.transmit, h.1.2, hq]⟩

/-- The line step where it is enabled (rule R125). -/
theorem State.receive_enabled {s : State} (h : s.lineEnabled = true) (b : Byte) :
    s.occRx < s.params.rxDepth ∧
        s.receive b = (s.setHw { s.hw with rxfifo := s.hw.rxfifo ++ [b] }).emit (.rxArrive b) ∨
      s.params.rxDepth ≤ s.occRx ∧ s.receive b = s.emit (.rxDrop b) := by
  simp only [State.lineEnabled, Bool.and_eq_true] at h
  unfold State.receive
  rw [h.2]
  simp only [if_true]
  split
  · exact .inl ⟨‹_›, rfl⟩
  · exact .inr ⟨Nat.le_of_not_lt ‹_›, rfl⟩

/-! ## Fetching -/

/-- An MMIO read that decodes to no operation is at an offset that is no register (rules R61, R88). -/
theorem readOp_unmapped {off o : BitVec 5} (h : readOp off = .unmappedRead o) :
    o = off ∧ Reg.ofOffset? off.toNat = none := by
  revert off o
  decide

/-- An MMIO write that decodes to no operation is at an offset that is no register (rules R61, R88). -/
theorem writeOp_unmapped {off o : BitVec 5} {v w : Word} (h : writeOp off v = .unmappedWrite o w) :
    o = off ∧ Reg.ofOffset? off.toNat = none := by
  unfold writeOp at h
  split at h <;> cases h
  refine ⟨rfl, ?_⟩
  unfold Reg.ofOffset?
  split <;> first | contradiction | rfl

/-- A fetched access to no operation is at an offset that is no register (rules R61, R88). -/
theorem decode_unmapped {e : Entry} {off : BitVec 5}
    (h : decode e = .ok (.unmappedRead off) ∨ ∃ v, decode e = .ok (.unmappedWrite off v)) :
    Reg.ofOffset? off.toNat = none := by
  have api : ∀ f, decodeApi e.desc e.args = .ok f → ∃ i, f = .op i := by
    intro f hf
    unfold decodeApi at hf
    split at hf
    · cases hf
    · split at hf <;> cases hf
      exact ⟨_, rfl⟩
  have opW : ∀ o v w, writeOp o v ≠ .unmappedRead w := by
    intro o v w hw
    unfold writeOp at hw
    split at hw <;> cases hw
  have opR : ∀ o v w, readOp o ≠ .unmappedWrite w v := by
    intro o v w hw
    unfold readOp at hw
    split at hw <;> cases hw
  unfold decode at h
  split at h
  · unfold decodeMmio at h
    split at h
    · rcases h with h | ⟨v, h⟩
      · obtain ⟨rfl, ho⟩ := readOp_unmapped (Except.ok.inj h)
        exact ho
      · exact absurd (Except.ok.inj h) (opR _ _ _)
    · split at h
      · rcases h with h | ⟨v, h⟩
        · exact absurd (Except.ok.inj h) (opW _ _ _)
        · obtain ⟨rfl, ho⟩ := writeOp_unmapped (Except.ok.inj h)
          exact ho
      · rcases h with h | ⟨v, h⟩ <;> cases h
    · rcases h with h | ⟨v, h⟩ <;> cases h
  · rcases h with h | ⟨v, h⟩ <;> obtain ⟨i, hi⟩ := api _ h <;> cases hi
  · rcases h with h | ⟨v, h⟩ <;> cases h

/-- In an admitted program the foreground fetches something whenever it is enabled, and never handle_interrupt (rules R46,
R88, R232). -/
theorem State.fetch_admitted {s : State} (hp : s.program.refusal = none) (hk : s.fg.k < s.program.ops.length) :
    ∃ f, s.fetch = .ok f ∧ f ≠ .op .handleInterrupt := by
  have he : s.program.ops[s.fg.k]? = some s.program.ops[s.fg.k] := List.getElem?_eq_getElem hk
  obtain ⟨f, hd, hw⟩ := Entry.refusal_eq_none (Program.refusal_eq_none.1 hp _ (List.getElem_mem hk))
  refine ⟨f, by simp only [State.fetch, he, hd], ?_⟩
  rintro rfl
  have := hw _ rfl
  simp [Instr.WellFormed, Instr.check] at this

/-! ## Everything a step can do -/

/-- Everything a step of the machine that answers a next state can do: `u` is the state with the choice taken (rules R13,
R237). -/
theorem step_cases {s t : State} (h : step s = .next t) :
    ∃ u : State, u = { s with schedule := u.schedule, draws := u.draws } ∧ s.program.refusal = none ∧ s.fault = none ∧
      (t = u ∨
        u.hs = none ∧ (∃ i, u.fetch = .ok (.op i) ∧ i ≠ .handleInterrupt ∧ FgStep i u t) ∨
        u.hs = none ∧ u.fg.lbl = .start ∧ t = u.raise .unmappedAccess .foreground .m0 ∨
        (∃ lbl l, u.hs = some ⟨lbl, l⟩ ∧ HsStep lbl l u t) ∨
        u.dispatchEnabled = true ∧ u.hs = none ∧ t = u.takeInterrupt ∨
        (∃ b rest, u.hw.txctrl.txen = true ∧ u.hw.txfifo = b :: rest ∧
          t = (u.setHw { u.hw with txfifo := rest }).emit (.lineTx b u.hw.txctrl.nstop u.hw.div)) ∨
        ∃ b, u.hw.rxctrl.rxen = true ∧
          (u.occRx < u.params.rxDepth ∧ t = (u.setHw { u.hw with rxfifo := u.hw.rxfifo ++ [b] }).emit (.rxArrive b) ∨
            u.params.rxDepth ≤ u.occRx ∧ t = u.emit (.rxDrop b))) := by
  obtain ⟨hp, hf, hr⟩ := step_eq_next h
  have hu := s.nextChoice_frame
  refine ⟨s.nextChoice.2, hu, hp, hf, ?_⟩
  have hpu : s.nextChoice.2.program.refusal = none := by rw [hu]; exact hp
  generalize s.nextChoice.2 = u at hr hpu ⊢
  have fg : u.foregroundEnabled = true → u.hs = none ∧ u.fg.k < u.program.ops.length := by
    intro e
    simp only [State.foregroundEnabled, Bool.and_eq_true, decide_eq_true_eq, Option.isNone_iff_eq_none] at e
    exact ⟨e.1.2, e.2⟩
  rcases State.runChoice_cases hr with ⟨-, rfl⟩ | ⟨he, ⟨i, hi, hx⟩ | ⟨off, hi, hx⟩ | ⟨off, v, hi, hx⟩⟩ |
    ⟨-, ⟨lbl, l⟩, hh, rfl⟩ | ⟨hd, hn, rfl⟩ | ⟨ht, rfl⟩ | ⟨b, hl, rfl⟩
  · exact .inl rfl
  · obtain ⟨hn, hk⟩ := fg he
    refine .inr (.inl ⟨hn, i, hi, ?_⟩)
    obtain ⟨f, hf, hne⟩ := State.fetch_admitted hpu hk
    rw [hi] at hf
    have hni : i ≠ .handleInterrupt := fun e => hne (by rw [← Except.ok.inj hf, e])
    exact ⟨hni, fgStep_of_exec hni hx⟩
  · obtain ⟨hn, hk⟩ := fg he
    have ho : Reg.ofOffset? off.toNat = none := by
      simp only [State.fetch, List.getElem?_eq_getElem hk] at hi
      exact decode_unmapped (.inl hi)
    by_cases hl : u.fg.lbl = .start
    · rw [mmioRead_unmapped hl ho] at hx
      cases hx
      exact .inr (.inr (.inl ⟨hn, hl, rfl⟩))
    · rcases mmioRead_cases off.toNat u with ⟨-, e⟩ | ⟨hl', -⟩
      · rw [e] at hx
        cases hx
      · exact absurd hl' hl
  · obtain ⟨hn, hk⟩ := fg he
    have ho : Reg.ofOffset? off.toNat = none := by
      simp only [State.fetch, List.getElem?_eq_getElem hk] at hi
      exact decode_unmapped (.inr ⟨v, hi⟩)
    by_cases hl : u.fg.lbl = .start
    · rw [mmioWrite_unmapped hl ho] at hx
      cases hx
      exact .inr (.inr (.inl ⟨hn, hl, rfl⟩))
    · rcases mmioWrite_cases off.toNat v u with ⟨-, e⟩ | ⟨hl', -⟩
      · rw [e] at hx
        cases hx
      · exact absurd hl' hl
  · exact .inr (.inr (.inr (.inl ⟨lbl, l, hh, hsStep_handlerStep lbl l u⟩)))
  · exact .inr (.inr (.inr (.inr (.inl ⟨hd, hn, rfl⟩))))
  · obtain ⟨b, rest, hq, hx, e⟩ := State.transmit_enabled ht
    exact .inr (.inr (.inr (.inr (.inr (.inl ⟨b, rest, hx, hq, e⟩)))))
  · refine .inr (.inr (.inr (.inr (.inr (.inr ⟨b, ?_, State.receive_enabled hl b⟩)))))
    simp only [State.lineEnabled, Bool.and_eq_true] at hl
    exact hl.2

end Sys2Proof.Machine
end

