-- ==== Sys2Proof/Machine/Text.lean ====
section
/-! DEFINITION. The textual form of a program (rule R91): one operation or one buffer declaration a line, read into the
descriptors and operands of `Program`. Blank lines are admitted and spaces between tokens are free, and the lexical form
of names and numbers is the model's (DESIGN CHOICE, log entry 16; safe). -/

namespace Sys2Proof.Machine.Text

/-- A token of a line. -/
inductive Token where
  | word (cs : List Char)
  | comma
  | lbrack
  | rbrack
  | equals
  deriving DecidableEq, Repr

/-- The punctuation of rule R91. -/
def punct : Char → Option Token
  | ',' => some .comma
  | '[' => some .lbrack
  | ']' => some .rbrack
  | '=' => some .equals
  | _ => none

/-- A letter of a word: names, numbers, and the dot and underscore of the operation names. Rule R91 gives no lexical form
of a buffer's or a client's name: here a name is a run of ASCII letters, digits, underscores and dots, and a text with
any other character in it parses to none (DESIGN CHOICE, log entry 16; safe). -/
def isWordChar (c : Char) : Bool := c.isAlphanum || c = '_' || c = '.'

/-- Close the word read so far, `acc` being its letters last first. -/
def flush (acc : List Char) (rest : List Token) : List Token :=
  if acc = [] then rest else .word acc.reverse :: rest

/-- The tokens of a line; `none` where a character belongs to none. -/
def tokens : List Char → List Char → Option (List Token)
  | [], acc => some (flush acc [])
  | c :: cs, acc =>
    if isWordChar c then tokens cs (c :: acc)
    else if c = ' ' || c = '\t' || c = '\r' then (tokens cs []).map (flush acc)
    else match punct c with
      | some t => (tokens cs []).map fun r => flush acc (t :: r)
      | none => none

/-- The value of a digit, up to base 16. -/
def digit (c : Char) : Option Nat :=
  if '0' ≤ c ∧ c ≤ '9' then some (c.toNat - '0'.toNat)
  else if 'a' ≤ c ∧ c ≤ 'f' then some (c.toNat - 'a'.toNat + 10)
  else if 'A' ≤ c ∧ c ≤ 'F' then some (c.toNat - 'A'.toNat + 10)
  else none

/-- The digits of a number in base `b`, first digit first, after the value `n`. -/
def digits (b : Nat) : List Char → Nat → Option Nat
  | [], n => some n
  | c :: cs, n =>
    match digit c with
    | some d => if d < b then digits b cs (n * b + d) else none
    | none => none

/-- A number: decimal, or hexadecimal after `0x` (rule R91). The `x` is lower case, the digits of either case, and leading
zeros are admitted (DESIGN CHOICE, log entry 16; safe). -/
def number : List Char → Option Nat
  | '0' :: 'x' :: c :: cs => digits 16 (c :: cs) 0
  | c :: cs => digits 10 (c :: cs) 0
  | [] => none

/-- Numbers separated by commas up to the closing bracket, which ends the line. -/
def numbers : List Token → Option (List Nat)
  | [.word w, .rbrack] => (number w).map fun n => [n]
  | .word w :: .comma :: rest =>
    match number w, numbers rest with
    | some n, some l => some (n :: l)
    | _, _ => none
  | _ => none

/-- A list after its opening bracket. -/
def listTail (ts : List Token) : Option (List Nat) := if ts = [.rbrack] then some [] else numbers ts

/-- The names of the seven registers (rule R91). -/
def regOf (w : List Char) : Option Reg :=
  if w = "txdata".toList then some .txdata
  else if w = "rxdata".toList then some .rxdata
  else if w = "txctrl".toList then some .txctrl
  else if w = "rxctrl".toList then some .rxctrl
  else if w = "ie".toList then some .ie
  else if w = "ip".toList then some .ip
  else if w = "div".toList then some .div
  else none

/-- A word of a closed set, with its operand number (rule R87). -/
def keyword : List (String × Nat) → List Char → Option Operand
  | [], _ => none
  | (k, n) :: rest, w => if w = k.toList then some (.num n) else keyword rest w

/-- The declared buffers of a text by name. -/
abbrev Names := List (List Char × Buffer)

/-- The buffer of a name. -/
def bufferOf : Names → List Char → Option Operand
  | [], _ => none
  | (k, b) :: rest, w => if w = k then some (.buffer b) else bufferOf rest w

/-- The place of a client's name among the names seen so far; a new name takes the next place. -/
def clientOf (seen : List (List Char)) (w : List Char) : ClientId × List (List Char) :=
  if w ∈ seen then (⟨seen.idxOf w⟩, seen) else (⟨seen.length⟩, seen ++ [w])

/-- An operation that takes no operand: its descriptor (rules R86, R91). -/
def plainOp (w : List Char) : Option Byte :=
  if w = "transmit_abort".toList then some 0x43#8
  else if w = "receive_abort".toList then some 0x46#8
  else if w = "receive_word".toList then some 0x47#8
  else none

/-- An operation that takes a buffer and a length: its descriptor. -/
def bufferOp (w : List Char) : Option Byte :=
  if w = "transmit_buffer".toList then some 0x42#8
  else if w = "receive_buffer".toList then some 0x45#8
  else none

/-- An operation that takes a client: its descriptor. -/
def clientOp (w : List Char) : Option Byte :=
  if w = "set_transmit_client".toList then some 0x48#8
  else if w = "set_receive_client".toList then some 0x49#8
  else none

/-- The MMIO descriptor of an access to `r` (rules R84, R85). -/
def mmioDesc (write : Bool) (r : Reg) : Byte :=
  (if write then 0x80#8 else 0#8) ||| BitVec.ofNat 8 r.offset

/-- One operation line (rule R91): the entry, and the client names seen. `none` where the line is none of the forms of
rule R91 or names an undeclared buffer. -/
def opLine (names : Names) (seen : List (List Char)) (ts : List Token) : Option (Entry × List (List Char)) :=
  match ts with
  | [.word o] => (plainOp o).map fun d => (⟨d, []⟩, seen)
  | [.word o, .word a] =>
    if o = "mmio.r".toList then (regOf a).map fun r => (⟨mmioDesc false r, []⟩, seen)
    else if o = "transmit_word".toList then (number a).map fun n => (⟨0x44#8, [.num n]⟩, seen)
    else (clientOp o).map fun d => (⟨d, [.client (clientOf seen a).1]⟩, (clientOf seen a).2)
  | [.word o, .word a, .comma, .word b] =>
    if o = "mmio.w".toList then do
      let r ← regOf a
      let v ← number b
      return (⟨mmioDesc true r, [.num v]⟩, seen)
    else do
      let d ← bufferOp o
      let buf ← bufferOf names a
      let n ← number b
      return (⟨d, [buf, .num n]⟩, seen)
  | [.word o, .word a, .comma, .word b, .comma, .word c, .comma, .word d] =>
    if o = "configure".toList then do
      let baud ← number a
      let parity ← keyword [("none", 0), ("odd", 1), ("even", 2)] b
      let flow ← keyword [("false", 0), ("true", 1)] c
      let stop ← keyword [("one", 0), ("two", 1)] d
      return (⟨0x40#8, [.num baud, parity, flow, stop]⟩, seen)
    else none
  | .word o :: .lbrack :: rest =>
    if o = "transmit_sync".toList then (listTail rest).map fun l => (⟨0x41#8, [.bytes l]⟩, seen) else none
  | _ => none

/-- One declaration line, `buf <name> = id <n>, [<bytes>]` (rule R91). -/
def bufLine (ts : List Token) : Option (List Char × Buffer) :=
  match ts with
  | .word k :: .word name :: .equals :: .word i :: .word n :: .comma :: .lbrack :: rest =>
    if k = "buf".toList ∧ i = "id".toList then do
      let id ← number n
      let nums ← listTail rest
      let data ← bytesOf nums
      return (name, ⟨⟨id⟩, data⟩)
    else none
  | _ => none

/-- A line declares a buffer. -/
def isBufLine : List Token → Bool
  | .word k :: _ => k = "buf".toList
  | _ => false

/-- The lines of a text. -/
def lines : List Char → List Char → List (List Char)
  | [], acc => [acc.reverse]
  | c :: cs, acc => if c = '\n' then acc.reverse :: lines cs [] else lines cs (c :: acc)

/-- The tokens of every line that is not blank. -/
def tokenLines : List (List Char) → Option (List (List Token))
  | [] => some []
  | l :: rest =>
    match tokens l [], tokenLines rest with
    | some ts, some r => some (if ts = [] then r else ts :: r)
    | _, _ => none

/-- The declared buffers, one for each declaration line, in order. Neither rule R91 nor rule R38 says what two declarations
with one id number are: here they are two declared buffers, each with its own bytes, that share an identity (DESIGN
CHOICE, log entry 19; unsafe for such a program). -/
def declared : List (List Token) → Option Names
  | [] => some []
  | ts :: rest =>
    if isBufLine ts then
      match bufLine ts, declared rest with
      | some b, some r => some (b :: r)
      | _, _ => none
    else declared rest

/-- The operations, in order. -/
def operations (names : Names) : List (List Char) → List (List Token) → Option (List Entry)
  | _, [] => some []
  | seen, ts :: rest =>
    if isBufLine ts then operations names seen rest
    else match opLine names seen ts with
      | none => none
      | some (e, seen') => (operations names seen' rest).map (e :: ·)

/-- The program a text stands for (rule R91); `none` where a line has none of the forms of rule R91. -/
def parse (text : List Char) : Option Program := do
  let ls ← tokenLines (lines text [])
  let names ← declared ls
  let ops ← operations names [] ls
  return ⟨names.map (·.2), ops⟩

end Sys2Proof.Machine.Text
end

