-- ==== Sys2Proof/Tests/Slice0.lean ====
section
/-! SUPPORT. The model's own tests: each ill-formed term refused by its check, each constructor's decoding from a word
written out, one micro-step or one short operation at a time against the vectors of spec/95_test_vectors.md, and for each
statement with hypotheses a state and operands that meet them. Expected values are the spec's. -/

namespace Sys2Proof.Tests

open Sys2Proof Sys2Proof.Machine

/-! ## Builders -/

/-- The reset state with depth 8, the clock of the vectors and the decided parameters. -/
def dev : State := .launch (.decided 8 8 0x1234 0) 0x10013000 16000000

/-- What `f` reads of the next state an outcome answers. -/
def got {α : Type} (f : State → α) : Out → Option α
  | .next t => some (f t)
  | _ => none

/-- `s` with the one-operation program `i`. -/
def prog (i : Instr) (s : State) : State := { s with program := ⟨i.buffer?.toList, [encode i]⟩ }

/-- `s` with the foreground at `l`. -/
def atFg (l : FgLabel) (s : State) : State := { s with fg := ⟨0, l, .empty⟩ }

/-- `s` with the handler at `l`. -/
def atHs (l : HsLabel) (s : State) : State := { s with hs := some ⟨l, .empty⟩ }

/-- `s` with the choices `cs`. -/
def sched (cs : List Choice) (s : State) : State := { s with schedule := cs }

/-- The ten-byte buffer of the vectors. -/
def b10 : Buffer := ⟨⟨1⟩, List.replicate 10 0x41#8⟩

/-- A three-byte buffer. -/
def b3 : Buffer := ⟨⟨2⟩, [1#8, 2#8, 3#8]⟩

/-- `dev` with a transmit FIFO of `n` bytes. -/
def fifo (n : Nat) : State := { dev with hw := { dev.hw with txfifo := List.replicate n 0x55#8 } }

/-- `s` with the foreground at `l`, its locals `loc`. -/
def fgWith (l : FgLabel) (loc : FgLocals) (s : State) : State := { s with fg := ⟨0, l, loc⟩ }

/-- `s` with the handler at `l`, its locals `loc`. -/
def hsWith (l : HsLabel) (loc : HsLocals) (s : State) : State := { s with hs := some ⟨l, loc⟩ }

/-- A transfer of `b10` in flight with the cursor at `c`, the FIFO empty (vectors V6.4 to V6.7). -/
def inFlight (c : Word) : State :=
  { dev with
    hw := { dev.hw with txctrl := ⟨true, false, 1⟩, ie := ⟨true, false⟩ }
    drv := { dev.drv with slot := some b10, length := 10, cursor := c, busy := true } }

/-- `s` with a full FIFO. -/
def filled (s : State) : State := { s with hw := { s.hw with txfifo := List.replicate 8 0x55#8 } }

/-- `s` with transmit client 1. -/
def registered (s : State) : State := { s with drv := { s.drv with txClient := some ⟨1⟩ } }

/-- `s` with an empty slot. -/
def emptied (s : State) : State := { s with drv := { s.drv with slot := none } }

/-- `s` under `DONE_WRITE_MODE = ClearField`. -/
def clearField (s : State) : State := { s with params := { s.params with doneWriteMode := .clearField } }

/-- `s` under `TX_OVERFLOW = Drop`. -/
def dropMode (s : State) : State := { s with params := { s.params with txOverflow := .drop } }

/-- `s` under another fill order. -/
def checkFirst (s : State) : State := { s with params := { s.params with fillOrder := .checkThenWrite } }

/-! ## Well-formedness and refusal -/

theorem test_wf_handlerInProgram : Instr.check [] .handleInterrupt = some .handlerInProgram := by decide

theorem test_wf_undeclaredTransmit :
    Instr.check [b3] (.transmitBuffer b10 1#32) = some (.undeclaredBuffer ⟨1⟩) ∧
      Instr.check [b10] (.transmitBuffer b10 1#32) = none := by decide

theorem test_wf_undeclaredReceive :
    Instr.check [] (.receiveBuffer b3 1#32) = some (.undeclaredBuffer ⟨2⟩) ∧
      Instr.check [b3] (.receiveBuffer b3 1#32) = none := by decide

theorem test_refused_descriptor :
    Program.refusal ⟨[], [⟨0x00#8, []⟩, ⟨0x20#8, []⟩]⟩ = some (1, .reservedDescriptor 0x20#8) ∧
      Program.refusal ⟨[], [⟨0x4B#8, []⟩]⟩ = some (0, .reservedDescriptor 0x4B#8) ∧
      Program.refusal ⟨[], [⟨0xC0#8, []⟩]⟩ = some (0, .reservedDescriptor 0xC0#8) := by decide

theorem test_refused_operand :
    Program.refusal ⟨[], [⟨0x90#8, [.num (2 ^ 32)]⟩]⟩ = some (0, .operandType 0x90#8) ∧
      Program.refusal ⟨[], [⟨0x41#8, [.bytes [256]]⟩]⟩ = some (0, .operandType 0x41#8) ∧
      Program.refusal ⟨[], [⟨0x40#8, [.num 9600, .num 3, .num 0, .num 0]⟩]⟩ = some (0, .operandType 0x40#8) := by
  decide

theorem test_refused_handler :
    Program.refusal ⟨[], [⟨0x4A#8, []⟩]⟩ = some (0, .handlerInProgram) := by decide

/-! ## Decoding, each word written out from rules R84 to R86: W, format, offset or number -/

theorem test_decode_reads :
    decode ⟨0b0_00_00000#8, []⟩ = .ok (.op .mmioRTxdata) ∧ decode ⟨0b0_00_00100#8, []⟩ = .ok (.op .mmioRRxdata) ∧
      decode ⟨0b0_00_01000#8, []⟩ = .ok (.op .mmioRTxctrl) ∧ decode ⟨0b0_00_01100#8, []⟩ = .ok (.op .mmioRRxctrl) ∧
      decode ⟨0b0_00_10000#8, []⟩ = .ok (.op .mmioRIe) ∧ decode ⟨0b0_00_10100#8, []⟩ = .ok (.op .mmioRIp) ∧
      decode ⟨0b0_00_11000#8, []⟩ = .ok (.op .mmioRDiv) := by decide

theorem test_decode_writes :
    decode ⟨0b1_00_00000#8, [.num 1]⟩ = .ok (.op (.mmioWTxdata 1#32)) ∧
      decode ⟨0b1_00_00100#8, [.num 2]⟩ = .ok (.op (.mmioWRxdata 2#32)) ∧
      decode ⟨0b1_00_01000#8, [.num 3]⟩ = .ok (.op (.mmioWTxctrl 3#32)) ∧
      decode ⟨0b1_00_01100#8, [.num 4]⟩ = .ok (.op (.mmioWRxctrl 4#32)) ∧
      decode ⟨0b1_00_10000#8, [.num 5]⟩ = .ok (.op (.mmioWIe 5#32)) ∧
      decode ⟨0b1_00_10100#8, [.num 6]⟩ = .ok (.op (.mmioWIp 6#32)) ∧
      decode ⟨0b1_00_11000#8, [.num 0xFFFFFFFF]⟩ = .ok (.op (.mmioWDiv 0xFFFFFFFF#32)) := by decide

theorem test_decode_api :
    decode ⟨0b0_10_00000#8, [.num 115200, .num 2, .num 1, .num 0]⟩ = .ok (.op (.configure 115200#32 .even true .one)) ∧
      decode ⟨0b0_10_00001#8, [.bytes [0, 255]]⟩ = .ok (.op (.transmitSync [0#8, 255#8])) ∧
      decode ⟨0b0_10_00010#8, [.buffer b10, .num 10]⟩ = .ok (.op (.transmitBuffer b10 10#32)) ∧
      decode ⟨0b0_10_00011#8, []⟩ = .ok (.op .transmitAbort) ∧
      decode ⟨0b0_10_00100#8, [.num 0x41]⟩ = .ok (.op (.transmitWord 0x41#32)) ∧
      decode ⟨0b0_10_00101#8, [.buffer b3, .num 4]⟩ = .ok (.op (.receiveBuffer b3 4#32)) := by decide

theorem test_decode_api_rest :
    decode ⟨0b0_10_00110#8, []⟩ = .ok (.op .receiveAbort) ∧ decode ⟨0b0_10_00111#8, []⟩ = .ok (.op .receiveWord) ∧
      decode ⟨0b0_10_01000#8, [.client ⟨1⟩]⟩ = .ok (.op (.setTransmitClient ⟨1⟩)) ∧
      decode ⟨0b0_10_01001#8, [.client ⟨3⟩]⟩ = .ok (.op (.setReceiveClient ⟨3⟩)) ∧
      decode ⟨0b0_10_01010#8, []⟩ = .ok (.op .handleInterrupt) := by decide

theorem test_decode_unmapped :
    decode ⟨0x1C#8, []⟩ = .ok (.unmappedRead 0x1C#5) ∧
      decode ⟨0x82#8, [.num 7]⟩ = .ok (.unmappedWrite 0x02#5 7#32) := by decide

theorem test_encode_configure :
    encode (.configure 9600#32 .odd false .two) = ⟨0x40#8, [.num 9600, .num 1, .num 0, .num 1]⟩ := by decide

/-- Rule R91: a text of each line form. -/
theorem test_text :
    Text.parse "buf B = id 7, [0x41, 2]\nmmio.w txctrl, 0x00010001\ntransmit_buffer B, 2\nconfigure 9600, odd, false, two".toList
      = some ⟨[⟨⟨7⟩, [0x41#8, 2#8]⟩], [⟨0x88#8, [.num 0x00010001]⟩, ⟨0x42#8, [.buffer ⟨⟨7⟩, [0x41#8, 2#8]⟩, .num 2]⟩,
        ⟨0x40#8, [.num 9600, .num 1, .num 0, .num 1]⟩]⟩ := by decide

theorem test_text_ops :
    Text.parse "mmio.r ip\ntransmit_sync [1]\ntransmit_abort\nset_transmit_client c1\nset_receive_client c2".toList
      = some ⟨[], [⟨0x14#8, []⟩, ⟨0x41#8, [.bytes [1]]⟩, ⟨0x43#8, []⟩, ⟨0x48#8, [.client ⟨0⟩]⟩,
        ⟨0x49#8, [.client ⟨1⟩]⟩]⟩ := by decide

/-! ## Placing an operation -/

theorem test_withFetchWord :
    got (·.trace) (step (State.reset.withFetchWord 8 0x43)) = some [.ret 0 (.result .generalFailure)] ∧
      got (·.fault) (step (dev.withFetchWord 8 0x94)) = some (some ⟨.readOnlyWrite, .foreground, 0, .m0⟩) ∧
      got (·.trace) (step (dev.withFetchWord 8 0x4A)) = some [.mmio .handler .read 0x14 0#32] := by decide

theorem test_decodeTableWord :
    decodeTableWord 8 0x14 = some .mmioRIp ∧ decodeTableWord 8 0x4A = some .handleInterrupt ∧
      decodeTableWord 8 0x4B = none ∧ decodeTableWord 8 0x20 = none := by decide

/-! ## Register accesses (vectors V1) -/

/-- V1.4 and V1.23: bit 31 of a txdata read; the other bits are a draw. -/
theorem test_readTxdata :
    (fifo 8).full = true ∧ (fifo 7).full = false ∧
      got (·.draws) (exec .mmioRTxdata dev) = some 1 := by decide

/-- V1.20: bit 31 is ignored. -/
theorem test_writeTxdata : got (·.hw.txfifo) (exec (.mmioWTxdata 0x80000041#32) dev) = some [0x41#8] := by decide

/-- V1.22: a full FIFO. -/
theorem test_writeTxdata_full :
    got (·.fault) (exec (.mmioWTxdata 0x42#32) (fifo 8)) = some (some ⟨.txOverflow, .foreground, 0, .m0⟩) := by decide

/-- V1.28 and V1.29: the head goes. -/
theorem test_readRxdata :
    got (fun t => (t.hw.rxfifo, t.trace))
      (exec .mmioRRxdata { dev with hw := { dev.hw with rxfifo := [0x55#8, 0x66#8] } }) =
      some ([0x66#8], [.mmio .foreground .read 0x04 0x55#32, .ret 0 (.word 0x55#32)]) := by decide

/-- V1.17. -/
theorem test_writeRxdata :
    got (·.fault) (exec (.mmioWRxdata 0x41#32) dev) = some (some ⟨.readOnlyWrite, .foreground, 0, .m0⟩) := by decide

/-- V1.9: read back. -/
theorem test_readTxctrl :
    got (·.trace) (exec .mmioRTxctrl { dev with hw := { dev.hw with txctrl := ⟨true, true, 7⟩ } }) =
      some [.mmio .foreground .read 0x08 0x00070003#32, .ret 0 (.word 0x00070003#32)] := by decide

/-- V1.9. -/
theorem test_writeTxctrl : got (·.hw.txctrl) (exec (.mmioWTxctrl 0x00070003#32) dev) = some ⟨true, true, 7⟩ := by decide

/-- V1.10 and V1.11: reserved bits 2 and 19. -/
theorem test_writeTxctrl_reserved :
    got (·.fault.isSome) (exec (.mmioWTxctrl 0x00000004#32) dev) = some true ∧
      got (·.fault.isSome) (exec (.mmioWTxctrl 0x00080000#32) dev) = some true := by decide

theorem test_readRxctrl :
    got (·.trace) (exec .mmioRRxctrl { dev with hw := { dev.hw with rxctrl := ⟨true, 5⟩ } }) =
      some [.mmio .foreground .read 0x0C 0x00050001#32, .ret 0 (.word 0x00050001#32)] := by decide

/-- V1.12 and V1.13: bit 1 is reserved in rxctrl. -/
theorem test_writeRxctrl :
    got (·.hw.rxctrl) (exec (.mmioWRxctrl 0x00070001#32) dev) = some ⟨true, 7⟩ ∧
      got (·.fault.isSome) (exec (.mmioWRxctrl 0x00000002#32) dev) = some true := by decide

theorem test_readIe :
    got (·.trace) (exec .mmioRIe { dev with hw := { dev.hw with ie := ⟨false, true⟩ } }) =
      some [.mmio .foreground .read 0x10 2#32, .ret 0 (.word 2#32)] := by decide

/-- V1.14 and V1.15. -/
theorem test_writeIe :
    got (fun t => (t.hw.ie, t.irq)) (exec (.mmioWIe 3#32) dev) = some (⟨true, true⟩, false) ∧
      got (·.fault.isSome) (exec (.mmioWIe 4#32) dev) = some true := by decide

/-- V1.26 and V1.27: one byte below a trigger count of 2, two not. -/
theorem test_readIp :
    got (fun t => t.trace.drop 1)
        (exec .mmioRIp { fifo 1 with hw := { (fifo 1).hw with txctrl := ⟨true, false, 2⟩ } }) =
      some [.ret 0 (.word 1#32)] ∧
    got (fun t => t.trace.drop 1)
        (exec .mmioRIp { fifo 2 with hw := { (fifo 2).hw with txctrl := ⟨true, false, 2⟩ } }) =
      some [.ret 0 (.word 0#32)] := by decide

/-- V1.28: the receive watermark. -/
theorem test_readIp_receive :
    got (fun t => t.trace.drop 1) (exec .mmioRIp { dev with hw := { dev.hw with rxfifo := [0x55#8] } }) =
      some [.ret 0 (.word 2#32)] := by decide

/-- V1.16. -/
theorem test_writeIp :
    got (·.fault) (exec (.mmioWIp 0#32) dev) = some (some ⟨.readOnlyWrite, .foreground, 0, .m0⟩) := by decide

/-- V1.6. -/
theorem test_readDiv :
    got (fun t => t.trace.drop 1) (exec .mmioRDiv dev) = some [.ret 0 (.word 0x1234#32)] := by decide

/-- V1.18 and V1.19. -/
theorem test_writeDiv :
    got (·.hw.div) (exec (.mmioWDiv 0x0000FFFF#32) dev) = some 0xFFFF#16 ∧
      got (·.fault.isSome) (exec (.mmioWDiv 0x00010000#32) dev) = some true := by decide

/-! ## Hardware agents (vectors V2, V1.30) -/

/-- V2.1 and V2.2. -/
theorem test_transmitter :
    got (fun t => (t.hw.txfifo, t.trace)) (step (sched [.transmitter]
        { dev with hw := { dev.hw with txctrl := ⟨true, true, 1⟩, div := 137, txfifo := [0x41#8, 0x42#8] } })) =
      some ([0x42#8], [.lineTx 0x41#8 true 137#16]) ∧
    got (fun t => (t.hw.txfifo.length, t.trace)) (step (sched [.transmitter] (fifo 1))) = some (1, []) := by decide

/-- V1.30: overrun. -/
theorem test_line :
    got (fun t => (t.hw.rxfifo.length, t.trace)) (step (sched [.line 9#8]
        { dev with hw := { dev.hw with rxctrl := ⟨true, 0⟩, rxfifo := List.replicate 8 1#8 } })) =
      some (8, [.rxDrop 9#8]) := by decide

/-! ## configure (vectors V3) -/

/-- V3.2: div 1665, two stop bits. -/
theorem test_configure :
    got (fun t => (t.hw.div, t.drv.stop, t.trace))
        (execTimes (.configure 9600#32 .none false .two) 3 dev) =
      some (1665#16, .two, [.mmio .foreground .write 0x18 0x681#32, .ret 0 (.result .success)]) := by decide

/-- V3.4 and V3.5: the last baud rate whose divisor fits at this clock, and the next. -/
theorem test_configure_overflow :
    got (·.fg.loc.d) (exec (.configure 245#32 .none false .one) dev) = some 0xFF19#32 ∧
      got (·.fault) (exec (.configure 244#32 .none false .one) dev) =
        some (some ⟨.configDivisorOverflow, .foreground, 0, .cf0⟩) := by decide

/-! ## transmit_sync (vectors V4) -/

/-- V4.1: TS0 and TS1, and the write of the last byte. -/
theorem test_transmitSync :
    got (fun t => (t.hw.txctrl, t.fg.lbl)) (execTimes (.transmitSync [0x48#8, 0x69#8]) 2 dev) =
      some (⟨true, false, 1⟩, .ts2) ∧
    got (fun t => (t.hw.txfifo, t.fg.lbl))
        (exec (.transmitSync [0x48#8, 0x69#8]) { fifo 1 with fg := ⟨0, .ts3, ⟨1, none, 0⟩⟩ }) =
      some ([0x55#8, 0x69#8], .ts4) := by decide

/-- V4.2 and V4.5. -/
theorem test_transmitSync_ends :
    got (·.trace) (execTimes (.transmitSync []) 3 dev) =
        some [.mmio .foreground .write 0x08 0x00010001#32, .ret 0 .none] ∧
      got (·.fault) (exec (.transmitSync [0x41#8]) (inFlight 4)) =
        some (some ⟨.syncWhileBusy, .foreground, 0, .ts0⟩) := by decide

/-! ## transmit_buffer, transmit_abort, transmit_word (vectors V5) -/

/-- V5.8, the first three micro-steps and TB5 to TB7: two of three bytes are to be sent. -/
theorem test_transmitBuffer :
    got (fun t => (t.hw.txfifo, t.drv.busy, t.drv.slot)) (execTimes (.transmitBuffer b3 2#32) 3 dev) =
      some ([1#8], true, none) ∧
    got (fun t => (t.drv.slot, t.drv.length, t.hw.txctrl)) (execTimes (.transmitBuffer b3 2#32) 3
        { dev with drv := { dev.drv with stop := .two }, fg := ⟨0, .tb5, ⟨2, some b3, 0⟩⟩ }) =
      some (some b3, 2#32, ⟨true, true, 1⟩) := by decide

/-- V5.10: a full FIFO under `WriteThenCheck`, after TB0 and TB1. -/
theorem test_transmitBuffer_full :
    got (fun t => (t.fault, t.drv.busy, t.hw.ie.txwm)) (execTimes (.transmitBuffer b3 1#32) 3 (fifo 8)) =
      some (some ⟨.txOverflow, .foreground, 0, .tb2⟩, true, true) := by decide

/-- V5.11. -/
theorem test_transmitAbort :
    got (fun t => (t.trace, t.drv.slot)) (exec .transmitAbort (inFlight 4)) =
      some ([.ret 0 (.result .generalFailure)], some b10) := by decide

/-- V5.12. -/
theorem test_transmitWord :
    got (fun t => (t.trace, t.hw.txfifo)) (exec (.transmitWord 0x41#32) dev) =
      some ([.ret 0 (.result .generalFailure)], []) := by decide

/-! ## handle_interrupt and dispatch (vectors V6, V8) -/

/-- V6.6: completion with a client. -/
theorem test_handler_completes :
    got (fun t => (t.drv.slot, t.drv.busy, t.hw.txctrl, t.hw.ie, t.trace.drop 3))
        (execTimes .handleInterrupt 5 (atHs .h0
          { inFlight 10 with drv := { (inFlight 10).drv with txClient := some ⟨1⟩ } })) =
      some (none, false, ⟨false, false, 0⟩, ⟨false, false⟩, [.callback ⟨1⟩ b10 10#32 .success]) := by decide

/-- V6.9: the index at the buffer's end. -/
theorem test_handler_index :
    got (·.fault) (execTimes .handleInterrupt 4 (atHs .h0
        { inFlight 2 with drv := { (inFlight 2).drv with slot := some ⟨⟨1⟩, [1#8, 2#8]⟩, length := 5 } })) =
      some (some ⟨.handlerIndexOutOfRange, .handler, 0, .h6⟩) := by decide

/-- V8.1 and V8.2: irq low, with and without spurious dispatch; V8.5. -/
theorem test_dispatch :
    State.dispatchEnabled { dev with params := { dev.params with spuriousIrq := false } } = false ∧
      got (·.trace) (step (sched [.dispatch] dev)) = some [.dispatch true] ∧
      (atFg .tb2 { inFlight 4 with params := { dev.params with atomicDriverOps := true } }).dispatchEnabled = false := by
  decide

/-! ## Receive stubs and clients (vectors V7) -/

/-- V7.1. -/
theorem test_receiveBuffer :
    got (·.trace) (exec (.receiveBuffer b3 4#32) dev) = some [.ret 0 (.resultBuffer .generalFailure (some b3))] := by
  decide

/-- V7.3. -/
theorem test_receiveAbort :
    got (·.trace) (exec .receiveAbort dev) = some [.ret 0 (.result .generalFailure)] := by decide

/-- V7.4: rxdata is not read. -/
theorem test_receiveWord :
    got (·.hw.rxfifo) (exec .receiveWord { dev with hw := { dev.hw with rxfifo := [1#8] } }) = some [1#8] := by decide

/-- V7.5. -/
theorem test_setTransmitClient :
    got (·.drv.txClient) (exec (.setTransmitClient ⟨2⟩) { dev with drv := { dev.drv with txClient := some ⟨1⟩ } }) =
      some (some ⟨2⟩) := by decide

/-- V7.6. -/
theorem test_setReceiveClient :
    got (fun t => (t.drv.rxClient, t.drv.txClient)) (exec (.setReceiveClient ⟨3⟩) dev) = some (some ⟨3⟩, none) := by
  decide

/-! ## Witnesses: for each statement with hypotheses a state and operands that meet them, at the ends of each clause -/

/-- `dev` about to run program `p` under the choices `cs`. -/
def run (p : Program) (cs : List Choice) (s : State) : State := { s with program := p, schedule := cs }

/-- A program that transmits `b10` and reads ip. -/
def program : Program := ⟨[b10], [encode (.transmitBuffer b10 10#32), encode .mmioRIp]⟩

/-- `fifo n` with the transmitter on. -/
def sending (n : Nat) : State := { fifo n with hw := { (fifo n).hw with txctrl := ⟨true, true, 1⟩ } }

/-- `dev` with a receive FIFO of `n` bytes, the receiver on or off. -/
def received (n : Nat) (on : Bool) : State :=
  { dev with hw := { dev.hw with rxctrl := ⟨on, 0⟩, rxfifo := List.replicate n 1#8 } }

/-- `dev` under `TX_OVERFLOW = Drop`, with a full FIFO. -/
def dropping : State := dropMode (fifo 8)

/-- `dev` with dispatch only between operations and only while irq holds. -/
def atomic (s : State) : State := { s with params := { s.params with atomicDriverOps := true, spuriousIrq := false } }

/-- A faulted state. -/
def faulted : State := { dev with fault := some ⟨.txOverflow, .handler, 0, .h6⟩ }

theorem witness_TxdataReadShowsFull :
    (fifo 8).fg.lbl = .start ∧ (fifo 8).hw.txfifo.length = (fifo 8).params.txDepth ∧
      (fifo 7).fg.lbl = .start ∧ (fifo 7).hw.txfifo.length ≠ (fifo 7).params.txDepth := by decide

theorem witness_RxdataReadPopsHead :
    (received 1 true).fg.lbl = .start ∧ (received 1 true).hw.rxfifo = [1#8] ∧
      (received 0 true).fg.lbl = .start ∧ (received 0 true).hw.rxfifo = [] := by decide

theorem witness_ControlReadsReturnFields :
    ∃ (s : State) (r : Word), s.fg.lbl = .start ∧ r = 0x00070003#32 ∧
      r = s.hw.txctrl.txcnt.setWidth 32 <<< 16 ||| (if s.hw.txctrl.nstop then 2#32 else 0#32) |||
        (if s.hw.txctrl.txen then 1#32 else 0#32) :=
  ⟨{ dev with hw := { dev.hw with txctrl := ⟨true, true, 7⟩ } }, 0x00070003#32, by decide⟩

/-- One byte below the trigger count, and at it. -/
theorem witness_IpReadShowsLevels :
    (sending 0).fg.lbl = .start ∧ (sending 0).hw.txfifo.length < (sending 0).hw.txctrl.txcnt.toNat ∧
      (sending 1).fg.lbl = .start ∧ ¬ (sending 1).hw.txfifo.length < (sending 1).hw.txctrl.txcnt.toNat ∧
      (received 1 true).fg.lbl = .start ∧
      (received 1 true).hw.rxctrl.rxcnt.toNat < (received 1 true).hw.rxfifo.length := by decide

/-- One free place, bit 31 set. -/
theorem witness_TxdataWriteEnqueues :
    (fifo 7).fg.lbl = .start ∧ (0x800000FF#32).extractLsb' 8 23 = 0#23 ∧
      (fifo 7).hw.txfifo.length < (fifo 7).params.txDepth := by decide

theorem witness_TxdataWriteToFullFifo :
    (fifo 8).fg.lbl = .start ∧ (0x41#32).extractLsb' 8 23 = 0#23 ∧
      (fifo 8).params.txDepth ≤ (fifo 8).hw.txfifo.length ∧ (fifo 8).params.txOverflow = .fault ∧
      dropping.fg.lbl = .start ∧ dropping.params.txDepth ≤ dropping.hw.txfifo.length ∧
      dropping.params.txOverflow = .drop := by decide

/-- All writable bits set. -/
theorem witness_ControlWritesStoreFields :
    dev.fg.lbl = .start ∧
      (0x00070003#32).extractLsb' 19 13 = 0#13 ∧ (0x00070003#32).extractLsb' 2 14 = 0#14 ∧
      (0x00070001#32).extractLsb' 19 13 = 0#13 ∧ (0x00070001#32).extractLsb' 1 15 = 0#15 ∧
      (3#32).extractLsb' 2 30 = 0#30 ∧ (0xFFFF#32).toNat ≤ 0xFFFF := by decide

/-- The lowest and the highest reserved bit of each field. -/
theorem witness_ReservedBitsFault :
    dev.fg.lbl = .start ∧
      (0x00000100#32).extractLsb' 8 23 ≠ 0#23 ∧ (0x40000000#32).extractLsb' 8 23 ≠ 0#23 ∧
      (0x00080000#32).extractLsb' 19 13 ≠ 0#13 ∧ (0x80000000#32).extractLsb' 19 13 ≠ 0#13 ∧
      (0x00000004#32).extractLsb' 2 14 ≠ 0#14 ∧ (0x00008000#32).extractLsb' 2 14 ≠ 0#14 ∧
      (0x00000002#32).extractLsb' 1 15 ≠ 0#15 ∧ (0x00000004#32).extractLsb' 2 30 ≠ 0#30 ∧
      (0x80000000#32).extractLsb' 2 30 ≠ 0#30 ∧ 0xFFFF < (0x00010000#32).toNat := by decide

theorem witness_ReadOnlyRegistersFault : dev.fg.lbl = .start := by decide

theorem witness_ControlWriteReadsBack :
    dev.fg.lbl = .start ∧ 0x00070003#32 &&& 0xFFF8FFFC#32 = 0#32 ∧ 0x00070001#32 &&& 0xFFF8FFFE#32 = 0#32 ∧
      3#32 &&& 0xFFFFFFFC#32 = 0#32 ∧ 0xFFFF#32 &&& 0xFFFF0000#32 = 0#32 := by decide

/-- A half of txdata, the byte past div, the byte before the window, an address inside a register; both ends. -/
theorem witness_OnlyWholeRegistersMapped :
    (2 ≠ 4 ∨ ∀ n : Nat, n < 7 → dev.drv.base ≠ dev.drv.base + 4 * n) ∧
      (∀ n : Nat, n < 7 → dev.drv.base + 0x1C ≠ dev.drv.base + 4 * n) ∧
      (∀ n : Nat, n < 7 → dev.drv.base - 1 ≠ dev.drv.base + 4 * n) ∧
      (∀ n : Nat, n < 7 → dev.drv.base + 2 ≠ dev.drv.base + 4 * n) ∧
      (0 < 7 ∧ dev.drv.base = dev.drv.base + 4 * 0) ∧ (6 < 7 ∧ dev.drv.base + 0x18 = dev.drv.base + 4 * 6) := by
  decide

/-- Offsets 0x1C and 0x01, read and write. -/
theorem witness_UnmappedDescriptorFaults (s : State) (hs : s = run ⟨[], [⟨0x1C#8, []⟩, ⟨0x81#8, [.num 5]⟩]⟩ [.foreground] dev) :
    s.program.refusal = none ∧ s.fault = none ∧ s.hs = none ∧ s.fg.lbl = .start ∧ s.schedule = [.foreground] ∧
      s.program.ops[s.fg.k]? = some ⟨0x1C#8, []⟩ ∧ s.program.ops[1]? = some ⟨0x81#8, [.num 5]⟩ ∧
      (0x1C#8).extractLsb' 5 2 = 0#2 ∧ (0x81#8).extractLsb' 5 2 = 0#2 ∧
      ∀ r : Reg, ((0x1C#8).extractLsb' 0 5).toNat ≠ r.offset ∧ ((0x81#8).extractLsb' 0 5).toNat ≠ r.offset := by
  subst hs
  refine ⟨by decide, by decide, by decide, by decide, by decide, by decide, by decide, by decide, by decide, ?_⟩
  intro r; cases r <;> decide

/-- On with a byte; off with a byte; on and empty. -/
theorem witness_TransmitterSendsHead :
    dev.program.refusal = none ∧ (sched [.transmitter] (sending 1)).fault = none ∧
      (sched [.transmitter] (sending 1)).schedule = [.transmitter] ∧ (sending 1).hw.txctrl.txen = true ∧
      (sending 1).hw.txfifo = [0x55#8] ∧ (fifo 1).hw.txctrl.txen = false ∧ (sending 0).hw.txfifo = [] := by decide

/-- One free place; full; receiver off. -/
theorem witness_LineDeliversOrDrops :
    (received 7 true).program.refusal = none ∧ (received 7 true).fault = none ∧
      (sched [.line 9#8] (received 7 true)).schedule = [.line 9#8] ∧
      (received 7 true).hw.rxctrl.rxen = true ∧ (received 7 true).hw.rxfifo.length < (received 7 true).params.rxDepth ∧
      (received 8 true).hw.rxctrl.rxen = true ∧ (received 8 true).params.rxDepth ≤ (received 8 true).hw.rxfifo.length ∧
      (received 8 false).hw.rxctrl.rxen = false := by decide

theorem witness_ReceiverStaysOff :
    ∃ s t : State, s.program.noRxctrlWrite = true ∧ s.ReceiverOff ∧ step s = .next t :=
  ⟨run program [.foreground] dev, _, by decide, by decide, rfl⟩

/-- Divisor 0 (clock = baud) and the largest divisor 0xFFFF. -/
theorem witness_ConfigureWritesDivisor :
    dev.fg.lbl = .start ∧ dev.drv.busy = false ∧ 0 < (16000000#32).toNat ∧
      1 ≤ dev.drv.clock.toNat / (16000000#32).toNat ∧ 0 = dev.drv.clock.toNat / (16000000#32).toNat - 1 ∧
      (let s := { dev with drv := { dev.drv with clock := 0x10000#32 } }
       s.fg.lbl = .start ∧ s.drv.busy = false ∧ 1 ≤ s.drv.clock.toNat / (1#32).toNat ∧
        0xFFFF = s.drv.clock.toNat / (1#32).toNat - 1 ∧ 0xFFFF ≤ 0xFFFF) := by decide

theorem witness_ConfigureUnsupportedFeature :
    dev.fg.lbl = .start ∧ (Parity.odd ≠ .none ∨ false = true) ∧ (Parity.none ≠ .none ∨ true = true) ∧
      (inFlight 4).fg.lbl = .start ∧ (inFlight 4).drv.busy = true := by decide

/-- In flight; baud 0; clock one below the baud rate; divisor 0x10000. -/
theorem witness_ConfigureFaultOrder :
    dev.fg.lbl = .start ∧ (inFlight 4).fg.lbl = .start ∧ (inFlight 4).drv.busy = true ∧ dev.drv.busy = false ∧
      (0#32).toNat = 0 ∧ (0 < (16000001#32).toNat ∧ dev.drv.clock.toNat < (16000001#32).toNat) ∧
      (let s := { dev with drv := { dev.drv with clock := 0x10001#32 } }
       s.drv.busy = false ∧ s.fg.lbl = .start ∧ 0xFFFF < s.drv.clock.toNat / (1#32).toNat - 1) ∧
      ∃ f : FaultReason → Out, ∀ r, f r = .next { dev with fault := some ⟨r, .foreground, dev.fg.k, .cf0⟩ } :=
  ⟨by decide, by decide, by decide, by decide, by decide, by decide, by decide, _, fun _ => rfl⟩

theorem witness_SyncProgramsTransmitter :
    (inFlight 4).fg.lbl = .start ∧ (inFlight 4).drv.busy = true ∧ dev.fg.lbl = .start ∧ dev.drv.busy = false := by
  decide

/-- Just enough room for three bytes. -/
theorem witness_SyncQueuesEveryByte :
    (fifo 5).fg.lbl = .start ∧ (fifo 5).drv.busy = false ∧
      (fifo 5).hw.txfifo.length + [1#8, 2#8, 3#8].length ≤ (fifo 5).params.txDepth := by decide

theorem witness_SyncPollsWhileFull :
    (atFg .ts2 (fifo 8)).fg.lbl = .ts2 ∧ (fifo 8).hw.txfifo.length = (fifo 8).params.txDepth ∧
      (atFg .ts2 (fifo 7)).fg.lbl = .ts2 ∧ (fifo 7).hw.txfifo.length ≠ (fifo 7).params.txDepth := by decide

/-- At the last byte, one free place; full, both `TX_OVERFLOW`; TS4. -/
theorem witness_SyncWritesByte :
    (∀ s ∈ [fifo 7, fifo 8, dropping], (atFg .ts3 s).fg.lbl = .ts3 ∧ [1#8][(atFg .ts3 s).fg.loc.i]? = some 1#8) ∧
      (fifo 7).hw.txfifo.length < (fifo 7).params.txDepth ∧
      ((fifo 8).params.txDepth ≤ (fifo 8).hw.txfifo.length ∧ (fifo 8).params.txOverflow = .fault) ∧
      (dropping.params.txDepth ≤ dropping.hw.txfifo.length ∧ dropping.params.txOverflow = .drop) ∧
      (atFg .ts4 dev).fg.lbl = .ts4 := by decide

theorem witness_ZeroLengthReturnsBuffer : dev.fg.lbl = .start ∧ (inFlight 4).fg.lbl = .start := by decide

/-- In flight; one byte too long; the whole buffer. -/
theorem witness_TransmitBufferAccepts :
    (inFlight 4).fg.lbl = .start ∧ (inFlight 4).drv.busy = true ∧ 0 < (1#32).toNat ∧ dev.fg.lbl = .start ∧
      dev.drv.busy = false ∧ b3.data.length < (4#32).toNat ∧ (3#32).toNat ≤ b3.data.length := by decide

/-- One free place, and room for all. -/
theorem witness_TransmitBufferFillsFifo :
    (fifo 7).fg.lbl = .start ∧ (fifo 7).params.fillOrder = .writeThenCheck ∧ (fifo 7).drv.busy = false ∧
      0 < (10#32).toNat ∧ (10#32).toNat ≤ b10.data.length ∧ (fifo 7).hw.txfifo.length < (fifo 7).params.txDepth ∧
      1 = min (10#32).toNat ((fifo 7).params.txDepth - (fifo 7).hw.txfifo.length) ∧
      3 = min (3#32).toNat ((fifo 0).params.txDepth - (fifo 0).hw.txfifo.length) ∧
      (3#32).toNat ≤ b3.data.length ∧ (fifo 0).hw.txfifo.length < (fifo 0).params.txDepth := by decide

/-- Each of TB1 to TB8, TB2 at the last byte of the held buffer with one free place and full under both `TX_OVERFLOW`;
TB1 and TB5 to TB8 under the other fill order too. -/
theorem witness_TransmitBufferMicroSteps :
    (∀ s ∈ [fifo 7, fifo 8, dropping], ∀ t ∈ [fgWith .tb2 ⟨2, some b3, 0⟩ s], t.fg.lbl = .tb2 ∧
        t.fg.loc.buf = some b3 ∧ b3.data[t.fg.loc.i]? = some 3#8 ∧ t.params.fillOrder = .writeThenCheck) ∧
      (fifo 7).hw.txfifo.length < (fifo 7).params.txDepth ∧
      ((fifo 8).params.txDepth ≤ (fifo 8).hw.txfifo.length ∧ (fifo 8).params.txOverflow = .fault) ∧
      (dropping.params.txDepth ≤ dropping.hw.txfifo.length ∧ dropping.params.txOverflow = .drop) ∧
      dev.params.fillOrder = .writeThenCheck ∧ (atFg .tb3 dev).fg.lbl = .tb3 ∧ (atFg .tb4 dev).fg.lbl = .tb4 ∧
      (∀ l ∈ [FgLabel.tb1, .tb5, .tb6, .tb7, .tb8], (atFg l dev).fg.lbl = l ∧
        (atFg l (checkFirst dev)).fg.lbl = l ∧ (atFg l (checkFirst dev)).params.fillOrder = .checkThenWrite) := by
  decide

theorem witness_TransmitBufferChecksFirst :
    (atFg .tb2 (checkFirst (fifo 8))).fg.lbl = .tb2 ∧
      (∀ s ∈ [fifo 7, fifo 8, dropping], ∀ t ∈ [fgWith .tb3 ⟨2, some b3, 0⟩ (checkFirst s)], t.fg.lbl = .tb3 ∧
        t.fg.loc.buf = some b3 ∧ b3.data[t.fg.loc.i]? = some 3#8 ∧ t.params.fillOrder = .checkThenWrite) ∧
      (fifo 7).hw.txfifo.length < (fifo 7).params.txDepth ∧
      ((fifo 8).params.txDepth ≤ (fifo 8).hw.txfifo.length ∧ (fifo 8).params.txOverflow = .fault) ∧
      (dropping.params.txDepth ≤ dropping.hw.txfifo.length ∧ dropping.params.txOverflow = .drop) ∧
      (atFg .tb4 (checkFirst dev)).fg.lbl = .tb4 := by decide

theorem witness_StubsReturnGeneralFailure :
    ∃ s t : State, s.fg.lbl = .start ∧
      t = { s with trace := s.trace ++ [.ret s.fg.k (.result .generalFailure)], fg := ⟨s.fg.k + 1, .start, .empty⟩ } :=
  ⟨inFlight 4, _, rfl, rfl⟩

theorem witness_ReceiveBufferReturnsBuffer : (inFlight 4).fg.lbl = .start := by decide

theorem witness_RegistrationReplacesClient : (inFlight 4).fg.lbl = .start := by decide

/-- The watermark condition met and not met, raw and masked. -/
theorem witness_HandlerTakesSnapshot :
    (atHs .h0 (inFlight 4)).hs = some ⟨.h0, .empty⟩ ∧
      (inFlight 4).hw.txfifo.length < (inFlight 4).hw.txctrl.txcnt.toNat ∧ (inFlight 4).params.ipRaw = true ∧
      (atHs .h0 dev).hs = some ⟨.h0, .empty⟩ ∧ ¬ dev.hw.txfifo.length < dev.hw.txctrl.txcnt.toNat := by decide

/-- No buffer; a buffer without a client; a buffer with one. -/
theorem witness_HandlerCompletesTransfer :
    (atHs .h1 dev).hs = some ⟨.h1, .empty⟩ ∧ dev.drv.cursor = dev.drv.length ∧
      dev.params.doneWriteMode = .writeWhole ∧ dev.drv.slot = none ∧
      (atHs .h1 (inFlight 10)).hs = some ⟨.h1, .empty⟩ ∧ (inFlight 10).drv.cursor = (inFlight 10).drv.length ∧
      (inFlight 10).drv.slot = some b10 ∧ (inFlight 10).drv.txClient = none ∧
      (let s := { inFlight 10 with drv := { (inFlight 10).drv with txClient := some ⟨1⟩ } }
       s.drv.slot = some b10 ∧ s.drv.txClient = some ⟨1⟩ ∧ s.drv.cursor = s.drv.length) := by decide

/-- No buffer; a buffer without a client; a buffer with one. -/
theorem witness_HandlerClearsFields :
    (∀ s ∈ [emptied (inFlight 10), inFlight 10, registered (inFlight 10)], ∀ t ∈ [clearField (atHs .h1 s)],
        t.hs = some ⟨.h1, .empty⟩ ∧ t.drv.cursor = t.drv.length ∧ t.params.doneWriteMode = .clearField) ∧
      (emptied (inFlight 10)).drv.slot = none ∧
      (inFlight 10).drv.slot = some b10 ∧ (inFlight 10).drv.txClient = none ∧
      (registered (inFlight 10)).drv.slot = some b10 ∧ (registered (inFlight 10)).drv.txClient = some ⟨1⟩ := by decide

/-- Cursor 4 of 10 with a FIFO of depth 8, and the last byte. -/
theorem witness_HandlerContinuesTransfer :
    (atHs .h1 (inFlight 4)).hs = some ⟨.h1, .empty⟩ ∧ (inFlight 4).params.fillOrder = .writeThenCheck ∧
      (inFlight 4).drv.slot = some b10 ∧ (inFlight 4).drv.cursor.toNat < (inFlight 4).drv.length.toNat ∧
      (inFlight 4).drv.length.toNat ≤ b10.data.length ∧
      (inFlight 4).hw.txfifo.length < (inFlight 4).params.txDepth ∧
      6 = min ((inFlight 4).drv.length.toNat - (inFlight 4).drv.cursor.toNat)
        ((inFlight 4).params.txDepth - (inFlight 4).hw.txfifo.length) ∧
      (atHs .h1 (inFlight 9)).hs = some ⟨.h1, .empty⟩ ∧
      (inFlight 9).drv.cursor.toNat < (inFlight 9).drv.length.toNat := by decide

/-- An empty slot; a cursor one past the length. -/
theorem witness_HandlerSkipsWithoutWork :
    (let s := atHs .h1 { inFlight 4 with drv := { (inFlight 4).drv with slot := none } }
     s.hs = some ⟨.h1, .empty⟩ ∧ s.drv.cursor ≠ s.drv.length ∧ s.drv.slot = none) ∧
      (atHs .h1 (inFlight 11)).hs = some ⟨.h1, .empty⟩ ∧ (inFlight 11).drv.cursor ≠ (inFlight 11).drv.length ∧
      (inFlight 11).drv.length.toNat < (inFlight 11).drv.cursor.toNat := by decide

/-- The index at the buffer's end. -/
theorem witness_HandlerIndexFaults :
    (inFlight 4).drv.slot = some b10 ∧ b10.data.length ≤ (⟨0, 0, 0, 10, 0⟩ : HsLocals).i ∧
      (let s := { inFlight 4 with hs := some ⟨.h6, ⟨0, 0, 0, 10, 0⟩⟩ }
       s.hs = some ⟨.h6, ⟨0, 0, 0, 10, 0⟩⟩ ∧ s.params.fillOrder = .writeThenCheck) ∧
      (let s := checkFirst { inFlight 4 with hs := some ⟨.h7, ⟨0, 0, 0, 10, 0⟩⟩ }
       s.hs = some ⟨.h7, ⟨0, 0, 0, 10, 0⟩⟩ ∧ s.params.fillOrder = .checkThenWrite) := by decide

/-- H6; H7 at the last byte with room and full under both `TX_OVERFLOW`; H8. -/
theorem witness_HandlerChecksFirst :
    (checkFirst (atHs .h6 (inFlight 4))).hs = some ⟨.h6, .empty⟩ ∧
      (∀ s ∈ [inFlight 4, filled (inFlight 4), dropMode (filled (inFlight 4))],
        ∀ t ∈ [checkFirst (hsWith .h7 ⟨0, 4, 10, 9, 0⟩ s)], t.hs = some ⟨.h7, ⟨0, 4, 10, 9, 0⟩⟩ ∧
          t.params.fillOrder = .checkThenWrite ∧ t.drv.slot = some b10 ∧ b10.data[9]? = some 0x41#8) ∧
      (inFlight 4).hw.txfifo.length < (inFlight 4).params.txDepth ∧
      (filled (inFlight 4)).params.txDepth ≤ (filled (inFlight 4)).hw.txfifo.length ∧
      (filled (inFlight 4)).params.txOverflow = .fault ∧
      (dropMode (filled (inFlight 4))).params.txDepth ≤ (dropMode (filled (inFlight 4))).hw.txfifo.length ∧
      (dropMode (filled (inFlight 4))).params.txOverflow = .drop ∧
      (checkFirst (atHs .h8 (inFlight 4))).hs = some ⟨.h8, .empty⟩ := by decide

/-- Each label; H1 with the cursor at the length and not, in both completion modes; H2b and H3b with every writable bit
set; H4 with no buffer, without a client and with one; H6 at the last byte with room and full under both
`TX_OVERFLOW`. -/
theorem witness_HandlerMicroSteps :
    (∀ l ∈ [HsLabel.h1, .h2, .h3, .h2a, .h3a, .h4, .h5, .h7, .h8],
        (atHs l (inFlight 4)).hs = some ⟨l, .empty⟩) ∧
      (inFlight 4).params.fillOrder = .writeThenCheck ∧
      (inFlight 10).drv.cursor = (inFlight 10).drv.length ∧ (inFlight 4).drv.cursor ≠ (inFlight 4).drv.length ∧
      (inFlight 10).params.doneWriteMode = .writeWhole ∧
      (clearField (inFlight 10)).params.doneWriteMode = .clearField ∧
      (hsWith .h2b ⟨1, 10, 10, 0, 0x00070003#32⟩ (inFlight 10)).hs = some ⟨.h2b, ⟨1, 10, 10, 0, 0x00070003#32⟩⟩ ∧
      (0x00070003#32 &&& 0xFFF8FFFC#32 = 0#32) ∧
      (hsWith .h3b ⟨1, 10, 10, 0, 3#32⟩ (inFlight 10)).hs = some ⟨.h3b, ⟨1, 10, 10, 0, 3#32⟩⟩ ∧
      (3#32 &&& 0xFFFFFFFC#32 = 0#32) ∧
      (emptied (inFlight 10)).drv.slot = none ∧ (inFlight 10).drv.slot = some b10 ∧
      (inFlight 10).drv.txClient = none ∧ (registered (inFlight 10)).drv.txClient = some ⟨1⟩ ∧
      (∀ s ∈ [inFlight 4, filled (inFlight 4), dropMode (filled (inFlight 4))],
        ∀ t ∈ [hsWith .h6 ⟨1, 4, 10, 9, 0⟩ s], t.hs = some ⟨.h6, ⟨1, 4, 10, 9, 0⟩⟩ ∧
          t.params.fillOrder = .writeThenCheck ∧ t.drv.slot = some b10 ∧ b10.data[9]? = some 0x41#8) ∧
      (inFlight 4).hw.txfifo.length < (inFlight 4).params.txDepth ∧
      (filled (inFlight 4)).params.txDepth ≤ (filled (inFlight 4)).hw.txfifo.length ∧
      (filled (inFlight 4)).params.txOverflow = .fault ∧
      (dropMode (filled (inFlight 4))).params.txOverflow = .drop := by decide

/-- H6; H2b and H3b with every writable bit set. -/
theorem witness_HandlerRaisesNoOtherFault :
    ∀ h ∈ [(⟨.h6, .empty⟩ : Hs), ⟨.h2b, ⟨1, 10, 10, 0, 0x00070003#32⟩⟩, ⟨.h3b, ⟨1, 10, 10, 0, 3#32⟩⟩],
      (hsWith h.lbl h.loc (inFlight 4)).hs = some h ∧ (hsWith h.lbl h.loc (inFlight 4)).fault = none ∧
        (h.lbl = .h2b → h.loc.t &&& 0xFFF8FFFC#32 = 0#32) ∧
        (h.lbl = .h3b → h.loc.t &&& 0xFFFFFFFC#32 = 0#32) := by decide

theorem witness_HandlerReturnsOrFaults : (atHs .h0 (inFlight 4)).hs = some ⟨.h0, .empty⟩ := by decide

/-- A completion: the handler at H4 with the slot occupied and a client. -/
theorem witness_CallbackOnlyAtCompletion (s : State)
    (hs : s = { inFlight 10 with
      drv := { (inFlight 10).drv with txClient := some ⟨1⟩ }
      hs := some ⟨.h4, ⟨1, 10, 10, 0, 0⟩⟩
      schedule := [.handler] }) :
    ∃ t, step s = .next t ∧ Event.callback ⟨1⟩ b10 10#32 .success ∈ t.trace.drop s.trace.length := by
  subst hs
  exact ⟨_, rfl, by decide⟩

/-- irq high; spurious; held off by the running handler, by irq low, and inside an atomic operation. -/
theorem witness_DispatchEntersHandler :
    (inFlight 4).program.refusal = none ∧ (inFlight 4).fault = none ∧
      (sched [.dispatch] (inFlight 4)).schedule = [.dispatch] ∧
      true = ((decide ((inFlight 4).hw.txfifo.length < (inFlight 4).hw.txctrl.txcnt.toNat) && (inFlight 4).hw.ie.txwm) ||
        (decide ((inFlight 4).hw.rxctrl.rxcnt.toNat < (inFlight 4).hw.rxfifo.length) && (inFlight 4).hw.ie.rxwm)) ∧
      (inFlight 4).hs = none ∧ (inFlight 4).params.atomicDriverOps = false ∧
      (dev.irq = false ∧ dev.params.spuriousIrq = true) ∧ (atHs .h0 (inFlight 4)).hs ≠ none ∧
      ((atomic dev).irq = false ∧ (atomic dev).params.spuriousIrq = false) ∧
      ((atFg .tb2 (atomic (inFlight 4))).params.atomicDriverOps = true ∧
        (atFg .tb2 (atomic (inFlight 4))).fg.lbl ≠ .start) := by decide

/-- A step that moves the foreground, and a handler step inside transmit_buffer. -/
theorem witness_ForegroundFrozenInHandler :
    (∃ s t : State, step s = .next t ∧ t.fg ≠ s.fg) ∧
      ∃ s t : State, s.hs ≠ none ∧ s.fg.lbl = .tb3 ∧ step s = .next t :=
  ⟨⟨run program [.foreground] dev, _, rfl, by decide⟩,
    ⟨sched [.handler] (atHs .h1 (atFg .tb3 (inFlight 4))), _, by decide, by decide, rfl⟩⟩

theorem witness_FaultIsSticky :
    faulted.fault = some ⟨.txOverflow, .handler, 0, .h6⟩ ∧ faulted.program.refusal = none := by decide

/-- The overflow of V5.10. -/
theorem witness_FaultChangesNothingElse :
    ∃ s t : State, step s = .next t ∧ s.fault = none ∧ t.fault ≠ none :=
  ⟨run ⟨[], [encode (.mmioWTxdata 1#32)]⟩ [.foreground] (fifo 8), _, rfl, by decide, by decide⟩

/-- A program that names handle_interrupt and one that is admitted; an entry refused for each cause, and one admitted. -/
theorem witness_RefusedProgramHasNoRun :
    (∃ e ∈ (run ⟨[], [⟨0x14#8, []⟩, ⟨0x4A#8, []⟩]⟩ [] dev).program.ops, e.refusal [] ≠ none) ∧
      (∀ e ∈ (run program [] dev).program.ops, e.refusal (run program [] dev).program.bufs = none) ∧
      (∀ e ∈ [(⟨0x4A#8, []⟩ : Entry), ⟨0x20#8, []⟩, ⟨0x42#8, [.buffer b10, .num 1]⟩, ⟨0x80#8, [.num (2 ^ 32)]⟩],
        e.refusal [b3] ≠ none) ∧
      Entry.refusal [b3] ⟨0x42#8, [.buffer b3, .num 1]⟩ = none := by decide

theorem witness_StepRunsDecodedOperation (s : State) (hs : s = run program [.foreground] dev) :
    s.program.refusal = none ∧ s.fault = none ∧ s.hs = none ∧ s.schedule = [.foreground] ∧
      s.program.ops[s.fg.k]? = some (encode (.transmitBuffer b10 10#32)) ∧
      decode (encode (.transmitBuffer b10 10#32)) = .ok (.op (.transmitBuffer b10 10#32)) ∧
      (sched [.handler] (atHs .h0 s)).hs = some ⟨.h0, .empty⟩ ∧
      (sched [.handler] (atHs .h0 s)).schedule = [.handler] := by
  subst hs; decide

theorem witness_EncodeOfDecode : decode ⟨0x40#8, [.num 9600, .num 0, .num 0, .num 1]⟩ =
    .ok (.op (.configure 9600#32 .none false .two)) := by decide

theorem witness_TraceOnlyGrows : ∃ s t : State, step s = .next t ∧ t.trace.length = s.trace.length + 2 :=
  ⟨run ⟨[], [encode .mmioRIp]⟩ [.foreground] dev, _, rfl, by decide⟩

theorem witness_ParametersFixed : ∃ s t : State, step s = .next t :=
  ⟨run ⟨[], [encode .mmioRIp]⟩ [.foreground] dev, _, rfl⟩

/-- A registration, TB5, TB6, CF2 and H4; busy at TB0 and at H4; the cursor at TB0 under `CURSOR_INIT_WRITE`, and at TB3
and H7, and TB4 and H8 under the other fill order: each field changes somewhere. -/
theorem witness_DriverFieldWriters :
    (∃ t, step (run ⟨[], [encode (.setTransmitClient ⟨1⟩)]⟩ [.foreground] dev) = .next t ∧
      t.drv.txClient ≠ dev.drv.txClient) ∧
    (∃ t, step (run ⟨[], [encode (.setReceiveClient ⟨1⟩)]⟩ [.foreground] dev) = .next t ∧
      t.drv.rxClient ≠ dev.drv.rxClient) ∧
    (∃ t, step (run program [.foreground] (fgWith .tb5 ⟨2, some b10, 0⟩ dev)) = .next t ∧
      t.drv.slot ≠ dev.drv.slot) ∧
    (∃ t, step (run program [.foreground] (atFg .tb6 dev)) = .next t ∧ t.drv.length ≠ dev.drv.length) ∧
    (∃ t, step (run ⟨[], [encode (.configure 9600#32 .none false .two)]⟩ [.foreground] (atFg .cf2 dev)) = .next t ∧
      t.drv.stop ≠ dev.drv.stop) ∧
    (∃ t, step (sched [.handler] (atHs .h4 (inFlight 10))) = .next t ∧ t.drv.slot ≠ (inFlight 10).drv.slot ∧
      t.drv.busy ≠ (inFlight 10).drv.busy) ∧
    (∃ s t : State, s = run program [.foreground]
        { dev with drv := { dev.drv with cursor := 10 }, params := { dev.params with cursorInitWrite := true } } ∧
      step s = .next t ∧ t.drv.busy ≠ s.drv.busy ∧ t.drv.cursor ≠ s.drv.cursor) ∧
    (∃ t, step (run program [.foreground] (fgWith .tb3 ⟨2, some b10, 0⟩ dev)) = .next t ∧
      t.drv.cursor ≠ dev.drv.cursor) ∧
    (∃ t, step (run program [.foreground] (fgWith .tb4 ⟨2, some b10, 0⟩ (checkFirst dev))) = .next t ∧
      t.drv.cursor ≠ dev.drv.cursor) ∧
    (∃ t, step (sched [.handler] (hsWith .h7 ⟨1, 4, 10, 4, 0⟩ (inFlight 4))) = .next t ∧
      t.drv.cursor ≠ (inFlight 4).drv.cursor) ∧
    (∃ t, step (sched [.handler] (hsWith .h8 ⟨1, 4, 10, 4, 0⟩ (checkFirst (inFlight 4)))) = .next t ∧
      t.drv.cursor ≠ (inFlight 4).drv.cursor) :=
  ⟨⟨_, rfl, by decide⟩, ⟨_, rfl, by decide⟩, ⟨_, rfl, by decide⟩, ⟨_, rfl, by decide⟩, ⟨_, rfl, by decide⟩,
    ⟨_, rfl, by decide, by decide⟩, ⟨_, _, rfl, rfl, by decide, by decide⟩, ⟨_, rfl, by decide⟩, ⟨_, rfl, by decide⟩,
    ⟨_, rfl, by decide⟩, ⟨_, rfl, by decide⟩⟩

/-- A transmit in the middle of its fill: at TB2, accepted, two bytes queued. -/
theorem witness_StepKeepsInvariant :
    ∃ s t : State, s.Inv ∧ s.fg.lbl = .tb2 ∧ step s = .next t :=
  ⟨run program [.foreground] { fifo 2 with
      fg := ⟨0, .tb2, ⟨2, some b10, 0⟩⟩, drv := { dev.drv with busy := true, cursor := 2 } }, _,
    ⟨by decide, by decide, .inr ⟨.transmitBuffer b10 10#32, by decide, by decide, .inl (by decide)⟩,
      by decide, by decide⟩, rfl, rfl⟩

theorem witness_LaunchMeetsInvariant :
    (Params.decided 1 1 0 0).Valid ∧ (Params.decided 8 8 0x1234 0).Valid ∧ program.refusal = none := by decide

theorem witness_InvariantNeverStuck : ∃ s : State, s.Inv ∧ s.fault = none :=
  ⟨run program [] dev, ⟨by decide, by decide, .inl rfl, rfl⟩, rfl⟩

/-- A step to a quiet point: the handler's return with a transfer in flight. -/
theorem witness_QuietPointInvariants :
    ∃ s t : State, s.EngineInv ∧ step s = .next t ∧ t.Quiet ∧ t.drv.busy = true :=
  ⟨sched [.handler] (atHs .h0 { atomic (inFlight 4) with
      hw := { (inFlight 4).hw with txfifo := List.replicate 4 0x41#8 } }), _,
    ⟨⟨by decide, by decide, .inl rfl, rfl⟩, rfl, rfl, by decide, rfl, by decide, rfl⟩, rfl, by decide, rfl⟩

theorem witness_LaunchMeetsEngineInvariant (p : Params)
    (hp : p = { Params.decided 8 8 0x1234 0 with atomicDriverOps := true }) :
    p.Valid ∧ p.atomicDriverOps = true ∧ p.fillOrder = .writeThenCheck ∧ program.refusal = none ∧
      program.noIeWrite = true := by
  subst hp; decide

theorem witness_ResetState : ∃ s : State, s = State.launch (.decided 1 1 0xFFFF 0) 0 0xFFFFFFFF#32 ∧ 1 ≤ 1 :=
  ⟨_, rfl, by decide⟩

end Sys2Proof.Tests
end

section
/-! When the foreground and dispatch are enabled, and that a step moves the foreground only where it is enabled (rules R46,
R240). -/

namespace Sys2Proof.Machine

/-! ## The foreground context -/

/-- Rule R46's condition. -/
theorem State.foregroundEnabled_iff (s : State) : s.foregroundEnabled = true ↔
    s.hs = none ∧ s.fault = none ∧ s.fg.k < s.program.ops.length := by
  simp only [State.foregroundEnabled, Bool.and_eq_true, Option.isNone_iff_eq_none, decide_eq_true_eq]
  tauto

/-- Every outcome of a handler micro-step is built from updates that do not write the foreground context. -/
theorem HsStep.fg_eq {lbl : HsLabel} {l : HsLocals} {s t : State} (h : HsStep lbl l s t) : t.fg = s.fg := by
  cases h <;> rfl

/-- A chosen agent leaves the foreground context alone unless the foreground is enabled (rules R13, R46). -/
theorem State.runChoice_fg {u t : State} {c : Choice} (h : u.runChoice c = .next t) :
    u.foregroundEnabled = true ∨ t.fg = u.fg := by
  rcases State.runChoice_cases h with ⟨-, rfl⟩ | ⟨he, -⟩ | ⟨-, ⟨lbl, l⟩, -, rfl⟩ | ⟨-, -, rfl⟩ | ⟨ht, rfl⟩ |
    ⟨b, hl, rfl⟩
  · exact .inr rfl
  · exact .inl he
  · exact .inr (hsStep_handlerStep lbl l u).fg_eq
  · exact .inr u.takeInterrupt_fg
  · obtain ⟨b, rest, -, -, e⟩ := State.transmit_enabled ht
    exact .inr (by simp [e])
  · rcases State.receive_enabled hl b with ⟨-, e⟩ | ⟨-, e⟩ <;> exact .inr (by simp [e])

/-- Taking the next choice does not decide whether the foreground is enabled. -/
@[simp] theorem State.nextChoice_foregroundEnabled (s : State) :
    s.nextChoice.2.foregroundEnabled = s.foregroundEnabled := by
  rw [s.nextChoice_frame]
  rfl

@[simp] theorem State.nextChoice_fg (s : State) : s.nextChoice.2.fg = s.fg := by
  rw [s.nextChoice_frame]

/-- A step leaves the foreground context alone unless the foreground is enabled (rule R46). -/
theorem step_fg {s t : State} (h : step s = .next t) : s.foregroundEnabled = true ∨ t.fg = s.fg := by
  obtain ⟨-, -, hr⟩ := step_eq_next h
  simpa using State.runChoice_fg hr

/-! ## Dispatch -/

/-- Rule R240's condition. -/
theorem State.dispatchEnabled_iff (s : State) : s.dispatchEnabled = true ↔
    s.fault = none ∧ s.hs = none ∧ (s.irq = true ∨ s.params.spuriousIrq = true) ∧
      (s.params.atomicDriverOps = false ∨ s.fg.lbl = .start) := by
  simp [State.dispatchEnabled, and_assoc]

/-- Choosing dispatch enters the handler where it is enabled, and passes where it is not (rule R240; log entry 2). -/
theorem State.runChoice_dispatch (s : State) :
    s.runChoice .dispatch = .next (if s.dispatchEnabled = true then s.takeInterrupt else s) := by
  by_cases hd : s.dispatchEnabled = true
  · obtain ⟨-, hn, -⟩ := s.dispatchEnabled_iff.mp hd
    simp [State.runChoice, State.enabled, exec, execHandleInterrupt, hn, hd]
  · simp [State.runChoice, State.enabled, hd]

/-- A running machine that dispatch is scheduled for steps dispatch and takes it off the schedule (rules R237, R240). -/
theorem step_dispatch {s : State} {rest : List Choice} (hp : s.program.refusal = none) (hf : s.fault = none)
    (hs : s.schedule = .dispatch :: rest) :
    step s = .next { (if s.dispatchEnabled = true then s.takeInterrupt else s) with schedule := rest } := by
  rw [step_running hp hf, State.nextChoice_cons hs, State.runChoice_dispatch]
  have frame : State.dispatchEnabled { s with schedule := rest } = s.dispatchEnabled := rfl
  rw [frame]
  split <;> rfl

/-! ## The obligations -/

/-- Settles O42: every agent but the foreground leaves the foreground context alone. -/
theorem foregroundFrozenInHandler : Obligations.ForegroundFrozenInHandler := by
  refine ⟨fun s => s.foregroundEnabled_iff, fun s t h hne => ?_, fun s t hh h => ?_⟩
  · exact s.foregroundEnabled_iff.mp ((step_fg h).resolve_right hne)
  · refine (step_fg h).resolve_left fun he => ?_
    obtain ⟨hn, -, -⟩ := s.foregroundEnabled_iff.mp he
    exact hh hn

/-- Settles O31: the value read is `ip`'s word, and its bit 0 is the transmit condition. -/
theorem handlerTakesSnapshot : Obligations.HandlerTakesSnapshot := by
  intro s l hs r hr
  rw [← State.ip_word] at hr
  subst hr
  rw [exec_handleInterrupt hs]
  show Host.Outcome.next (handlerSnapshot l s) = _
  simp only [handlerSnapshot_eq, ← State.ip_txwm_iff]
  split <;> rfl

/-- Settles O41: what holds dispatch off is the negation of what enables it. -/
theorem dispatchEntersHandler : Obligations.DispatchEntersHandler := by
  intro s rest irq hp hf hs hirq
  replace hirq : irq = s.irq := hirq
  subst hirq
  rw [step_dispatch hp hf hs]
  refine ⟨fun hn hi ha => ?_, fun hoff => ?_⟩
  · rw [if_pos (s.dispatchEnabled_iff.mpr ⟨hf, hn, hi, ha⟩)]
    rfl
  · have hd : ¬ s.dispatchEnabled = true := by
      rw [State.dispatchEnabled_iff]
      rintro ⟨-, hn, hi, ha⟩
      rcases hoff with hh | ⟨hlow, hspur⟩ | ⟨hatomic, hlbl⟩
      · exact hh hn
      · simp [hlow, hspur] at hi
      · simp [hatomic, hlbl] at ha
    rw [if_neg hd]

end Sys2Proof.Machine
end

section
/-! What the decoder reads from a descriptor of each format, and that it undoes the encoder (rules R84 to R88). -/

namespace Sys2Proof

/-! ## The decoder by format (rule R84) -/

/-- An MMIO read carries no operand: its offset alone gives the operation. -/
theorem decode_read (d : Byte) (off : BitVec 5) {i : Instr}
    (hd : descFmt d = 0#2 ∧ descW d = false ∧ descOff d = off) (hop : readOp off = .op i) :
    decode ⟨d, []⟩ = .ok (.op i) := by
  obtain ⟨hfmt, hw, hoff⟩ := hd
  simp [decode, decodeMmio, hfmt, hw, hoff, hop]

/-- An MMIO write carries the value written. -/
theorem decode_write (d : Byte) (off : BitVec 5) {v : Word} {i : Instr}
    (hd : descFmt d = 0#2 ∧ descW d = true ∧ descOff d = off) (hop : writeOp off v = .op i) :
    decode ⟨d, [.num v.toNat]⟩ = .ok (.op i) := by
  obtain ⟨hfmt, hw, hoff⟩ := hd
  simp [decode, decodeMmio, hfmt, hw, hoff, hop]

/-- An API descriptor that is not reserved is operation number `n` on its operands. -/
theorem decode_api (d : Byte) (n : Nat) {args : List Operand} {i : Instr}
    (hd : descFmt d = 2#2 ∧ descW d = false ∧ (descOff d).toNat = n ∧ n ≤ 10) (hop : apiOp n args = some i) :
    decode ⟨d, args⟩ = .ok (.op i) := by
  obtain ⟨hfmt, hw, hnum, hn⟩ := hd
  simp [decode, decodeApi, hfmt, hw, hnum, hn, hop]

/-! ## The operands of the API operations (rules R86, R87) -/

@[simp] theorem bytes?_toNat (l : List Byte) : (Operand.bytes (l.map BitVec.toNat)).bytes? = some l :=
  bytesOf_toNat l

theorem apiOp_configure (b : Word) (p : Parity) (f : Bool) (c : StopBits) :
    apiOp 0 (operands (.configure b p f c)) = some (.configure b p f c) := by
  simp [apiOp, operands]

theorem apiOp_transmitSync (l : List Byte) : apiOp 1 (operands (.transmitSync l)) = some (.transmitSync l) := by
  simp [apiOp, operands]

theorem apiOp_transmitBuffer (b : Buffer) (n : Word) :
    apiOp 2 (operands (.transmitBuffer b n)) = some (.transmitBuffer b n) := by
  simp [apiOp, operands, Operand.buffer?]

theorem apiOp_transmitWord (w : Word) : apiOp 4 (operands (.transmitWord w)) = some (.transmitWord w) := by
  simp [apiOp, operands]

theorem apiOp_receiveBuffer (b : Buffer) (n : Word) :
    apiOp 5 (operands (.receiveBuffer b n)) = some (.receiveBuffer b n) := by
  simp [apiOp, operands, Operand.buffer?]

/-! ## The decoder undoes the encoder -/

/-- Each operation is decoded by the lemma of its format, from its descriptor byte and its row of rules R85 and R86. -/
theorem decode_encode : ∀ i : Instr, decode (encode i) = .ok (.op i)
  | .mmioRTxdata => decode_read 0x00#8 0x00#5 (by decide) rfl
  | .mmioWTxdata _ => decode_write 0x80#8 0x00#5 (by decide) rfl
  | .mmioRRxdata => decode_read 0x04#8 0x04#5 (by decide) rfl
  | .mmioWRxdata _ => decode_write 0x84#8 0x04#5 (by decide) rfl
  | .mmioRTxctrl => decode_read 0x08#8 0x08#5 (by decide) rfl
  | .mmioWTxctrl _ => decode_write 0x88#8 0x08#5 (by decide) rfl
  | .mmioRRxctrl => decode_read 0x0C#8 0x0C#5 (by decide) rfl
  | .mmioWRxctrl _ => decode_write 0x8C#8 0x0C#5 (by decide) rfl
  | .mmioRIe => decode_read 0x10#8 0x10#5 (by decide) rfl
  | .mmioWIe _ => decode_write 0x90#8 0x10#5 (by decide) rfl
  | .mmioRIp => decode_read 0x14#8 0x14#5 (by decide) rfl
  | .mmioWIp _ => decode_write 0x94#8 0x14#5 (by decide) rfl
  | .mmioRDiv => decode_read 0x18#8 0x18#5 (by decide) rfl
  | .mmioWDiv _ => decode_write 0x98#8 0x18#5 (by decide) rfl
  | .configure b p f c => decode_api 0x40#8 0 (by decide) (apiOp_configure b p f c)
  | .transmitSync l => decode_api 0x41#8 1 (by decide) (apiOp_transmitSync l)
  | .transmitBuffer b n => decode_api 0x42#8 2 (by decide) (apiOp_transmitBuffer b n)
  | .transmitAbort => decode_api 0x43#8 3 (by decide) rfl
  | .transmitWord w => decode_api 0x44#8 4 (by decide) (apiOp_transmitWord w)
  | .receiveBuffer b n => decode_api 0x45#8 5 (by decide) (apiOp_receiveBuffer b n)
  | .receiveAbort => decode_api 0x46#8 6 (by decide) rfl
  | .receiveWord => decode_api 0x47#8 7 (by decide) rfl
  | .setTransmitClient _ => decode_api 0x48#8 8 (by decide) rfl
  | .setReceiveClient _ => decode_api 0x49#8 9 (by decide) rfl
  | .handleInterrupt => decode_api 0x4A#8 10 (by decide) rfl

/-- Settles O49: every entry written out is what the encoder makes of its operation, and the decoder undoes it. -/
theorem descriptorsDecode : Obligations.DescriptorsDecode :=
  ⟨decode_encode .mmioRTxdata, decode_encode .mmioRRxdata, decode_encode .mmioRTxctrl, decode_encode .mmioRRxctrl,
    decode_encode .mmioRIe, decode_encode .mmioRIp, decode_encode .mmioRDiv,
    fun v => ⟨decode_encode (.mmioWTxdata v), decode_encode (.mmioWRxdata v), decode_encode (.mmioWTxctrl v),
      decode_encode (.mmioWRxctrl v), decode_encode (.mmioWIe v), decode_encode (.mmioWIp v),
      decode_encode (.mmioWDiv v)⟩,
    fun p f c => decode_encode (.configure 9600#32 p f c),
    decode_encode (.transmitSync [0x48#8, 0x69#8]), decode_encode (.transmitBuffer ⟨⟨1⟩, [7#8]⟩ 1#32),
    decode_encode .transmitAbort, decode_encode (.transmitWord 0x41#32),
    decode_encode (.receiveBuffer ⟨⟨1⟩, [7#8]⟩ 4#32), decode_encode .receiveAbort, decode_encode .receiveWord,
    decode_encode (.setTransmitClient ⟨2⟩), decode_encode (.setReceiveClient ⟨3⟩), decode_encode .handleInterrupt⟩

end Sys2Proof
end

section
/-! The register accesses as program operations (rules R101 to R115): the next state of a raw read and of a raw write that
faults, written out, and what each register answers. -/

namespace Sys2Proof.Machine

/-! ## One raw access -/

/-- A raw read returns the value `readReg` gives, in the state it leaves (rules R100, R115). -/
theorem mmioRead_next {s t : State} {r : Reg} {v : Word} (hs : s.fg.lbl = .start) (hr : s.readReg r = (v, t)) :
    mmioRead r.offset s = .next { t with
      trace := t.trace ++ [.mmio .foreground .read r.offset v, .ret t.fg.k (.word v)]
      fg := ⟨t.fg.k + 1, .start, .empty⟩ } := by
  rw [mmioRead_reg hs, hr]
  simp [State.ret, State.emit]

/-- A raw write that faults raises its fault at M0 (rules R100, R230). -/
theorem mmioWrite_raise {s : State} {r : Reg} {v : Word} {e : FaultReason} (hs : s.fg.lbl = .start)
    (hw : s.writeReg r v = .error e) : mmioWrite r.offset v s = .next (s.raise e .foreground .m0) := by
  rw [mmioWrite_reg hs, hw]

/-! ## rxdata (rule R103) -/

theorem dataWord_false (b : Byte) : dataWord false b = b.setWidth 32 := by
  simp [dataWord_eq]

theorem dataWord_true (b : Byte) : dataWord true b = 0x80000000#32 ||| b.setWidth 32 :=
  dataWord_eq true b

theorem State.readReg_rxdata_cons {s : State} {b : Byte} {rest : List Byte} (h : s.hw.rxfifo = b :: rest) :
    s.readReg .rxdata = (b.setWidth 32, s.setHw { s.hw with rxfifo := rest }) := by
  simp only [State.readReg, h, dataWord_false]

theorem State.readReg_rxdata_nil {s : State} (h : s.hw.rxfifo = []) :
    s.readReg .rxdata = (0x80000000#32 ||| (Config.drawByte s.draws).setWidth 32, s.drew) := by
  simp only [State.readReg, h, dataWord_true]

/-! ## The obligations -/

/-- Settles O1: the value read is the flag `full` over a draw. -/
theorem txdataReadShowsFull : Obligations.TxdataReadShowsFull := by
  refine ⟨rfl, fun s hs r hr => ?_⟩
  rw [← State.dataWord_full] at hr
  subst hr
  exact mmioRead_next (r := .txdata) hs rfl

/-- Settles O2: one case for each form of the receive FIFO. -/
theorem rxdataReadPopsHead : Obligations.RxdataReadPopsHead := by
  refine ⟨rfl, fun s b rest hs hq => ?_, fun s hs hq r hr => ?_⟩
  · exact mmioRead_next hs (State.readReg_rxdata_cons hq)
  · subst hr
    exact mmioRead_next hs (State.readReg_rxdata_nil hq)

/-- Settles O3: each value spelled bit by bit is the word assembled from the stored fields. -/
theorem controlReadsReturnFields : Obligations.ControlReadsReturnFields := by
  refine ⟨rfl, rfl, rfl, rfl, fun s hs => ⟨fun r hr => ?_, fun r hr => ?_, fun r hr => ?_, fun r hr => ?_⟩⟩
  · rw [← Txctrl.word_eq] at hr
    subst hr
    exact mmioRead_next (r := .txctrl) hs rfl
  · rw [← Rxctrl.word_eq] at hr
    subst hr
    exact mmioRead_next (r := .rxctrl) hs rfl
  · rw [← Watermarks.word_eq] at hr
    subst hr
    exact mmioRead_next (r := .ie) hs rfl
  · subst hr
    exact mmioRead_next (r := .div) hs rfl

/-- Settles O4: the value read is `ip`'s word, and the state is the one before. -/
theorem ipReadShowsLevels : Obligations.IpReadShowsLevels := by
  refine ⟨rfl, fun s hs r hr => ?_⟩
  rw [← State.ip_word] at hr
  subst hr
  exact mmioRead_next (r := .ip) hs rfl

/-- Settles O9: `writeReg` answers ReadOnlyWrite for both registers whatever the value. -/
theorem readOnlyRegistersFault : Obligations.ReadOnlyRegistersFault := fun _ _ hs =>
  ⟨rfl, rfl, mmioWrite_raise (r := .rxdata) hs rfl, mmioWrite_raise (r := .ip) hs rfl⟩

end Sys2Proof.Machine
end

section
/-! The descriptor byte of whatever the decoder reads (rules R84 to R86): an operation decoded from an entry has the
entry's descriptor. -/

namespace Sys2Proof

/-! ## A descriptor byte is its offset under the bits of its format (rule R84) -/

theorem desc_eq_read {d : Byte} (hfmt : descFmt d = 0#2) (hw : descW d = false) :
    BitVec.ofNat 8 (descOff d).toNat = d := by
  revert d
  decide

theorem desc_eq_write {d : Byte} (hfmt : descFmt d = 0#2) (hw : descW d = true) :
    0x80#8 ||| BitVec.ofNat 8 (descOff d).toNat = d := by
  revert d
  decide

theorem desc_eq_api {d : Byte} (hfmt : descFmt d = 2#2) (hw : descW d = false) :
    0x40#8 ||| BitVec.ofNat 8 (descOff d).toNat = d := by
  revert d
  decide

/-- The rows of rule R85 for the MMIO reads. -/
theorem readOp_descriptor {off : BitVec 5} {i : Instr} (h : readOp off = .op i) :
    descriptor i = BitVec.ofNat 8 off.toNat := by
  unfold readOp at h
  split at h <;> cases h
  all_goals
    next hoff =>
      rw [hoff]
      rfl

/-- The rows of rule R85 for the MMIO writes. -/
theorem writeOp_descriptor {off : BitVec 5} {v : Word} {i : Instr} (h : writeOp off v = .op i) :
    descriptor i = 0x80#8 ||| BitVec.ofNat 8 off.toNat := by
  unfold writeOp at h
  split at h <;> cases h
  all_goals
    next hoff =>
      rw [hoff]
      rfl

/-- The rows of rule R86, by the number of operands that are read. -/
theorem apiOp_descriptor {n : Nat} {args : List Operand} {i : Instr} (h : apiOp n args = some i) :
    descriptor i = 0x40#8 ||| BitVec.ofNat 8 n := by
  unfold apiOp at h
  split at h
  all_goals
    simp only [Option.bind_eq_bind, Option.bind_eq_some_iff, Option.map_eq_some_iff, Option.pure_def,
      Option.some.injEq, reduceCtorEq] at h
  case h_1 =>
    obtain ⟨baud, -, parity, -, flow, -, stop, -, rfl⟩ := h
    rfl
  case h_3 | h_6 =>
    obtain ⟨buf, -, len, -, rfl⟩ := h
    rfl
  case h_2 | h_5 | h_9 | h_10 =>
    obtain ⟨operand, -, rfl⟩ := h
    rfl
  all_goals
    subst h
    rfl

theorem decodeMmio_descriptor {d : Byte} {args : List Operand} {i : Instr} (hfmt : descFmt d = 0#2)
    (h : decodeMmio d args = .ok (.op i)) : descriptor i = d := by
  unfold decodeMmio at h
  split at h
  · next hw => exact (readOp_descriptor (Except.ok.inj h)).trans (desc_eq_read hfmt hw)
  · next hw =>
    split at h
    · exact (writeOp_descriptor (Except.ok.inj h)).trans (desc_eq_write hfmt hw)
    · cases h
  · cases h

theorem decodeApi_descriptor {d : Byte} {args : List Operand} {i : Instr} (hfmt : descFmt d = 2#2)
    (h : decodeApi d args = .ok (.op i)) : descriptor i = d := by
  unfold decodeApi at h
  split at h
  · cases h
  · next hreserved =>
    have hw : descW d = false := by
      simp only [Bool.or_eq_true, not_or, Bool.not_eq_true] at hreserved
      exact hreserved.1
    split at h
    · next hop =>
      cases h
      exact (apiOp_descriptor hop).trans (desc_eq_api hfmt hw)
    · cases h

/-- The decoder reads an operation only from that operation's descriptor byte (rules R84 to R86). -/
theorem decode_descriptor {e : Entry} {i : Instr} (h : decode e = .ok (.op i)) : descriptor i = e.desc := by
  unfold decode at h
  split at h
  · next hfmt => exact decodeMmio_descriptor (BitVec.eq_of_toNat_eq hfmt) h
  · next hfmt => exact decodeApi_descriptor (BitVec.eq_of_toNat_eq hfmt) h
  · cases h

end Sys2Proof
end

section
/-! The receiver stays off (rule R126): who can write rxctrl or the receive FIFO. -/

namespace Sys2Proof.Machine

/-! ## What a step leaves of the program -/

theorem State.readReg_program (s : State) (r : Reg) : (s.readReg r).2.program = s.program := by
  rcases s.readReg_cases r with e | e | ⟨-, b, rest, -, e⟩ <;> simp [e]

theorem FgStep.program_eq {i : Instr} {s t : State} (h : FgStep i s t) : t.program = s.program := by
  cases h
  case read r hl => exact s.readReg_program r
  case write r v u hl hd hw =>
    obtain ⟨hw', rfl⟩ := State.writeReg_ok hw
    rfl
  all_goals rfl

theorem HsStep.program_eq {lbl : HsLabel} {l : HsLocals} {s t : State} (h : HsStep lbl l s t) :
    t.program = s.program := by
  cases h <;> rfl

/-- No step changes the program (rules R73, R237). -/
theorem step_program {s t : State} (h : step s = .next t) : t.program = s.program := by
  obtain ⟨u, hu, -, -, hx⟩ := step_cases h
  have hup : u.program = s.program := by rw [hu]
  rw [← hup]
  rcases hx with rfl | ⟨-, i, -, -, hfg⟩ | ⟨-, -, rfl⟩ | ⟨lbl, l, -, hhs⟩ | ⟨-, -, rfl⟩ | ⟨b, rest, -, -, rfl⟩ |
    ⟨b, -, ⟨-, rfl⟩ | ⟨-, rfl⟩⟩
  case inr.inl => exact hfg.program_eq
  case inr.inr.inr.inl => exact hhs.program_eq
  all_goals rfl

/-! ## What a step leaves of the receiver -/

/-- A read can only remove from the receive FIFO (rules R102 to R113). -/
theorem State.readReg_receiverOff {s : State} (hoff : s.ReceiverOff) (r : Reg) : (s.readReg r).2.ReceiverOff := by
  rcases s.readReg_cases r with e | e | ⟨-, b, rest, hq, -⟩
  · rw [e]
    exact hoff
  · rw [e]
    exact hoff
  · rw [hoff.2] at hq
    cases hq

/-- Only a write to rxctrl reaches the receiver (rules R101 to R114). -/
theorem State.writeReg_receiverOff {s t : State} {r : Reg} {v : Word} (hoff : s.ReceiverOff) (hr : r ≠ .rxctrl)
    (hw : s.writeReg r v = .ok t) : t.ReceiverOff := by
  unfold State.ReceiverOff
  rcases State.writeReg_hw hw with ⟨-, e | ⟨-, e⟩⟩ | ⟨-, e⟩ | ⟨hrx, -⟩ | ⟨-, e⟩ | ⟨-, e⟩
  case inr.inr.inl => exact absurd hrx hr
  all_goals
    rw [e]
    exact hoff

/-- No operation but `mmio.w rxctrl` (descriptor 0x8C) turns the receiver on (rules R107, R108). -/
theorem FgStep.receiverOff {i : Instr} {s t : State} (h : FgStep i s t) (hi : descriptor i ≠ 0x8C#8)
    (hoff : s.ReceiverOff) : t.ReceiverOff := by
  cases h
  case read r hl => exact State.readReg_receiverOff hoff r
  case write r v u hl hd hw =>
    refine State.writeReg_receiverOff (t := u) hoff ?_ hw
    rintro rfl
    exact hi (congrArg Entry.desc hd)
  all_goals exact hoff

/-- The handler writes txdata, txctrl and ie only (rules R181, R186). -/
theorem HsStep.receiverOff {lbl : HsLabel} {l : HsLocals} {s t : State} (h : HsStep lbl l s t)
    (hoff : s.ReceiverOff) : t.ReceiverOff := by
  cases h <;> exact hoff

/-- An empty receive FIFO is above no trigger count (rule R32). -/
theorem State.ReceiverOff.rxwmCond {s : State} (hoff : s.ReceiverOff) : s.rxwmCond = false := by
  rw [← Bool.not_eq_true, State.rxwmCond_iff, hoff.2]
  exact Nat.not_lt_zero _

/-! ## What the foreground fetches -/

/-- The operation the foreground fetches has the descriptor of an entry of the program (rule R44). -/
theorem State.fetch_descriptor {s : State} {i : Instr} (h : s.fetch = .ok (.op i)) :
    ∃ e ∈ s.program.ops, e.desc = descriptor i := by
  unfold State.fetch at h
  split at h
  · next e he => exact ⟨e, List.mem_of_getElem? he, (decode_descriptor h).symm⟩
  · cases h

/-- The foreground of a program without `mmio.w rxctrl` never fetches it. -/
theorem State.fetch_ne_rxctrlWrite {s : State} {i : Instr} (hp : s.program.noRxctrlWrite = true)
    (h : s.fetch = .ok (.op i)) : descriptor i ≠ 0x8C#8 := by
  obtain ⟨e, he, hd⟩ := State.fetch_descriptor h
  simpa [hd] using List.all_eq_true.mp hp e he

/-! ## The obligation -/

/-- Every agent keeps the receiver off: the line is not enabled, and only the foreground could write rxctrl. -/
theorem step_receiverOff {s t : State} (hp : s.program.noRxctrlWrite = true) (hoff : s.ReceiverOff)
    (h : step s = .next t) : t.ReceiverOff := by
  obtain ⟨u, hu, -, -, hx⟩ := step_cases h
  have huoff : u.ReceiverOff := by rw [hu]; exact hoff
  have hup : u.program.noRxctrlWrite = true := by rw [hu]; exact hp
  rcases hx with rfl | ⟨-, i, hi, -, hfg⟩ | ⟨-, -, rfl⟩ | ⟨lbl, l, -, hhs⟩ | ⟨-, -, rfl⟩ | ⟨b, rest, -, -, rfl⟩ |
    ⟨b, hon, -⟩
  · exact huoff
  · exact hfg.receiverOff (State.fetch_ne_rxctrlWrite hup hi) huoff
  · exact huoff
  · exact hhs.receiverOff huoff
  · exact huoff
  · exact huoff
  · simp [huoff.1] at hon

/-- Settles O15: no step turns the receiver on, and no step changes the program. -/
theorem receiverStaysOff : Obligations.ReceiverStaysOff := by
  intro s t hp hoff h
  have htoff := step_receiverOff hp hoff h
  exact ⟨htoff, (step_program h).symm ▸ hp, State.ReceiverOff.rxwmCond htoff⟩

end Sys2Proof.Machine
end

section
/-! configure (rules R141 to R145): its micro-step at each label, what CF0 answers to an operand it does not support and to
a divisor that fits, and the two obligations. -/

namespace Sys2Proof.Machine

section

variable {s : State} {baud : Word} {parity : Parity} {flow : Bool} {stop : StopBits}

/-! ## One micro-step (rule R141) -/

theorem exec_configure_start (h : s.fg.lbl = .start) :
    exec (.configure baud parity flow stop) s = .next (configureCheck baud parity flow s) := by
  simp [exec, execConfigure, h]

theorem exec_configure_cf1 (h : s.fg.lbl = .cf1) :
    exec (.configure baud parity flow stop) s = .next (configureDivisor s) := by
  simp [exec, execConfigure, h]

theorem exec_configure_cf2 (h : s.fg.lbl = .cf2) :
    exec (.configure baud parity flow stop) s = .next (configureStop stop s) := by
  simp [exec, execConfigure, h]

/-! ## CF0 -/

/-- The feature checks come first: neither the driver nor the other operands are looked at (rule R142). -/
theorem configureCheck_unsupported (h : parity ≠ .none ∨ flow = true) :
    configureCheck baud parity flow s = s.ret (.result .unsupportedFeature) := by
  unfold configureCheck
  by_cases hp : parity ≠ .none
  · rw [if_pos hp]
  · rw [if_neg hp, if_pos (h.resolve_left hp)]

/-- Where the clock reaches the baud rate, the word arithmetic of the divisor does not wrap (rule R143). -/
theorem toNat_divisor {clock : Word} (h : 1 ≤ clock.toNat / baud.toNat) :
    (clock / baud - 1).toNat = clock.toNat / baud.toNat - 1 := by
  have hle : (1 : Word) ≤ clock / baud := by simpa [BitVec.le_def] using h
  rw [BitVec.toNat_sub_of_le hle, BitVec.toNat_udiv]
  rfl

/-- The div field of a word is its value modulo 2^16 (rule R81). -/
theorem divField_eq (v : Word) : divField v = BitVec.ofNat 16 v.toNat :=
  rfl

/-- CF0 with no feature asked for, no transfer in flight and a divisor that fits goes on to write it (rules R141, R145). -/
theorem configureCheck_accepts (hbusy : s.drv.busy = false) (hclock : 1 ≤ s.drv.clock.toNat / baud.toNat)
    (hfit : s.drv.clock.toNat / baud.toNat - 1 ≤ 0xFFFF) :
    configureCheck baud .none false s = s.goto .cf1 { s.fg.loc with d := s.drv.clock / baud - 1 } := by
  have hbaud : ¬ baud = 0 := by
    rintro rfl
    simp at hclock
  have hquot : ¬ s.drv.clock / baud = 0 := by
    intro h
    have hzero := congrArg BitVec.toNat h
    rw [BitVec.toNat_udiv] at hzero
    simp [hzero] at hclock
  have hmax : ¬ 0xFFFF#32 < s.drv.clock / baud - 1 := by
    rw [BitVec.lt_def, toNat_divisor hclock]
    exact Nat.not_lt.mpr hfit
  simp only [configureCheck, hbusy, hbaud, hquot, hmax, ne_eq, not_true_eq_false, Bool.false_eq_true, if_false]

end

/-! ## The obligations -/

/-- Settles O16: the three micro-steps in turn, CF0 accepting and CF1 writing the divisor it left in the locals. -/
theorem configureWritesDivisor : Obligations.ConfigureWritesDivisor := by
  intro s baud stop d hs hbusy _ hclock hd hfit
  subst hd
  have hdiv := toNat_divisor hclock
  refine ⟨_, _, (exec_configure_start hs).trans (congrArg _ (configureCheck_accepts hbusy hclock hfit)),
    exec_configure_cf1 rfl, ?_⟩
  rw [configureDivisor_eq (hdiv.trans_le hfit), exec_configure_cf2 rfl, ← hdiv, ← divField_eq,
    BitVec.ofNat_toNat, BitVec.setWidth_eq]
  simp [configureStop, State.ret, State.emit]

/-- Settles O17: the operands are numbered by their encoding, and CF0 answers at its feature checks. -/
theorem configureUnsupportedFeature : Obligations.ConfigureUnsupportedFeature := by
  intro s baud parity flow stop
  refine ⟨by cases flow <;> rfl, fun hs h => ?_⟩
  rw [exec_configure_start hs, configureCheck_unsupported h]
  rfl

end Sys2Proof.Machine
end

section
/-! The answers of the transmit and receive families that come back from Start at once (rules R162, R168, R169, R202,
R203): a return is the whole of the micro-step. -/

namespace Sys2Proof.Machine

/-! ## A return -/

/-- The next state of a return written out: one event, and the foreground at the next operation (rules R44, R47). -/
theorem State.ret_eq (s : State) (r : RetVal) :
    s.ret r = { s with trace := s.trace ++ [.ret s.fg.k r], fg := ⟨s.fg.k + 1, .start, .empty⟩ } :=
  rfl

/-- An operation of one micro-step that only returns changes nothing but the trace and the foreground (rule R44). -/
theorem State.oneStep_ret {s : State} (hs : s.fg.lbl = .start) (r : RetVal) :
    s.oneStep (s.ret r) =
      .next { s with trace := s.trace ++ [.ret s.fg.k r], fg := ⟨s.fg.k + 1, .start, .empty⟩ } := by
  rw [State.oneStep_start hs, State.ret_eq]

/-! ## TB0 -/

theorem exec_transmitBuffer_start {s : State} (hs : s.fg.lbl = .start) (buf : Buffer) (len : Word) :
    exec (.transmitBuffer buf len) s = .next (bufferEnter buf len s) := by
  simp [exec, execTransmitBuffer, hs]

/-- The length is checked before the driver is looked at, so a transfer in flight does not matter (rule R162). -/
theorem bufferEnter_zero (buf : Buffer) (s : State) :
    bufferEnter buf 0#32 s = s.ret (.resultBuffer .invalidSize (some buf)) :=
  if_pos rfl

/-! ## The obligations -/

/-- Settles O23: TB0 answers at its first check. -/
theorem zeroLengthReturnsBuffer : Obligations.ZeroLengthReturnsBuffer := by
  intro s buf hs
  rw [exec_transmitBuffer_start hs, bufferEnter_zero, State.ret_eq]

/-- Settles O28: each of the four operations is the one micro-step that returns GeneralFailure. -/
theorem stubsReturnGeneralFailure : Obligations.StubsReturnGeneralFailure := by
  refine ⟨rfl, fun _ => rfl, rfl, rfl, fun s t w hs ht => ?_⟩
  have hret : s.oneStep (s.ret (.result .generalFailure)) = .next t := by
    rw [State.oneStep_ret hs, ht]
  exact ⟨hret, hret, hret, hret⟩

end Sys2Proof.Machine
end

section
/-! receive_buffer (rule R201): like the other receive operations, a return is the whole of its one micro-step. -/

namespace Sys2Proof.Machine

/-- What receive_buffer does at any label: the length does not occur in it (rule R201). -/
theorem exec_receiveBuffer (buf : Buffer) (len : Word) (s : State) :
    exec (.receiveBuffer buf len) s = s.oneStep (s.ret (.resultBuffer .generalFailure (some buf))) :=
  rfl

/-- Settles O29: the one micro-step that returns GeneralFailure with the buffer. -/
theorem receiveBufferReturnsBuffer : Obligations.ReceiveBufferReturnsBuffer := by
  intro s buf len
  refine ⟨rfl, fun hs => ?_⟩
  rw [exec_receiveBuffer, State.oneStep_ret hs]

end Sys2Proof.Machine
end

section
/-! The encoder undoes the decoder, and which entries the decoder and the check of a program refuse (rules R84 to R88,
R232). -/

namespace Sys2Proof

/-! ## The operands of whatever the decoder reads (rules R85 to R87) -/

theorem readOp_operands {off : BitVec 5} {i : Instr} (h : readOp off = .op i) : operands i = [] := by
  unfold readOp at h
  split at h <;> cases h <;> rfl

theorem writeOp_operands {off : BitVec 5} {v : Word} {i : Instr} (h : writeOp off v = .op i) :
    operands i = [.num v.toNat] := by
  unfold writeOp at h
  split at h <;> cases h <;> rfl

/-- Each operand of an API operation is the one its reader read. -/
theorem apiOp_operands {n : Nat} {args : List Operand} {i : Instr} (h : apiOp n args = some i) : operands i = args := by
  unfold apiOp at h
  split at h
  all_goals
    simp only [Option.bind_eq_bind, Option.bind_eq_some_iff, Option.map_eq_some_iff, Option.pure_def,
      Option.some.injEq, reduceCtorEq] at h
  case h_1 =>
    obtain ⟨baud, hb, parity, hp, flow, hf, stop, hs, rfl⟩ := h
    rw [word?_eq_some hb, parity?_eq_some hp, bool?_eq_some hf, stop?_eq_some hs]
    rfl
  case h_2 =>
    obtain ⟨bytes, hb, rfl⟩ := h
    rw [bytes?_eq_some hb]
    rfl
  case h_3 | h_6 =>
    obtain ⟨buf, hb, len, hl, rfl⟩ := h
    rw [buffer?_eq_some hb, word?_eq_some hl]
    rfl
  case h_5 =>
    obtain ⟨word, hw, rfl⟩ := h
    rw [word?_eq_some hw]
    rfl
  case h_9 | h_10 =>
    obtain ⟨client, hc, rfl⟩ := h
    rw [client?_eq_some hc]
    rfl
  all_goals
    subst h
    rfl

theorem decodeMmio_operands {d : Byte} {args : List Operand} {i : Instr} (h : decodeMmio d args = .ok (.op i)) :
    operands i = args := by
  unfold decodeMmio at h
  split at h
  · exact readOp_operands (Except.ok.inj h)
  · split at h
    · next hv => rw [word?_eq_some hv, writeOp_operands (Except.ok.inj h)]
    · cases h
  · cases h

theorem decodeApi_operands {d : Byte} {args : List Operand} {i : Instr} (h : decodeApi d args = .ok (.op i)) :
    operands i = args := by
  unfold decodeApi at h
  split at h
  · cases h
  · split at h
    · next hop =>
      cases h
      exact apiOp_operands hop
    · cases h

/-- No operand of an entry is dropped by the decoder. -/
theorem decode_operands {e : Entry} {i : Instr} (h : decode e = .ok (.op i)) : operands i = e.args := by
  unfold decode at h
  split at h
  · exact decodeMmio_operands h
  · exact decodeApi_operands h
  · cases h

/-- An entry that decodes to an operation is that operation's encoding. -/
theorem encode_of_decode {e : Entry} {i : Instr} (h : decode e = .ok (.op i)) : encode i = e := by
  rw [encode, decode_descriptor h, decode_operands h]

/-! ## The decoder by format, and what it calls reserved (rules R84, R88) -/

theorem fmt_cases (f : BitVec 2) : f = 0#2 ∨ f = 1#2 ∨ f = 2#2 ∨ f = 3#2 := by
  revert f
  decide

theorem decode_mmio {d : Byte} (hfmt : descFmt d = 0#2) (args : List Operand) :
    decode ⟨d, args⟩ = decodeMmio d args := by
  simp [decode, hfmt]

theorem decode_apiFormat {d : Byte} (hfmt : descFmt d = 2#2) (args : List Operand) :
    decode ⟨d, args⟩ = decodeApi d args := by
  simp [decode, hfmt]

theorem decode_reservedFormat {d : Byte} (hfmt : descFmt d = 1#2 ∨ descFmt d = 3#2) (args : List Operand) :
    decode ⟨d, args⟩ = .error (.reservedDescriptor d) := by
  rcases hfmt with hfmt | hfmt <;> simp [decode, hfmt]

/-- Every MMIO descriptor is one of rule R84: only its operands can be refused. -/
theorem decodeMmio_ne_reserved (d : Byte) (args : List Operand) :
    decodeMmio d args ≠ .error (.reservedDescriptor d) := by
  unfold decodeMmio
  split
  · exact nofun
  · split <;> exact nofun
  · exact nofun

theorem decodeApi_reserved_iff (d : Byte) (args : List Operand) :
    decodeApi d args = .error (.reservedDescriptor d) ↔ descW d = true ∨ 10 < (descOff d).toNat := by
  unfold decodeApi
  split
  · next h => simpa using h
  · next h =>
    refine ⟨fun e => ?_, fun hr => absurd (by simpa using hr) h⟩
    split at e <;> cases e

/-! ## Which entries a program may hold (rules R88, R232) -/

/-- The operation may stand in a program exactly when it is not handle_interrupt and its buffer, if any, is declared. -/
theorem Instr.check_eq_none_iff {bufs : List Buffer} {i : Instr} :
    i.check bufs = none ↔ i ≠ .handleInterrupt ∧ ∀ b, i.buffer? = some b → b ∈ bufs := by
  unfold Instr.check
  split
  · next hi => simp [hi]
  · next hi => cases hb : i.buffer? <;> simp [hi]

/-- An entry is admitted exactly when it decodes and the operation it decodes to, if it is one, passes its check. -/
theorem Entry.refusal_eq_none_iff {bufs : List Buffer} {e : Entry} :
    e.refusal bufs = none ↔ ∃ f, decode e = .ok f ∧ ∀ i, f = .op i → i.check bufs = none := by
  refine ⟨Entry.refusal_eq_none, ?_⟩
  rintro ⟨f, hd, hc⟩
  unfold Entry.refusal
  rw [hd]
  cases f with
  | op i => exact hc i rfl
  | unmappedRead off => rfl
  | unmappedWrite off v => rfl

/-- The operation of an MMIO entry names no buffer and is not handle_interrupt. -/
theorem decodeMmio_check {d : Byte} {args : List Operand} {i : Instr} (bufs : List Buffer)
    (h : decodeMmio d args = .ok (.op i)) : i.check bufs = none := by
  unfold decodeMmio readOp writeOp at h
  split at h
  · split at h <;> cases h <;> rfl
  · split at h
    · have h := Except.ok.inj h
      split at h <;> cases h <;> rfl
    · cases h
  · cases h

theorem word?_num_lt {n : Nat} (h : n < 2 ^ 32) : (Operand.num n).word? = some (BitVec.ofNat 32 n) :=
  if_pos h

/-- An MMIO entry is admitted exactly when its operands are those of rule R84, whatever its offset. -/
theorem refusal_mmio_iff {d : Byte} (hfmt : descFmt d = 0#2) (args : List Operand) (bufs : List Buffer) :
    Entry.refusal bufs ⟨d, args⟩ = none ↔
      descW d = false ∧ args = [] ∨ descW d = true ∧ ∃ v < 2 ^ 32, args = [.num v] := by
  have hok : Entry.refusal bufs ⟨d, args⟩ = none ↔ ∃ f, decodeMmio d args = .ok f := by
    rw [Entry.refusal_eq_none_iff, decode_mmio hfmt]
    refine exists_congr fun f => ⟨And.left, fun hd => ⟨hd, ?_⟩⟩
    rintro i rfl
    exact decodeMmio_check bufs hd
  rw [hok]
  constructor
  · rintro ⟨f, hf⟩
    unfold decodeMmio at hf
    split at hf
    · exact .inl ⟨‹_›, rfl⟩
    · split at hf
      · next hw _ v hv => exact .inr ⟨hw, v.toNat, v.isLt, by rw [word?_eq_some hv]⟩
      · cases hf
    · cases hf
  · rintro (⟨hw, rfl⟩ | ⟨hw, v, hv, rfl⟩)
    · exact ⟨readOp (descOff d), by simp only [decodeMmio, hw]⟩
    · exact ⟨writeOp (descOff d) (BitVec.ofNat 32 v), by simp only [decodeMmio, hw, word?_num_lt hv]⟩

/-- The operands of API operation number `op`, each in its type, with its buffer declared (rules R86, R87, R232). -/
def ApiArgs (bufs : List Buffer) (op : Nat) (args : List Operand) : Prop :=
  op = 0 ∧ (∃ baud < 2 ^ 32, ∃ parity < 3, ∃ flow < 2, ∃ stop < 2,
      args = [.num baud, .num parity, .num flow, .num stop]) ∨
    op = 1 ∧ (∃ bytes, (∀ b ∈ bytes, b < 2 ^ 8) ∧ args = [.bytes bytes]) ∨
    (op = 2 ∨ op = 5) ∧ (∃ buf ∈ bufs, ∃ len < 2 ^ 32, args = [.buffer buf, .num len]) ∨
    (op = 3 ∨ op = 6 ∨ op = 7) ∧ args = [] ∨
    op = 4 ∧ (∃ w < 2 ^ 32, args = [.num w]) ∨
    (op = 8 ∨ op = 9) ∧ ∃ c, args = [.client c]

theorem Parity.exists_code {n : Nat} (h : n < 3) : ∃ p : Parity, p.code = n := by
  match n, h with
  | 0, _ => exact ⟨.none, rfl⟩
  | 1, _ => exact ⟨.odd, rfl⟩
  | 2, _ => exact ⟨.even, rfl⟩

theorem StopBits.exists_code {n : Nat} (h : n < 2) : ∃ p : StopBits, p.code = n := by
  match n, h with
  | 0, _ => exact ⟨.one, rfl⟩
  | 1, _ => exact ⟨.two, rfl⟩

theorem exists_bool_toNat {n : Nat} (h : n < 2) : ∃ b : Bool, b.toNat = n := by
  match n, h with
  | 0, _ => exact ⟨false, rfl⟩
  | 1, _ => exact ⟨true, rfl⟩

theorem exists_word_toNat {n : Nat} (h : n < 2 ^ 32) : ∃ v : Word, v.toNat = n :=
  ⟨BitVec.ofNatLT n h, BitVec.toNat_ofNatLT n h⟩

theorem exists_bytes_toNat {l : List Nat} (h : ∀ b ∈ l, b < 2 ^ 8) : ∃ bs : List Byte, bs.map BitVec.toNat = l := by
  change l ∈ Set.range (List.map BitVec.toNat)
  rw [Set.range_list_map]
  exact fun b hb => ⟨BitVec.ofNatLT b (h b hb), BitVec.toNat_ofNatLT b (h b hb)⟩

/-- The operands of an admitted API operation are in their types (rules R86, R87). -/
theorem apiArgs_operands {bufs : List Buffer} {i : Instr} (hfmt : descFmt (descriptor i) = 2#2)
    (hc : i.check bufs = none) : ApiArgs bufs (descOff (descriptor i)).toNat (operands i) := by
  obtain ⟨hne, hbuf⟩ := Instr.check_eq_none_iff.1 hc
  cases i
  case handleInterrupt => exact absurd rfl hne
  case configure b p f c =>
    exact .inl ⟨(by decide : (descOff 0x40#8).toNat = 0), b.toNat, b.isLt, p.code, by cases p <;> decide, f.toNat,
      f.toNat_lt, c.code, by cases c <;> decide, rfl⟩
  case transmitSync l =>
    refine .inr (.inl ⟨(by decide : (descOff 0x41#8).toNat = 1), l.map BitVec.toNat, fun b hb => ?_, rfl⟩)
    obtain ⟨x, -, rfl⟩ := List.mem_map.1 hb
    exact x.isLt
  case transmitBuffer b n =>
    exact .inr (.inr (.inl ⟨.inl (by decide : (descOff 0x42#8).toNat = 2), b, hbuf b rfl, n.toNat, n.isLt, rfl⟩))
  case transmitAbort => exact .inr (.inr (.inr (.inl ⟨.inl rfl, rfl⟩)))
  case transmitWord w =>
    exact .inr (.inr (.inr (.inr (.inl ⟨(by decide : (descOff 0x44#8).toNat = 4), w.toNat, w.isLt, rfl⟩))))
  case receiveBuffer b n =>
    exact .inr (.inr (.inl ⟨.inr (by decide : (descOff 0x45#8).toNat = 5), b, hbuf b rfl, n.toNat, n.isLt, rfl⟩))
  case receiveAbort => exact .inr (.inr (.inr (.inl ⟨.inr (.inl rfl), rfl⟩)))
  case receiveWord => exact .inr (.inr (.inr (.inl ⟨.inr (.inr rfl), rfl⟩)))
  case setTransmitClient c =>
    exact .inr (.inr (.inr (.inr (.inr ⟨.inl (by decide : (descOff 0x48#8).toNat = 8), c, rfl⟩))))
  case setReceiveClient c =>
    exact .inr (.inr (.inr (.inr (.inr ⟨.inr (by decide : (descOff 0x49#8).toNat = 9), c, rfl⟩))))
  all_goals simp [descriptor, descFmt] at hfmt

/-- Operands in their types are the operands of an operation that passes its check (rules R86, R87). -/
theorem ApiArgs.exists_apiOp {bufs : List Buffer} {op : Nat} {args : List Operand} (h : ApiArgs bufs op args) :
    op ≤ 10 ∧ ∃ i, apiOp op args = some i ∧ i.check bufs = none := by
  rcases h with ⟨rfl, baud, hb, parity, hp, flow, hf, stop, hs, rfl⟩ | ⟨rfl, bytes, hb, rfl⟩ |
    ⟨hop, buf, hbuf, len, hl, rfl⟩ | ⟨hop, rfl⟩ | ⟨rfl, w, hw, rfl⟩ | ⟨hop, c, rfl⟩
  · obtain ⟨b, rfl⟩ := exists_word_toNat hb
    obtain ⟨p, rfl⟩ := Parity.exists_code hp
    obtain ⟨f, rfl⟩ := exists_bool_toNat hf
    obtain ⟨c, rfl⟩ := StopBits.exists_code hs
    exact ⟨by omega, _, apiOp_configure b p f c, rfl⟩
  · obtain ⟨l, rfl⟩ := exists_bytes_toNat hb
    exact ⟨by omega, _, apiOp_transmitSync l, rfl⟩
  · obtain ⟨n, rfl⟩ := exists_word_toNat hl
    rcases hop with rfl | rfl
    · exact ⟨by omega, _, apiOp_transmitBuffer buf n, if_pos hbuf⟩
    · exact ⟨by omega, _, apiOp_receiveBuffer buf n, if_pos hbuf⟩
  · rcases hop with rfl | rfl | rfl <;> exact ⟨by omega, _, rfl, rfl⟩
  · obtain ⟨n, rfl⟩ := exists_word_toNat hw
    exact ⟨by omega, _, apiOp_transmitWord n, rfl⟩
  · rcases hop with rfl | rfl <;> exact ⟨by omega, _, rfl, rfl⟩

/-- An API entry is admitted exactly when its operation number and its operands are those of rule R86. -/
theorem refusal_api_iff {d : Byte} (hfmt : descFmt d = 2#2) (args : List Operand) (bufs : List Buffer) :
    Entry.refusal bufs ⟨d, args⟩ = none ↔ descW d = false ∧ ApiArgs bufs (descOff d).toNat args := by
  rw [Entry.refusal_eq_none_iff]
  constructor
  · rintro ⟨f, hd, hc⟩
    have hw : descW d = false := by
      by_contra hw
      rw [decode_apiFormat hfmt, (decodeApi_reserved_iff d args).2 (.inl (by simpa using hw))] at hd
      cases hd
    obtain ⟨i, rfl⟩ : ∃ i, f = .op i := by
      rw [decode_apiFormat hfmt] at hd
      unfold decodeApi at hd
      split at hd
      · cases hd
      · split at hd <;> cases hd
        exact ⟨_, rfl⟩
    obtain rfl : descriptor i = d := decode_descriptor hd
    obtain rfl : operands i = args := decode_operands hd
    exact ⟨hw, apiArgs_operands hfmt (hc i rfl)⟩
  · rintro ⟨hw, ha⟩
    obtain ⟨hop, i, hi, hc⟩ := ha.exists_apiOp
    refine ⟨.op i, decode_api d _ ⟨hfmt, hw, rfl, hop⟩ hi, ?_⟩
    rintro _ ⟨⟩
    exact hc

/-- An entry whose format bits are reserved is refused (rule R88). -/
theorem refusal_reservedFormat {d : Byte} (hfmt : descFmt d = 1#2 ∨ descFmt d = 3#2) (args : List Operand)
    (bufs : List Buffer) : Entry.refusal bufs ⟨d, args⟩ ≠ none := by
  simp [Entry.refusal, decode_reservedFormat hfmt]

/-! ## The obligations -/

/-- Settles O47: one row of rules R85 and R86 for each operation. -/
theorem decodeOfEncode : Obligations.DecodeOfEncode := decode_encode

/-- Settles O48: the descriptor and the operands of whatever was decoded are the entry's. -/
theorem encodeOfDecode : Obligations.EncodeOfDecode := fun _ _ => encode_of_decode

/-- Settles O50: one case for each value of the format bits. -/
theorem reservedDescriptors : Obligations.ReservedDescriptors := by
  intro d args
  change _ ↔ descFmt d = 1#2 ∨ descFmt d = 3#2 ∨ descFmt d = 2#2 ∧ (descW d = true ∨ 10 < (descOff d).toNat)
  rcases fmt_cases (descFmt d) with hfmt | hfmt | hfmt | hfmt
  · simp [decode_mmio hfmt, decodeMmio_ne_reserved, hfmt]
  · simp [decode_reservedFormat (.inl hfmt), hfmt]
  · simp [decode_apiFormat hfmt, decodeApi_reserved_iff, hfmt]
  · simp [decode_reservedFormat (.inr hfmt), hfmt]

end Sys2Proof

namespace Sys2Proof.Machine

/-! ## What a step refuses (rule R232) -/

theorem State.oneStep_ne_refused (s t : State) (r : Refusal) : s.oneStep t ≠ .refused r := by
  rcases s.oneStep_cases t with ⟨-, e⟩ | ⟨-, e⟩ <;> simp [e]

theorem fillStep_ne_refused (m : MicroStep) (n : FgLabel) (s : State) (r : Refusal) : fillStep m n s ≠ .refused r := by
  unfold fillStep
  split <;> exact nofun

/-- Every foreground operation has a meaning: none is refused. -/
theorem exec_ne_refused {i : Instr} (hi : i ≠ .handleInterrupt) (s : State) (r : Refusal) : exec i s ≠ .refused r := by
  cases i
  case handleInterrupt => exact absurd rfl hi
  case configure baud p f c =>
    change execConfigure baud p f c s ≠ _
    unfold execConfigure
    split <;> exact nofun
  case transmitSync l =>
    change execTransmitSync l s ≠ _
    unfold execTransmitSync
    split
    case h_4 => split <;> exact nofun
    all_goals exact nofun
  case transmitBuffer b n =>
    change execTransmitBuffer b n s ≠ _
    unfold execTransmitBuffer
    split
    case h_3 =>
      split
      · exact fillStep_ne_refused _ _ s r
      · exact nofun
    case h_4 =>
      split
      · exact nofun
      · exact fillStep_ne_refused _ _ s r
    case h_5 => split <;> exact nofun
    all_goals exact nofun
  all_goals exact s.oneStep_ne_refused _ r

theorem State.runForeground_ne_refused {s : State} (he : s.foregroundEnabled = true)
    (hp : s.program.refusal = none) (r : Refusal) : s.runForeground ≠ .refused r := by
  obtain ⟨-, -, hk⟩ := s.foregroundEnabled_iff.1 he
  obtain ⟨f, hf, hne⟩ := State.fetch_admitted hp hk
  unfold State.runForeground
  rw [hf]
  cases f with
  | op i => exact exec_ne_refused (fun hi => hne (congrArg _ hi)) s r
  | unmappedRead off => exact s.oneStep_ne_refused _ r
  | unmappedWrite off v => exact s.oneStep_ne_refused _ r

/-- handle_interrupt answers a next state where the handler runs and where dispatch is enabled (rules R45, R240). -/
theorem exec_handleInterrupt_enabled {s : State} (h : s.handlerEnabled = true ∨ s.dispatchEnabled = true) :
    ∃ t, exec .handleInterrupt s = .next t := by
  rcases h with h | h
  · simp only [State.handlerEnabled, Bool.and_eq_true] at h
    obtain ⟨x, hx⟩ := Option.isSome_iff_exists.1 h.2
    exact ⟨_, exec_handleInterrupt hx⟩
  · obtain ⟨-, hn, -, -⟩ := s.dispatchEnabled_iff.1 h
    exact ⟨s.takeInterrupt, by simp [exec, execHandleInterrupt, hn, h]⟩

/-- No agent that is chosen refuses: handle_interrupt runs only where the handler runs or dispatch is enabled. -/
theorem State.runChoice_ne_refused {s : State} (hp : s.program.refusal = none) (c : Choice) (r : Refusal) :
    s.runChoice c ≠ .refused r := by
  unfold State.runChoice
  split
  · next he =>
    cases c with
    | foreground => exact State.runForeground_ne_refused he hp r
    | handler =>
      obtain ⟨t, ht⟩ := exec_handleInterrupt_enabled (.inl he)
      simp [ht]
    | dispatch =>
      obtain ⟨t, ht⟩ := exec_handleInterrupt_enabled (.inr he)
      simp [ht]
    | transmitter => exact nofun
    | line b => exact nofun
  · exact nofun

/-- No step of an admitted program is refused. -/
theorem step_ne_refused {s : State} (hp : s.program.refusal = none) (r : Refusal) : step s ≠ .refused r := by
  cases hf : s.fault with
  | some f => simp [step, hp, hf]
  | none =>
    rw [step_running hp hf]
    have hpu : s.nextChoice.2.program.refusal = none := by rw [s.nextChoice_frame]; exact hp
    exact State.runChoice_ne_refused hpu _ r

/-! ## The obligation on whole programs -/

/-- Settles O45: a refused entry refuses the program, no step of an admitted program is refused, and the entries that
are admitted are given by their format. -/
theorem refusedProgramHasNoRun : Obligations.RefusedProgramHasNoRun := by
  refine ⟨fun s => ⟨?_, fun h k r => step_ne_refused (Program.refusal_eq_none.2 h) _⟩, ?_⟩
  · rintro ⟨e, he, hne⟩
    cases hp : s.program.refusal with
    | none => exact absurd (Program.refusal_eq_none.1 hp e he) hne
    | some kr => exact ⟨kr.1, kr.2, by simp [step, hp]⟩
  · intro d args bufs op hop
    subst hop
    change _ ↔ descFmt d = 0#2 ∧ descW d = false ∧ args = [] ∨
      descFmt d = 0#2 ∧ descW d = true ∧ (∃ v < 2 ^ 32, args = [.num v]) ∨
      descFmt d = 2#2 ∧ descW d = false ∧ ApiArgs bufs (descOff d).toNat args
    rcases fmt_cases (descFmt d) with hfmt | hfmt | hfmt | hfmt
    · simp [refusal_mmio_iff hfmt, hfmt]
    · simp [refusal_reservedFormat (.inl hfmt), hfmt]
    · simp [refusal_api_iff hfmt, hfmt]
    · simp [refusal_reservedFormat (.inr hfmt), hfmt]

end Sys2Proof.Machine
end

section
/-! What one step of any agent changes of the trace, the fault, the parameters and the driver record (rules R13, R20, R36
to R43, R48, R184, R223, R230). -/

namespace Sys2Proof.Machine

/-! ## The parameters of a run (rules R20, R36, R37, R73) -/

/-- What no step writes. -/
abbrev SameParameters (s t : State) : Prop :=
  t.program = s.program ∧ t.params = s.params ∧ t.drv.base = s.drv.base ∧ t.drv.clock = s.drv.clock

theorem FgStep.sameParameters {i : Instr} {s t : State} (h : FgStep i s t) : SameParameters s t := by
  cases h
  case read r hl =>
    rcases s.readReg_cases r with e | e | ⟨-, b, rest, -, e⟩ <;> rw [e] <;> exact ⟨rfl, rfl, rfl, rfl⟩
  case write r v u hl hd hw =>
    obtain ⟨hw', rfl⟩ := State.writeReg_ok hw
    exact ⟨rfl, rfl, rfl, rfl⟩
  all_goals exact ⟨rfl, rfl, rfl, rfl⟩

theorem HsStep.sameParameters {lbl : HsLabel} {l : HsLocals} {s t : State} (h : HsStep lbl l s t) :
    SameParameters s t := by
  cases h <;> exact ⟨rfl, rfl, rfl, rfl⟩

theorem step_sameParameters {s t : State} (h : step s = .next t) : SameParameters s t := by
  obtain ⟨u, hu, -, -, hx⟩ := step_cases h
  suffices hut : SameParameters u t by rwa [hu] at hut
  rcases hx with rfl | ⟨-, i, -, -, hfg⟩ | ⟨-, -, rfl⟩ | ⟨lbl, l, -, hhs⟩ | ⟨-, -, rfl⟩ | ⟨b, rest, -, -, rfl⟩ |
    ⟨b, -, ⟨-, rfl⟩ | ⟨-, rfl⟩⟩
  case inr.inl => exact hfg.sameParameters
  case inr.inr.inr.inl => exact hhs.sameParameters
  all_goals exact ⟨rfl, rfl, rfl, rfl⟩

/-! ## The fault (rule R230) -/

/-- A read raises nothing. -/
theorem State.readReg_fault (s : State) (r : Reg) : (s.readReg r).2.fault = s.fault := by
  rcases s.readReg_cases r with e | e | ⟨-, b, rest, -, e⟩ <;> simp [e]

theorem FgStep.fault_cases {i : Instr} {s t : State} (h : FgStep i s t) :
    t.fault = s.fault ∨ ∃ r m, t = s.raise r .foreground m := by
  cases h
  case raise r m => exact .inr ⟨r, m, rfl⟩
  case read r hl => exact .inl (s.readReg_fault r)
  case write r v u hl hd hw =>
    obtain ⟨hw', rfl⟩ := State.writeReg_ok hw
    exact .inl rfl
  all_goals exact .inl rfl

theorem HsStep.fault_cases {lbl : HsLabel} {l : HsLocals} {s t : State} (h : HsStep lbl l s t) :
    t.fault = s.fault ∨ ∃ r m, t = s.raise r .handler m := by
  cases h
  case raise r m => exact .inr ⟨r, m, rfl⟩
  all_goals exact .inl rfl

/-- A step either leaves the fault unset or only raises one, after taking its choice. -/
theorem step_fault_cases {s t : State} (h : step s = .next t) :
    t.fault = none ∨ ∃ (u : State) (r : FaultReason) (c : Ctx) (m : MicroStep),
      u = { s with schedule := u.schedule, draws := u.draws } ∧ t = u.raise r c m := by
  obtain ⟨u, hu, -, hf, hx⟩ := step_cases h
  have huf : u.fault = none := by rw [hu]; exact hf
  rcases hx with rfl | ⟨-, i, -, -, hfg⟩ | ⟨-, -, rfl⟩ | ⟨lbl, l, -, hhs⟩ | ⟨-, -, rfl⟩ | ⟨b, rest, -, -, rfl⟩ |
    ⟨b, -, ⟨-, rfl⟩ | ⟨-, rfl⟩⟩
  case inr.inl =>
    rcases hfg.fault_cases with e | ⟨r, m, e⟩
    · exact .inl (e.trans huf)
    · exact .inr ⟨u, r, _, m, hu, e⟩
  case inr.inr.inl => exact .inr ⟨u, _, _, _, hu, rfl⟩
  case inr.inr.inr.inl =>
    rcases hhs.fault_cases with e | ⟨r, m, e⟩
    · exact .inl (e.trans huf)
    · exact .inr ⟨u, r, _, m, hu, e⟩
  all_goals exact .inl huf

/-! ## The trace (rules R13, R48) -/

/-- A callback of a step from `s` to `t` is the completion of rule R184. -/
def CompletesTransfer (s t : State) (e : Event) : Prop :=
  ∀ c b n r, e = .callback c b n r → ∃ h : Hs, s.hs = some h ∧ h.lbl = .h4 ∧ n = h.loc.n ∧ r = .success ∧
    s.drv.slot = some b ∧ s.drv.txClient = some c ∧ t.drv.slot = none ∧ t.drv.busy = false ∧ t.hs = none

/-- The events that one step from `s` to `t` can append: none, a register access, the access and the return of a raw
access, or one event that is no access. -/
inductive StepEvents (s t : State) : List Event → Prop where
  | none : StepEvents s t []
  | access (c : Ctx) (d : Dir) (off : Nat) (v : Word) : StepEvents s t [.mmio c d off v]
  | accessRet (c : Ctx) (d : Dir) (off : Nat) (v : Word) (k : Nat) (r : RetVal) :
      StepEvents s t [.mmio c d off v, .ret k r]
  | other (e : Event) (he : accesses [e] = []) (hc : CompletesTransfer s t e) : StepEvents s t [e]

/-- The trace of `t` is that of `s` with the events of one step. -/
def TraceStep (s t : State) : Prop := ∃ es, t.trace = s.trace ++ es ∧ StepEvents s t es

theorem StepEvents.accesses_le {s t : State} {es : List Event} (h : StepEvents s t es) :
    (accesses es).length ≤ 1 := by
  cases h
  case other e he hc => simp [he]
  all_goals simp [accesses]

theorem StepEvents.completesTransfer {s t : State} {es : List Event} (h : StepEvents s t es) {e : Event}
    (he : e ∈ es) : CompletesTransfer s t e := by
  intro c b n r heq
  subst heq
  cases h
  case other e _ hc => exact hc c b n r (List.mem_singleton.1 he).symm
  all_goals simp at he

theorem TraceStep.of_eq {s t : State} (h : t.trace = s.trace) : TraceStep s t :=
  ⟨[], by rw [h, List.append_nil], .none⟩

theorem TraceStep.of_access {s t : State} {c : Ctx} {d : Dir} {off : Nat} {v : Word}
    (h : t.trace = s.trace ++ [.mmio c d off v]) : TraceStep s t :=
  ⟨_, h, .access c d off v⟩

theorem TraceStep.of_accessRet {s t : State} {c : Ctx} {d : Dir} {off : Nat} {v : Word} {k : Nat} {r : RetVal}
    (h : t.trace = s.trace ++ [.mmio c d off v] ++ [.ret k r]) : TraceStep s t :=
  ⟨_, h.trans (List.append_assoc _ _ _), .accessRet c d off v k r⟩

theorem TraceStep.of_ret {s t : State} {k : Nat} {r : RetVal} (h : t.trace = s.trace ++ [.ret k r]) : TraceStep s t :=
  ⟨_, h, .other _ rfl nofun⟩

theorem State.readReg_trace (s : State) (r : Reg) : (s.readReg r).2.trace = s.trace := by
  rcases s.readReg_cases r with e | e | ⟨-, b, rest, -, e⟩ <;> simp [e]

theorem FgStep.traceStep {i : Instr} {s t : State} (h : FgStep i s t) : TraceStep s t := by
  cases h
  case raise | cf0 | ts0 | tb0 | cursor | advance | tb5 | tb6 => exact .of_eq rfl
  case stub | txClient | rxClient | cf2 | ts4 | tb8 => exact .of_ret rfl
  case read r hl => exact .of_accessRet (by rw [State.ret_trace, State.emit_trace, s.readReg_trace r])
  case write r v u hl hd hw =>
    obtain ⟨hw', rfl⟩ := State.writeReg_ok hw
    exact .of_accessRet rfl
  all_goals exact .of_access rfl

theorem HsStep.traceStep {lbl : HsLabel} {l : HsLocals} {s t : State} (h : HsStep lbl l s t)
    (hh : s.hs = some ⟨lbl, l⟩) : TraceStep s t := by
  cases h
  case raise | complete | resume | nothing | skip | enter | cursor | last | again => exact .of_eq rfl
  case callback b c hl hs hc =>
    refine ⟨_, rfl, .other _ rfl ?_⟩
    rintro _ _ _ _ ⟨⟩
    exact ⟨_, hh, hl, rfl, rfl, hs, hc, rfl, rfl, rfl⟩
  case dropped b hl hs hc => exact ⟨_, rfl, .other _ rfl nofun⟩
  all_goals exact .of_access rfl

/-- A step appends at most one register access, and a callback only as the completion of a transfer. -/
theorem step_trace {s t : State} (h : step s = .next t) :
    ∃ es, t.trace = s.trace ++ es ∧ (accesses es).length ≤ 1 ∧ ∀ e ∈ es, CompletesTransfer s t e := by
  obtain ⟨u, hu, -, -, hx⟩ := step_cases h
  have hut : TraceStep u t := by
    rcases hx with rfl | ⟨-, i, -, -, hfg⟩ | ⟨-, -, rfl⟩ | ⟨lbl, l, hh, hhs⟩ | ⟨-, -, rfl⟩ | ⟨b, rest, -, -, rfl⟩ |
      ⟨b, -, ⟨-, rfl⟩ | ⟨-, rfl⟩⟩
    · exact .of_eq rfl
    · exact hfg.traceStep
    · exact .of_eq rfl
    · exact hhs.traceStep hh
    all_goals exact ⟨_, rfl, .other _ rfl nofun⟩
  obtain ⟨es, ht, hes⟩ := hut
  have hc : ∀ e ∈ es, CompletesTransfer u t e := fun _ => hes.completesTransfer
  rw [hu] at ht hc
  exact ⟨es, ht, hes.accesses_le, hc⟩

/-! ## The driver record (rules R39 to R43) -/

/-- The driver record after a step from `s`: who writes it, and at which label. -/
inductive DrvStep (s : State) : Drv → Prop where
  | same : DrvStep s s.drv
  | stop (b : Word) (p : Parity) (f : Bool) (m : StopBits) (hi : s.fetch = .ok (.op (.configure b p f m)))
      (hl : s.fg.lbl = .cf2) : DrvStep s { s.drv with stop := m }
  | txClient (c : ClientId) (hi : s.fetch = .ok (.op (.setTransmitClient c))) :
      DrvStep s { s.drv with txClient := some c }
  | rxClient (c : ClientId) (hi : s.fetch = .ok (.op (.setReceiveClient c))) :
      DrvStep s { s.drv with rxClient := some c }
  | accept (b : Buffer) (n : Word) (hh : s.hs = none) (hi : s.fetch = .ok (.op (.transmitBuffer b n)))
      (hl : s.fg.lbl = .start) (h0 : 0 < n.toNat) (hn : n.toNat ≤ b.data.length) :
      DrvStep s { s.drv with
        busy := true
        cursor := if s.params.cursorInitWrite = true then 0 else s.drv.cursor }
  | cursor (b : Buffer) (n : Word) (hh : s.hs = none) (hi : s.fetch = .ok (.op (.transmitBuffer b n)))
      (hl : s.fg.lbl = .tb3 ∧ s.params.fillOrder = .writeThenCheck ∨
        s.fg.lbl = .tb4 ∧ s.params.fillOrder = .checkThenWrite) :
      DrvStep s { s.drv with cursor := BitVec.ofNat 32 (s.fg.loc.i + 1) }
  | put (hh : s.hs = none) (hl : s.fg.lbl = .tb5) : DrvStep s { s.drv with slot := s.fg.loc.buf }
  | length (b : Buffer) (n : Word) (hi : s.fetch = .ok (.op (.transmitBuffer b n))) (hl : s.fg.lbl = .tb6) :
      DrvStep s { s.drv with length := n }
  | complete (h : Hs) (hh : s.hs = some h) (hl : h.lbl = .h4) (hs : s.drv.slot ≠ none) :
      DrvStep s { s.drv with slot := none, busy := false }
  | handlerCursor (h : Hs) (hh : s.hs = some h)
      (hl : h.lbl = .h7 ∧ s.params.fillOrder = .writeThenCheck ∨
        h.lbl = .h8 ∧ s.params.fillOrder = .checkThenWrite) :
      DrvStep s { s.drv with cursor := BitVec.ofNat 32 (h.loc.i + 1) }

theorem State.readReg_drv (s : State) (r : Reg) : (s.readReg r).2.drv = s.drv := by
  rcases s.readReg_cases r with e | e | ⟨-, b, rest, -, e⟩ <;> simp [e]

theorem FgStep.drvStep {i : Instr} {s t : State} (h : FgStep i s t) (hh : s.hs = none) (hf : s.fetch = .ok (.op i)) :
    DrvStep s t.drv := by
  cases h
  case read r hl =>
    rw [State.ret_drv, State.emit_drv, s.readReg_drv r]
    exact .same
  case write r v u hl hd hw =>
    obtain ⟨hw', rfl⟩ := State.writeReg_ok hw
    exact .same
  case txClient c hi hl => exact .txClient c (hi ▸ hf)
  case rxClient c hi hl => exact .rxClient c (hi ▸ hf)
  case cf2 b p f m hi hl => exact .stop b p f m (hi ▸ hf) hl
  case tb0 b n hi hl h0 hb hn =>
    exact .accept b n hh (hi ▸ hf) hl (Nat.pos_of_ne_zero fun e => h0 (BitVec.eq_of_toNat_eq e)) hn
  case cursor b n hi hl ho => exact .cursor b n hh (hi ▸ hf) (.inl ⟨hl, ho⟩)
  case advance b n hi hl ho => exact .cursor b n hh (hi ▸ hf) (.inr ⟨hl, ho⟩)
  case tb5 b n hi hl => exact .put hh hl
  case tb6 b n hi hl => exact .length b n (hi ▸ hf) hl
  all_goals exact .same

theorem HsStep.drvStep {lbl : HsLabel} {l : HsLocals} {s t : State} (h : HsStep lbl l s t)
    (hh : s.hs = some ⟨lbl, l⟩) : DrvStep s t.drv := by
  cases h
  case callback b c hl hs hc => exact .complete _ hh hl (by simp [hs])
  case dropped b hl hs hc => exact .complete _ hh hl (by simp [hs])
  case cursor hl ho => exact .handlerCursor _ hh (.inl ⟨hl, ho⟩)
  case last hl ho => exact .handlerCursor _ hh (.inr ⟨hl, ho⟩)
  case again hl ho hn => exact .handlerCursor _ hh (.inr ⟨hl, ho⟩)
  all_goals exact .same

theorem step_drvStep {s t : State} (h : step s = .next t) :
    ∃ a n, DrvStep { s with schedule := a, draws := n } t.drv := by
  obtain ⟨u, hu, -, -, hx⟩ := step_cases h
  refine ⟨u.schedule, u.draws, ?_⟩
  rw [← hu]
  rcases hx with rfl | ⟨hh, i, hi, -, hfg⟩ | ⟨-, -, rfl⟩ | ⟨lbl, l, hh, hhs⟩ | ⟨-, -, rfl⟩ | ⟨b, rest, -, -, rfl⟩ |
    ⟨b, -, ⟨-, rfl⟩ | ⟨-, rfl⟩⟩
  case inr.inl => exact hfg.drvStep hh hi
  case inr.inr.inr.inl => exact hhs.drvStep hh
  all_goals exact .same

/-! ## The obligations -/

/-- Settles O51: the events of one step are counted case by case in `StepEvents`. -/
theorem traceOnlyGrows : Obligations.TraceOnlyGrows := by
  intro s t h
  obtain ⟨es, ht, ha, -⟩ := step_trace h
  exact ⟨es, ht, ha⟩

/-- Settles O52: no outcome of any agent writes them. -/
theorem parametersFixed : Obligations.ParametersFixed := fun _ _ => step_sameParameters

/-- Settles O40: the one event of a step that is a callback is H4's. -/
theorem callbackOnlyAtCompletion : Obligations.CallbackOnlyAtCompletion := by
  intro s t c b n r h he
  obtain ⟨es, ht, -, hc⟩ := step_trace h
  rw [ht, List.drop_left] at he
  exact hc _ he c b n r rfl

/-- Settles O44: a step that sets the fault is a `raise` and nothing else. -/
theorem faultChangesNothingElse : Obligations.FaultChangesNothingElse := by
  intro s t h _ hne
  rcases step_fault_cases h with e | ⟨u, r, c, m, hu, rfl⟩
  · exact absurd e hne
  · rw [hu]
    rfl

/-- Settles O53: each writer of the driver record changes its own field only. -/
theorem driverFieldWriters : Obligations.DriverFieldWriters := by
  intro s t h
  obtain ⟨a, n, hd⟩ := step_drvStep h
  generalize t.drv = d at hd
  cases hd
  case same => simp
  case stop b p f m hi hl => exact ⟨fun _ => ⟨hl, b, p, f, hi⟩, by simp⟩
  case length b n hi hl => exact ⟨by simp, fun _ => ⟨hl, b, hi⟩, by simp⟩
  case txClient c hi => exact ⟨by simp, by simp, fun _ => ⟨c, rfl, hi⟩, by simp⟩
  case rxClient c hi => exact ⟨by simp, by simp, by simp, fun _ => ⟨c, rfl, hi⟩, by simp⟩
  case put hh hl => exact ⟨by simp, by simp, by simp, by simp, fun _ => .inl ⟨hh, hl, rfl⟩, by simp, by simp⟩
  case accept b n hh hi hl h0 hn =>
    refine ⟨by simp, by simp, by simp, by simp, by simp, fun _ => .inl ⟨rfl, hh, hl, b, n, hi, h0, hn⟩, fun hc => ?_⟩
    have hw : s.params.cursorInitWrite = true := by
      by_contra hw
      exact hc (if_neg hw)
    exact .inl ⟨hh, ⟨b, n, hi⟩, .inl ⟨hl, hw, if_pos hw⟩⟩
  case cursor b n hh hi hl =>
    exact ⟨by simp, by simp, by simp, by simp, by simp, by simp, fun _ => .inl ⟨hh, ⟨b, n, hi⟩, .inr ⟨hl, rfl⟩⟩⟩
  case complete x hh hl hs =>
    exact ⟨by simp, by simp, by simp, by simp, fun _ => .inr ⟨rfl, x, hh, hl⟩,
      fun _ => .inr ⟨rfl, hs, rfl, x, hh, hl⟩, by simp⟩
  case handlerCursor x hh hl =>
    exact ⟨by simp, by simp, by simp, by simp, by simp, by simp, fun _ => .inr ⟨x, hh, hl, rfl⟩⟩

end Sys2Proof.Machine
end

section
/-! transmit_sync and transmit_buffer at each of their labels (rules R151, R163, R164): which micro-step they answer. -/

namespace Sys2Proof.Machine

variable {s : State} {bytes : List Byte} {buf : Buffer} {len : Word}

/-! ## transmit_sync (rule R151) -/

theorem exec_transmitSync_start (h : s.fg.lbl = .start) : exec (.transmitSync bytes) s = .next (syncEnter s) := by
  simp [exec, execTransmitSync, h]

theorem exec_transmitSync_ts1 (h : s.fg.lbl = .ts1) : exec (.transmitSync bytes) s = .next (syncProgram bytes s) := by
  simp [exec, execTransmitSync, h]

theorem exec_transmitSync_ts2 (h : s.fg.lbl = .ts2) : exec (.transmitSync bytes) s = .next (syncPoll s) := by
  simp [exec, execTransmitSync, h]

theorem exec_transmitSync_ts3 (h : s.fg.lbl = .ts3) {b : Byte} (hb : bytes[s.fg.loc.i]? = some b) :
    exec (.transmitSync bytes) s = .next (syncWrite bytes b s) := by
  simp [exec, execTransmitSync, h, hb]

theorem exec_transmitSync_ts4 (h : s.fg.lbl = .ts4) : exec (.transmitSync bytes) s = .next (s.ret .none) := by
  simp [exec, execTransmitSync, h]

/-! ## transmit_buffer (rules R163, R164) -/

theorem fillStep_eq {b : Byte} (hb : byteAt? s.fg.loc.buf s.fg.loc.i = some b) (m : MicroStep) (n : FgLabel) :
    fillStep m n s = .next (fillWrite m b n s) := by
  simp [fillStep, hb]

theorem exec_transmitBuffer_tb1 (h : s.fg.lbl = .tb1) : exec (.transmitBuffer buf len) s = .next (bufferEnable s) := by
  simp [exec, execTransmitBuffer, h]

/-- TB2 of `WriteThenCheck`. -/
theorem exec_transmitBuffer_write (ho : s.params.fillOrder = .writeThenCheck) (h : s.fg.lbl = .tb2) {b : Byte}
    (hb : byteAt? s.fg.loc.buf s.fg.loc.i = some b) :
    exec (.transmitBuffer buf len) s = .next (fillWrite .tb2 b .tb3 s) := by
  simp [exec, execTransmitBuffer, h, ho, fillStep_eq hb]

/-- TB3 of `WriteThenCheck`. -/
theorem exec_transmitBuffer_cursor (ho : s.params.fillOrder = .writeThenCheck) (h : s.fg.lbl = .tb3) :
    exec (.transmitBuffer buf len) s = .next ((fillCursor s).goto .tb4 s.fg.loc) := by
  simp [exec, execTransmitBuffer, h, ho]

/-- TB4 of `WriteThenCheck`. -/
theorem exec_transmitBuffer_checkAfter (ho : s.params.fillOrder = .writeThenCheck) (h : s.fg.lbl = .tb4) :
    exec (.transmitBuffer buf len) s = .next (fillCheckAfter len s) := by
  simp [exec, execTransmitBuffer, h, ho]

/-- TB2 of `CheckThenWrite`. -/
theorem exec_transmitBuffer_checkBefore (ho : s.params.fillOrder = .checkThenWrite) (h : s.fg.lbl = .tb2) :
    exec (.transmitBuffer buf len) s = .next (fillCheckBefore s) := by
  simp [exec, execTransmitBuffer, h, ho]

/-- TB3 of `CheckThenWrite`. -/
theorem exec_transmitBuffer_writeChecked (ho : s.params.fillOrder = .checkThenWrite) (h : s.fg.lbl = .tb3) {b : Byte}
    (hb : byteAt? s.fg.loc.buf s.fg.loc.i = some b) :
    exec (.transmitBuffer buf len) s = .next (fillWrite .tb3 b .tb4 s) := by
  simp [exec, execTransmitBuffer, h, ho, fillStep_eq hb]

/-- TB4 of `CheckThenWrite`. -/
theorem exec_transmitBuffer_advance (ho : s.params.fillOrder = .checkThenWrite) (h : s.fg.lbl = .tb4) :
    exec (.transmitBuffer buf len) s = .next (fillAdvance len s) := by
  simp [exec, execTransmitBuffer, h, ho]

theorem exec_transmitBuffer_tb5 (h : s.fg.lbl = .tb5) : exec (.transmitBuffer buf len) s = .next (bufferPut s) := by
  simp [exec, execTransmitBuffer, h]

theorem exec_transmitBuffer_tb6 (h : s.fg.lbl = .tb6) :
    exec (.transmitBuffer buf len) s = .next (bufferLength len s) := by
  simp [exec, execTransmitBuffer, h]

theorem exec_transmitBuffer_tb7 (h : s.fg.lbl = .tb7) : exec (.transmitBuffer buf len) s = .next (bufferStart s) := by
  simp [exec, execTransmitBuffer, h]

theorem exec_transmitBuffer_tb8 (h : s.fg.lbl = .tb8) :
    exec (.transmitBuffer buf len) s = .next (s.ret (.resultBuffer .success none)) := by
  simp [exec, execTransmitBuffer, h]

end Sys2Proof.Machine
end

section
/-! The invariant of every run (rules R30, R31, R39, R40, R44, R50): what each agent keeps of its four parts, that launch
meets it, and that no state that meets it is stuck. -/

namespace Sys2Proof.Machine

section

variable {s t : State}

/-! ## FIFO bounds (rules R30, R31) -/

/-- A byte may be queued where there is room for it. -/
theorem State.FifoBounds.push (h : s.FifoBounds) (hr : s.hw.txfifo.length < s.params.txDepth) (b : Byte) :
    (s.setHw { s.hw with txfifo := s.hw.txfifo ++ [b] }).FifoBounds := by
  refine ⟨?_, h.2⟩
  simpa [State.occTx] using hr

theorem State.readReg_fifoBounds (h : s.FifoBounds) (r : Reg) : (s.readReg r).2.FifoBounds := by
  rcases s.readReg_cases r with e | e | ⟨-, b, rest, hq, e⟩ <;> rw [e]
  · exact h
  · exact h
  · refine ⟨h.1, ?_⟩
    have hrx := h.2
    simp only [State.occRx, hq, List.length_cons] at hrx
    exact Nat.le_of_succ_le hrx

theorem State.writeReg_fifoBounds (h : s.FifoBounds) {r : Reg} {v : Word} (hw : s.writeReg r v = .ok t) :
    t.FifoBounds := by
  obtain ⟨hw', rfl⟩ := State.writeReg_ok hw
  rcases State.writeReg_hw hw with ⟨-, e | ⟨hr, e⟩⟩ | ⟨-, e⟩ | ⟨-, e⟩ | ⟨-, e⟩ | ⟨-, e⟩
  all_goals
    rw [State.setHw_hw] at e
    subst e
  case inl.inr => exact h.push hr _
  all_goals exact h

theorem FgStep.fifoBounds {i : Instr} (hx : FgStep i s t) (h : s.FifoBounds) : t.FifoBounds := by
  cases hx
  case read r hl => exact State.readReg_fifoBounds h r
  case write r v u hl hd hw => exact State.writeReg_fifoBounds (t := u) h hw
  case ts3 bytes b hi hl hb hr => exact h.push hr b
  case fill buf len b l n hi hl hn hb hr => exact h.push hr b
  all_goals exact h

theorem HsStep.fifoBounds {lbl : HsLabel} {l : HsLocals} (hx : HsStep lbl l s t) (h : s.FifoBounds) :
    t.FifoBounds := by
  cases hx
  case fill b n hn hb hr => exact h.push hr b
  all_goals exact h

/-! ## Labels that fit (rule R44) -/

/-- TS4 follows where `p` says that no byte is left. -/
theorem labelFits_sync_next {bytes : List Byte} {loc : FgLocals} {p : Prop} [Decidable p]
    (h : loc.i < bytes.length ∨ p) : labelFits (.transmitSync bytes) (if p then .ts4 else .ts2) loc := by
  split
  · exact .inr (.inr rfl)
  · next hp => exact .inr (.inl ⟨.inl rfl, h.resolve_right hp⟩)

theorem labelFits_filling {buf : Buffer} {len : Word} {l : FgLabel} {loc : FgLocals}
    (hfit : len.toNat ≤ buf.data.length ∧ loc.buf = some buf ∧ loc.i < len.toNat)
    (hl : l = .tb1 ∨ l = .tb2 ∨ l = .tb3 ∨ l = .tb4) : labelFits (.transmitBuffer buf len) l loc :=
  ⟨hfit.1, .inl ⟨hl, hfit.2.1, hfit.2.2⟩⟩

theorem labelFits_put {buf : Buffer} {len : Word} {loc : FgLocals}
    (hfit : len.toNat ≤ buf.data.length ∧ loc.buf = some buf ∧ loc.i ≤ len.toNat) :
    labelFits (.transmitBuffer buf len) .tb5 loc :=
  ⟨hfit.1, .inr (.inl ⟨rfl, hfit.2.1, hfit.2.2⟩)⟩

theorem labelFits_stored {buf : Buffer} {len : Word} {l : FgLabel} {loc : FgLocals}
    (hfit : len.toNat ≤ buf.data.length ∧ loc.buf = none) (hl : l = .tb6 ∨ l = .tb7 ∨ l = .tb8) :
    labelFits (.transmitBuffer buf len) l loc :=
  ⟨hfit.1, .inr (.inr ⟨hl, hfit.2⟩)⟩

/-- The write of the fill goes from a label of the fill to one of it, in both orders. -/
theorem labelFits_filled {buf : Buffer} {len : Word} {o : FillOrder} {l n : FgLabel} {loc : FgLocals}
    (hn : o = .writeThenCheck ∧ l = .tb2 ∧ n = .tb3 ∨ o = .checkThenWrite ∧ l = .tb3 ∧ n = .tb4)
    (hfit : l = .tb1 ∨ l = .tb2 ∨ l = .tb3 ∨ l = .tb4 →
      len.toNat ≤ buf.data.length ∧ loc.buf = some buf ∧ loc.i < len.toNat) :
    labelFits (.transmitBuffer buf len) n loc := by
  rcases hn with ⟨-, rfl, rfl⟩ | ⟨-, rfl, rfl⟩ <;> exact labelFits_filling (hfit (by simp)) (by simp)

/-- The label after a turn of the fill, whatever ends the loop, as long as the length does. -/
theorem labelFits_turn {buf : Buffer} {len : Word} {loc : FgLocals} {p : Prop} [Decidable p]
    (hfit : len.toNat ≤ buf.data.length ∧ loc.buf = some buf ∧ loc.i < len.toNat)
    (hp : loc.i + 1 = len.toNat → p) :
    labelFits (.transmitBuffer buf len) (if p then .tb5 else .tb2) { loc with i := loc.i + 1 } := by
  obtain ⟨hlen, hbuf, hidx⟩ := hfit
  split
  · exact labelFits_put ⟨hlen, hbuf, hidx⟩
  · next hn => exact labelFits_filling ⟨hlen, hbuf, Nat.lt_of_le_of_ne hidx (mt hp hn)⟩ (.inr (.inl rfl))

/-! ## The foreground context (rule R44) -/

/-- What is fetched depends on the program and the operation index only. -/
theorem State.fetch_congr (hp : t.program = s.program) (hk : t.fg.k = s.fg.k) : t.fetch = s.fetch := by
  simp only [State.fetch, hp, hk]

theorem State.ContextFits.congr (h : s.ContextFits) (hp : t.program = s.program) (hf : t.fg = s.fg) :
    t.ContextFits := by
  unfold State.ContextFits
  rw [State.fetch_congr hp (congrArg _ hf), hf]
  exact h

/-- Inside an operation the label and locals are ones of the operation fetched. -/
theorem State.ContextFits.labelFits {i : Instr} (h : s.ContextFits) (hi : s.fetch = .ok (.op i))
    (hl : s.fg.lbl ≠ .start) : labelFits i s.fg.lbl s.fg.loc := by
  obtain ⟨j, hj, hfit⟩ := h.resolve_left hl
  rw [hi] at hj
  cases hj
  exact hfit

/-- At TS2 and TS3 a byte is left (rule R151). -/
theorem State.ContextFits.polling {bytes : List Byte} (h : s.ContextFits)
    (hi : s.fetch = .ok (.op (.transmitSync bytes))) (hl : s.fg.lbl = .ts2 ∨ s.fg.lbl = .ts3) :
    s.fg.loc.i < bytes.length := by
  have hfit := h.labelFits hi (by rcases hl with e | e <;> simp [e])
  rcases hl with e | e <;> simpa [Machine.labelFits, e] using hfit

/-- At TB1 to TB4 the buffer held is the operand, and the index is below the length (rules R163, R164). -/
theorem State.ContextFits.filling {buf : Buffer} {len : Word} (h : s.ContextFits)
    (hi : s.fetch = .ok (.op (.transmitBuffer buf len)))
    (hl : s.fg.lbl = .tb1 ∨ s.fg.lbl = .tb2 ∨ s.fg.lbl = .tb3 ∨ s.fg.lbl = .tb4) :
    len.toNat ≤ buf.data.length ∧ s.fg.loc.buf = some buf ∧ s.fg.loc.i < len.toNat := by
  have hfit := h.labelFits hi (by rcases hl with e | e | e | e <;> simp [e])
  rcases hl with e | e | e | e <;> simpa [Machine.labelFits, e] using hfit

/-- At TB5 the buffer held is the operand, and the index is at most the length (rules R163, R164). -/
theorem State.ContextFits.put {buf : Buffer} {len : Word} (h : s.ContextFits)
    (hi : s.fetch = .ok (.op (.transmitBuffer buf len))) (hl : s.fg.lbl = .tb5) :
    len.toNat ≤ buf.data.length ∧ s.fg.loc.buf = some buf ∧ s.fg.loc.i ≤ len.toNat := by
  have hfit := h.labelFits hi (by simp [hl])
  simpa [Machine.labelFits, hl] using hfit

/-- At TB6 and TB7 the buffer has left the locals (rule R163). -/
theorem State.ContextFits.stored {buf : Buffer} {len : Word} (h : s.ContextFits)
    (hi : s.fetch = .ok (.op (.transmitBuffer buf len))) (hl : s.fg.lbl = .tb6 ∨ s.fg.lbl = .tb7) :
    len.toNat ≤ buf.data.length ∧ s.fg.loc.buf = none := by
  have hfit := h.labelFits hi (by rcases hl with e | e <;> simp [e])
  rcases hl with e | e <;> simpa [Machine.labelFits, e] using hfit

/-- A micro-step of the fetched operation leads to a label and locals of it, or to the next operation's start. -/
theorem FgStep.contextFits {i : Instr} (hx : FgStep i s t) (hi : s.fetch = .ok (.op i)) (h : s.ContextFits) :
    t.ContextFits := by
  cases hx
  case raise r m => exact h
  case read | write | stub | txClient | rxClient | cf2 | ts4 | tb8 => exact .inl rfl
  case cf0 baud p f st hop hl hb hd =>
    subst hop
    exact .inr ⟨_, hi, .inl ⟨rfl, BitVec.le_def.2 hd⟩⟩
  case cf1 baud p f st hop hl =>
    subst hop
    exact .inr ⟨_, hi, .inr rfl⟩
  case ts0 bytes hop hl hb =>
    subst hop
    exact .inr ⟨_, hi, .inl ⟨rfl, rfl⟩⟩
  case ts1 bytes hop hl =>
    subst hop
    have hidx : s.fg.loc.i = 0 := by
      have hfit := h.labelFits hi (by simp [hl])
      simpa [Machine.labelFits, hl] using hfit
    exact .inr ⟨_, hi, labelFits_sync_next (Nat.eq_zero_or_pos _ |>.symm.imp hidx.trans_lt id)⟩
  case ts2 bytes hop hl =>
    subst hop
    refine .inr ⟨_, hi, .inr (.inl ⟨?_, h.polling hi (.inl hl)⟩)⟩
    by_cases hfull : s.full = true <;> simp [hfull]
  case ts3 bytes _ hop hl _ _ | ts3Lost bytes _ hop hl _ =>
    subst hop
    exact .inr ⟨_, hi, labelFits_sync_next (Nat.lt_or_eq_of_le (h.polling hi (.inr hl)))⟩
  case tb0 buf len hop hl h0 hb hs =>
    subst hop
    have hpos : 0 < len.toNat := Nat.pos_of_ne_zero fun e => h0 (BitVec.eq_of_toNat_eq e)
    exact .inr ⟨_, hi, labelFits_filling ⟨hs, rfl, hpos⟩ (.inl rfl)⟩
  case tb1 buf len hop hl =>
    subst hop
    exact .inr ⟨_, hi, labelFits_filling (h.filling hi (.inl hl)) (.inr (.inl rfl))⟩
  case fill _ _ _ _ _ hop hl hn _ _ | fillLost _ _ _ _ _ hop hl hn =>
    subst hop hl
    exact .inr ⟨_, hi, labelFits_filled hn (h.filling hi)⟩
  case cursor buf len hop hl ho =>
    subst hop
    exact .inr ⟨_, hi, labelFits_filling (h.filling hi (.inr (.inr (.inl hl)))) (.inr (.inr (.inr rfl)))⟩
  case checkAfter buf len hop hl ho =>
    subst hop
    exact .inr ⟨_, hi, labelFits_turn (h.filling hi (.inr (.inr (.inr hl)))) .inr⟩
  case checkBefore buf len hop hl ho =>
    subst hop
    have hfit := h.filling hi (.inr (.inl hl))
    refine .inr ⟨_, hi, ?_⟩
    by_cases hfull : s.full = true
    · rw [State.goto_fg, if_pos hfull]
      exact labelFits_put ⟨hfit.1, hfit.2.1, hfit.2.2.le⟩
    · rw [State.goto_fg, if_neg hfull]
      exact labelFits_filling hfit (.inr (.inr (.inl rfl)))
  case advance buf len hop hl ho =>
    subst hop
    exact .inr ⟨_, hi, labelFits_turn (h.filling hi (.inr (.inr (.inr hl)))) id⟩
  case tb5 buf len hop hl =>
    subst hop
    exact .inr ⟨_, hi, labelFits_stored ⟨(h.put hi hl).1, rfl⟩ (.inl rfl)⟩
  case tb6 buf len hop hl =>
    subst hop
    exact .inr ⟨_, hi, labelFits_stored (h.stored hi (.inl hl)) (.inr (.inl rfl))⟩
  case tb7 buf len hop hl =>
    subst hop
    exact .inr ⟨_, hi, labelFits_stored (h.stored hi (.inr hl)) (.inr (.inr rfl))⟩

/-! ## Slot and busy (rules R39, R40, R50) -/

/-- Slot and busy in step are a matter of three fields. -/
theorem State.SlotMatchesBusy.congr (h : s.SlotMatchesBusy) (hl : t.fg.lbl.beforePut = s.fg.lbl.beforePut)
    (hs : t.drv.slot = s.drv.slot) (hb : t.drv.busy = s.drv.busy) : t.SlotMatchesBusy := by
  unfold State.SlotMatchesBusy
  rw [hl, hs, hb]
  exact h

theorem State.slotMatchesBusy_before (hl : s.fg.lbl.beforePut = true) :
    s.SlotMatchesBusy ↔ s.drv.slot = none ∧ s.drv.busy = true := by
  simp [State.SlotMatchesBusy, hl]

theorem State.slotMatchesBusy_after (hl : s.fg.lbl.beforePut = false) :
    s.SlotMatchesBusy ↔ s.drv.busy = s.drv.slot.isSome := by
  simp [State.SlotMatchesBusy, hl]

/-- A label that either branch of a decision leaves on one side of TB5. -/
theorem beforePut_ite {p : Prop} [Decidable p] {l l' : FgLabel} (h : l.beforePut = l'.beforePut) :
    (if p then l else l').beforePut = l'.beforePut := by
  split
  · exact h
  · rfl

/-- Acceptance at TB0 and the put at TB5 keep slot and busy in step; every other micro-step leaves them and the side of
TB5 alone. -/
theorem FgStep.slotMatchesBusy {i : Instr} (hx : FgStep i s t) (hi : s.fetch = .ok (.op i)) (hc : s.ContextFits)
    (h : s.SlotMatchesBusy) : t.SlotMatchesBusy := by
  cases hx
  case raise r m => exact h
  case read r hl => exact h.congr (by rw [hl]; rfl) (by simp [s.readReg_drv r]) (by simp [s.readReg_drv r])
  case write r v u hl hd hw =>
    obtain ⟨hw', rfl⟩ := State.writeReg_ok hw
    exact h.congr (by rw [hl]; rfl) rfl rfl
  case tb0 buf len hop hl h0 hb hs =>
    have hslot := (State.slotMatchesBusy_after (by rw [hl]; rfl)).1 h
    rw [hb, eq_comm, Option.isSome_eq_false_iff, Option.isNone_iff_eq_none] at hslot
    exact (State.slotMatchesBusy_before rfl).2 ⟨hslot, rfl⟩
  case tb5 buf len hop hl =>
    subst hop
    obtain ⟨-, hbusy⟩ := (State.slotMatchesBusy_before (by rw [hl]; rfl)).1 h
    obtain ⟨-, hbuf, -⟩ := hc.put hi hl
    exact (State.slotMatchesBusy_after rfl).2 (by simp [hbusy, hbuf])
  case fill _ _ _ _ _ _ hl hn _ _ | fillLost _ _ _ _ _ _ hl hn =>
    rcases hn with ⟨-, rfl, rfl⟩ | ⟨-, rfl, rfl⟩ <;> exact h.congr (by rw [hl]; rfl) rfl rfl
  case ts1 _ _ hl | ts2 _ _ hl | ts3 _ _ _ hl _ _ | ts3Lost _ _ _ hl _ | checkAfter _ _ _ hl _ |
      checkBefore _ _ _ hl _ | advance _ _ _ hl _ =>
    exact h.congr (by rw [hl]; exact beforePut_ite rfl) rfl rfl
  case stub _ hl | txClient _ _ hl | rxClient _ _ hl | cf0 _ _ _ _ _ hl _ _ | cf1 _ _ _ _ _ hl | cf2 _ _ _ _ _ hl |
      ts0 _ _ hl _ | ts4 _ _ hl | tb1 _ _ _ hl | cursor _ _ _ hl _ | tb6 _ _ _ hl | tb7 _ _ _ hl | tb8 _ _ _ hl =>
    exact h.congr (by rw [hl]; rfl) rfl rfl

/-- The handler empties a slot only with busy, and an occupied slot means that the foreground is past TB5. -/
theorem HsStep.slotMatchesBusy {lbl : HsLabel} {l : HsLocals} (hx : HsStep lbl l s t) (h : s.SlotMatchesBusy) :
    t.SlotMatchesBusy := by
  cases hx
  case callback b _ _ hs _ | dropped b _ hs _ =>
    have hl : s.fg.lbl.beforePut = false := by
      by_contra hl
      obtain ⟨hnone, -⟩ := (State.slotMatchesBusy_before (by simpa using hl)).1 h
      simp [hs] at hnone
    refine (State.slotMatchesBusy_after ?_).2 rfl
    exact hl
  all_goals exact h

/-! ## Every agent keeps the invariant -/

theorem FgStep.inv {i : Instr} (hx : FgStep i s t) (hi : s.fetch = .ok (.op i)) (h : s.Inv) : t.Inv := by
  obtain ⟨hp, hfifo, hctx, hslot⟩ := h
  exact ⟨by rw [hx.program_eq]; exact hp, hx.fifoBounds hfifo, hx.contextFits hi hctx, hx.slotMatchesBusy hi hctx hslot⟩

theorem HsStep.inv {lbl : HsLabel} {l : HsLocals} (hx : HsStep lbl l s t) (h : s.Inv) : t.Inv := by
  obtain ⟨hp, hfifo, hctx, hslot⟩ := h
  exact ⟨by rw [hx.program_eq]; exact hp, hx.fifoBounds hfifo, hctx.congr hx.program_eq hx.fg_eq, hx.slotMatchesBusy hslot⟩

theorem step_inv (hx : step s = .next t) (h : s.Inv) : t.Inv := by
  obtain ⟨u, hu, -, -, hx⟩ := step_cases hx
  have hui : u.Inv := by rw [hu]; exact h
  rcases hx with rfl | ⟨-, i, hi, -, hfg⟩ | ⟨-, -, rfl⟩ | ⟨lbl, l, -, hhs⟩ | ⟨-, -, rfl⟩ | ⟨b, rest, -, hq, rfl⟩ |
    ⟨b, -, ⟨hr, rfl⟩ | ⟨-, rfl⟩⟩
  · exact hui
  · exact hfg.inv hi hui
  · exact hui
  · exact hhs.inv hui
  · exact hui
  · obtain ⟨hp, ⟨htx, hrx⟩, hctx⟩ := hui
    refine ⟨hp, ⟨?_, hrx⟩, hctx⟩
    simp only [State.occTx, hq, List.length_cons] at htx
    exact Nat.le_of_succ_le htx
  · obtain ⟨hp, ⟨htx, -⟩, hctx⟩ := hui
    refine ⟨hp, ⟨htx, ?_⟩, hctx⟩
    simpa [State.occRx] using hr
  · exact hui

/-! ## No state that meets it is stuck -/

/-- Every operation answers a next state at its start. -/
theorem exec_start {i : Instr} (hi : i ≠ .handleInterrupt) (hl : s.fg.lbl = .start) : ∃ t, exec i s = .next t := by
  cases i
  case handleInterrupt => exact absurd rfl hi
  case configure => exact ⟨_, exec_configure_start hl⟩
  case transmitSync => exact ⟨_, exec_transmitSync_start hl⟩
  case transmitBuffer => exact ⟨_, exec_transmitBuffer_start hl _ _⟩
  all_goals exact ⟨_, State.oneStep_start hl _⟩

theorem exec_transmitSync_fits {bytes : List Byte} (h : labelFits (.transmitSync bytes) s.fg.lbl s.fg.loc) :
    ∃ t, exec (.transmitSync bytes) s = .next t := by
  rcases h with ⟨hl, -⟩ | ⟨hl | hl, hidx⟩ | hl
  · exact ⟨_, exec_transmitSync_ts1 hl⟩
  · exact ⟨_, exec_transmitSync_ts2 hl⟩
  · exact ⟨_, exec_transmitSync_ts3 hl (List.getElem?_eq_getElem hidx)⟩
  · exact ⟨_, exec_transmitSync_ts4 hl⟩

theorem exec_transmitBuffer_fits {buf : Buffer} {len : Word}
    (h : labelFits (.transmitBuffer buf len) s.fg.lbl s.fg.loc) : ∃ t, exec (.transmitBuffer buf len) s = .next t := by
  obtain ⟨hlen, ⟨hl, hbuf, hidx⟩ | ⟨hl, -, -⟩ | ⟨hl | hl | hl, -⟩⟩ := h
  · have hbyte : byteAt? s.fg.loc.buf s.fg.loc.i = some (buf.data[s.fg.loc.i]'(hidx.trans_le hlen)) := by
      rw [hbuf]
      exact List.getElem?_eq_getElem _
    rcases hl with hl | hl | hl | hl
    · exact ⟨_, exec_transmitBuffer_tb1 hl⟩
    all_goals cases ho : s.params.fillOrder
    · exact ⟨_, exec_transmitBuffer_write ho hl hbyte⟩
    · exact ⟨_, exec_transmitBuffer_checkBefore ho hl⟩
    · exact ⟨_, exec_transmitBuffer_cursor ho hl⟩
    · exact ⟨_, exec_transmitBuffer_writeChecked ho hl hbyte⟩
    · exact ⟨_, exec_transmitBuffer_checkAfter ho hl⟩
    · exact ⟨_, exec_transmitBuffer_advance ho hl⟩
  · exact ⟨_, exec_transmitBuffer_tb5 hl⟩
  · exact ⟨_, exec_transmitBuffer_tb6 hl⟩
  · exact ⟨_, exec_transmitBuffer_tb7 hl⟩
  · exact ⟨_, exec_transmitBuffer_tb8 hl⟩

/-- Every operation answers a next state at the labels and with the locals that fit it. -/
theorem exec_fits {i : Instr} (h : labelFits i s.fg.lbl s.fg.loc) : ∃ t, exec i s = .next t := by
  cases i
  case configure =>
    rcases h with ⟨hl, -⟩ | hl
    · exact ⟨_, exec_configure_cf1 hl⟩
    · exact ⟨_, exec_configure_cf2 hl⟩
  case transmitSync => exact exec_transmitSync_fits h
  case transmitBuffer => exact exec_transmitBuffer_fits h
  all_goals exact h.elim

/-- The foreground is at the start of what it fetches, or inside the operation it fetches. -/
theorem State.runForeground_next (h : s.Inv) (he : s.foregroundEnabled = true) : ∃ t, s.runForeground = .next t := by
  obtain ⟨hp, -, hctx, -⟩ := h
  obtain ⟨-, -, hk⟩ := s.foregroundEnabled_iff.1 he
  obtain ⟨f, hf, hne⟩ := State.fetch_admitted hp hk
  unfold State.runForeground
  rw [hf]
  rcases hctx with hl | ⟨i, hi, hfit⟩
  · cases f with
    | op i => exact exec_start (fun e => hne (congrArg _ e)) hl
    | unmappedRead off => exact ⟨_, State.oneStep_start hl _⟩
    | unmappedWrite off v => exact ⟨_, State.oneStep_start hl _⟩
  · rw [hf] at hi
    cases hi
    exact exec_fits hfit

theorem State.runChoice_next (h : s.Inv) (c : Choice) : ∃ t, s.runChoice c = .next t := by
  unfold State.runChoice
  split
  · next he =>
    cases c with
    | foreground => exact State.runForeground_next h he
    | handler => exact exec_handleInterrupt_enabled (.inl he)
    | dispatch => exact exec_handleInterrupt_enabled (.inr he)
    | transmitter => exact ⟨_, rfl⟩
    | line b => exact ⟨_, rfl⟩
  · exact ⟨_, rfl⟩

end

/-! ## The obligations -/

/-- Settles O54: the four parts of the invariant, agent by agent. -/
theorem stepKeepsInvariant : Obligations.StepKeepsInvariant := fun _ _ h hx => step_inv hx h

/-- Settles O55: the FIFOs are empty, the foreground is at a start, and the slot is empty with busy false. -/
theorem launchMeetsInvariant : Obligations.LaunchMeetsInvariant :=
  ⟨fun _ _ _ _ _ _ hp => ⟨hp, ⟨Nat.zero_le _, Nat.zero_le _⟩, .inl rfl, rfl⟩,
    rfl, ⟨Nat.zero_le _, Nat.zero_le _⟩, .inl rfl, rfl⟩

/-- Settles O56: whichever agent is chosen answers a next state. -/
theorem invariantNeverStuck : Obligations.InvariantNeverStuck := by
  intro s h hf
  rw [step_running h.1 hf]
  have hi : s.nextChoice.2.Inv := by rw [s.nextChoice_frame]; exact h
  exact State.runChoice_next hi _

end Sys2Proof.Machine
end

section
/-! The engine invariant (rules R41, R50, R163, R181) in runs with dispatch only between operations, `WriteThenCheck` and
no raw write to ie: what the foreground and the handler keep of it, and what it says at a quiet point. -/

namespace Sys2Proof.Machine

section

variable {s t : State}

/-! ## The interrupt enables -/

theorem State.readReg_ie (s : State) (r : Reg) : (s.readReg r).2.hw.ie = s.hw.ie := by
  rcases s.readReg_cases r with e | e | ⟨-, b, rest, -, e⟩ <;> simp [e]

/-- Only a write to ie changes ie (rules R101 to R114). -/
theorem State.writeReg_ie {r : Reg} {v : Word} (hr : r ≠ .ie) (hw : s.writeReg r v = .ok t) : t.hw.ie = s.hw.ie := by
  rcases State.writeReg_hw hw with ⟨-, e | ⟨-, e⟩⟩ | ⟨-, e⟩ | ⟨-, e⟩ | ⟨hie, -⟩ | ⟨-, e⟩
  case inr.inr.inr.inl => exact absurd hie hr
  all_goals rw [e]

/-- The foreground of a program without `mmio.w ie` never fetches it. -/
theorem State.fetch_ne_ieWrite {i : Instr} (hp : s.program.noIeWrite = true) (h : s.fetch = .ok (.op i)) :
    descriptor i ≠ 0x90#8 := by
  obtain ⟨e, he, hd⟩ := State.fetch_descriptor h
  simpa [hd] using List.all_eq_true.mp hp e he

/-! ## The foreground -/

/-- The label is one of transmit_buffer. -/
def FgLabel.inBuffer : FgLabel → Bool
  | .tb1 | .tb2 | .tb3 | .tb4 | .tb5 | .tb6 | .tb7 | .tb8 => true
  | _ => false

/-- Outside transmit_buffer the watermark interrupt is enabled exactly in a transfer, and the cursor is at most the
length. -/
theorem State.foregroundFits_outside (hl : s.fg.lbl.inBuffer = false) :
    s.ForegroundFits ↔ s.hw.ie.txwm = s.drv.busy ∧ s.drv.cursor ≤ s.drv.length := by
  unfold State.ForegroundFits
  cases hlbl : s.fg.lbl <;> simp [hlbl, FgLabel.inBuffer] at hl ⊢

/-- A micro-step outside transmit_buffer that leaves the four fields alone. -/
theorem State.ForegroundFits.outside (h : s.ForegroundFits) (hs : s.fg.lbl.inBuffer = false)
    (ht : t.fg.lbl.inBuffer = false) (hie : t.hw.ie = s.hw.ie) (hb : t.drv.busy = s.drv.busy)
    (hc : t.drv.cursor = s.drv.cursor) (hn : t.drv.length = s.drv.length) : t.ForegroundFits := by
  rw [State.foregroundFits_outside ht, hie, hb, hc, hn]
  exact (State.foregroundFits_outside hs).1 h

/-- An index below the length of a fill does not wrap when it is stored as the cursor. -/
theorem toNat_cursor {i : Nat} {n : Word} (h : i < n.toNat) : (BitVec.ofNat 32 (i + 1)).toNat = i + 1 := by
  rw [BitVec.toNat_ofNat]
  exact Nat.mod_eq_of_lt (Nat.lt_of_le_of_lt h n.isLt)

theorem FgStep.foregroundFits {i : Instr} (hx : FgStep i s t) (hi : s.fetch = .ok (.op i)) (hd : descriptor i ≠ 0x90#8)
    (ho : s.params.fillOrder = .writeThenCheck) (hinv : s.Inv) (h : s.ForegroundFits) : t.ForegroundFits := by
  obtain ⟨-, -, hctx, hslot⟩ := hinv
  cases hx
  case raise r m => exact h
  case read r hl =>
    exact h.outside (by rw [hl]; rfl) rfl (s.readReg_ie r) (by simp [s.readReg_drv r]) (by simp [s.readReg_drv r])
      (by simp [s.readReg_drv r])
  case write r v u hl hd' hw =>
    have hr : r ≠ .ie := by
      rintro rfl
      exact hd (congrArg Entry.desc hd')
    have hie := State.writeReg_ie hr hw
    obtain ⟨hw', rfl⟩ := State.writeReg_ok hw
    exact h.outside (by rw [hl]; rfl) rfl hie rfl rfl rfl
  case ts1 _ _ hl | ts2 _ _ hl | ts3 _ _ _ hl _ _ | ts3Lost _ _ _ hl _ =>
    refine h.outside (by rw [hl]; rfl) ?_ rfl rfl rfl rfl
    rw [State.goto_fg]
    split <;> rfl
  case stub _ hl | txClient _ _ hl | rxClient _ _ hl | cf0 _ _ _ _ _ hl _ _ | cf1 _ _ _ _ _ hl | cf2 _ _ _ _ _ hl |
      ts0 _ _ hl _ | ts4 _ _ hl =>
    exact h.outside (by rw [hl]; rfl) rfl rfl rfl rfl rfl
  case tb0 => trivial
  case tb1 buf len hop hl =>
    obtain ⟨-, hbusy⟩ := (State.slotMatchesBusy_before (by rw [hl]; rfl)).1 hslot
    exact ⟨rfl, hbusy⟩
  case fill _ _ _ _ _ _ hl hn _ _ | fillLost _ _ _ _ _ _ hl hn =>
    rcases hn with ⟨-, rfl, rfl⟩ | ⟨ho', -, -⟩
    · simpa [State.ForegroundFits, hl] using h
    · rw [ho] at ho'
      cases ho'
  case checkBefore _ _ _ _ ho' | advance _ _ _ _ ho' =>
    rw [ho] at ho'
    cases ho'
  case cursor buf len hop hl _ =>
    subst hop
    obtain ⟨-, -, hidx⟩ := hctx.filling hi (.inr (.inr (.inl hl)))
    simp only [State.ForegroundFits, hl] at h
    exact ⟨h.1, h.2, toNat_cursor hidx⟩
  case checkAfter buf len hop hl _ =>
    subst hop
    obtain ⟨-, -, hidx⟩ := hctx.filling hi (.inr (.inr (.inr hl)))
    simp only [State.ForegroundFits, hl] at h
    obtain ⟨hie, hbusy, hcur⟩ := h
    by_cases hend : s.full = true ∨ s.fg.loc.i + 1 = len.toNat
    · rw [if_pos hend]
      refine ⟨hie, hbusy, fun buf' len' hi' => ?_⟩
      cases hi.symm.trans hi'
      exact BitVec.le_def.2 (hcur.trans_le hidx)
    · rw [if_neg hend]
      exact ⟨hie, hbusy⟩
  case tb5 _ _ _ hl =>
    simp only [State.ForegroundFits, hl] at h
    exact h
  case tb6 buf len hop hl =>
    subst hop
    simp only [State.ForegroundFits, hl] at h
    obtain ⟨hie, hbusy, hcur⟩ := h
    exact ⟨hie, hbusy, hcur buf len hi⟩
  case tb7 _ _ _ hl => simpa [State.ForegroundFits, hl] using h
  case tb8 _ _ _ hl =>
    simp only [State.ForegroundFits, hl] at h
    obtain ⟨hie, hbusy, hcur⟩ := h
    exact ⟨hie.trans hbusy.symm, hcur⟩

theorem FgStep.hs_eq {i : Instr} (hx : FgStep i s t) : t.hs = s.hs := by
  cases hx
  case read r hl => rcases s.readReg_cases r with e | e | ⟨-, b, rest, -, e⟩ <;> simp [e]
  case write r v u hl hd hw =>
    obtain ⟨hw', rfl⟩ := State.writeReg_ok hw
    rfl
  all_goals rfl

/-! ## The handler -/

theorem State.engineFits_idle (hh : s.hs = none) : s.EngineFits ↔ s.ForegroundFits := by
  simp [State.EngineFits, hh]

theorem State.engineFits_running {h : Hs} (hh : s.hs = some h) :
    s.EngineFits ↔ s.fg.lbl = .start ∧ handlerFits h s.drv s.hw.ie := by
  simp [State.EngineFits, hh]

/-- The handler returns to a foreground between operations. -/
theorem State.engineFits_returned (hh : s.hs = none) (hl : s.fg.lbl = .start) (hie : s.hw.ie.txwm = s.drv.busy)
    (hc : s.drv.cursor ≤ s.drv.length) : s.EngineFits :=
  (State.engineFits_idle hh).2 ((State.foregroundFits_outside (by rw [hl]; rfl)).2 ⟨hie, hc⟩)

theorem HsStep.engineFits {lbl : HsLabel} {l : HsLocals} (hx : HsStep lbl l s t) (hh : s.hs = some ⟨lbl, l⟩)
    (ho : s.params.fillOrder = .writeThenCheck) (hslot : s.SlotMatchesBusy) (h : s.EngineFits) : t.EngineFits := by
  obtain ⟨hl, hcur, hfit⟩ := (State.engineFits_running hh).1 h
  have hbusy := (State.slotMatchesBusy_after (by rw [hl]; rfl)).1 hslot
  cases hx
  case raise r m => exact h
  case snapshot hlbl hw =>
    subst hlbl
    exact (State.engineFits_running rfl).2 ⟨hl, hcur, hfit⟩
  case noWork hlbl =>
    subst hlbl
    exact State.engineFits_returned rfl hl hfit hcur
  case complete n hlbl hc hn =>
    subst hlbl
    rcases hn with rfl | rfl <;> exact (State.engineFits_running rfl).2 ⟨hl, hcur, hfit⟩
  case resume hlbl hc =>
    subst hlbl
    refine (State.engineFits_running rfl).2 ⟨hl, hcur, ?_⟩
    exact ⟨rfl, hfit⟩
  case h2 hlbl | h2a hlbl | h2b hlbl | h3a hlbl =>
    subst hlbl
    exact (State.engineFits_running rfl).2 ⟨hl, hcur, hfit⟩
  case h3 hlbl =>
    exact (State.engineFits_running rfl).2 ⟨hl, hcur, rfl⟩
  case h3b hlbl =>
    exact (State.engineFits_running rfl).2 ⟨hl, hcur, bit0_clearBit0 l.t⟩
  case nothing hlbl hs =>
    subst hlbl
    rw [hs] at hbusy
    exact State.engineFits_returned rfl hl (hfit.trans hbusy.symm) hcur
  case callback _ _ hlbl _ _ | dropped _ hlbl _ _ =>
    subst hlbl
    exact State.engineFits_returned rfl hl hfit hcur
  case skip hlbl =>
    subst hlbl
    obtain ⟨-, hie⟩ := hfit
    exact State.engineFits_returned rfl hl hie hcur
  case enter b hlbl hs hc =>
    subst hlbl
    obtain ⟨hn, hie⟩ := hfit
    refine (State.engineFits_running rfl).2 ⟨hl, hcur, ?_⟩
    exact ⟨hn, hc, hie⟩
  case fill _ _ hn _ _ | fillLost _ _ hn =>
    rcases hn with ⟨-, rfl, rfl⟩ | ⟨ho', -, -⟩
    · exact (State.engineFits_running rfl).2 ⟨hl, hcur, hfit⟩
    · rw [ho] at ho'
      cases ho'
  case cursor hlbl _ =>
    subst hlbl
    obtain ⟨hn, hidx, hie⟩ := hfit
    refine (State.engineFits_running rfl).2 ⟨hl, BitVec.le_def.2 ?_, ?_⟩
    · exact (toNat_cursor hidx).trans_le (Nat.le_trans hidx (congrArg BitVec.toNat hn).le)
    · exact ⟨hn, hidx, hie⟩
  case checkReturn hlbl =>
    rcases hlbl with ⟨-, rfl⟩ | ⟨ho', -⟩
    · obtain ⟨-, -, hie⟩ := hfit
      exact State.engineFits_returned rfl hl hie hcur
    · rw [ho] at ho'
      cases ho'
  case checkAgain hlbl _ hlast =>
    subst hlbl
    obtain ⟨hn, hidx, hie⟩ := hfit
    refine (State.engineFits_running rfl).2 ⟨hl, hcur, ?_⟩
    exact ⟨hn, Nat.lt_of_le_of_ne hidx hlast, hie⟩
  case checkRoom _ ho' | last _ ho' | again _ ho' _ =>
    rw [ho] at ho'
    cases ho'

/-! ## Every agent keeps the engine invariant -/

theorem step_engineFits (hx : step s = .next t) (h : s.EngineInv) : t.EngineFits := by
  obtain ⟨u, hu, -, -, hx⟩ := step_cases hx
  obtain ⟨hinv, hatomic, ho, hp, hfit⟩ : u.EngineInv := by rw [hu]; exact h
  have hslot : u.SlotMatchesBusy := hinv.2.2.2
  rcases hx with rfl | ⟨hh, i, hi, -, hfg⟩ | ⟨-, -, rfl⟩ | ⟨lbl, l, hh, hhs⟩ | ⟨hd, hh, rfl⟩ | ⟨b, rest, -, -, rfl⟩ |
    ⟨b, -, ⟨-, rfl⟩ | ⟨-, rfl⟩⟩
  · exact hfit
  · rw [State.engineFits_idle (hfg.hs_eq.trans hh)]
    exact hfg.foregroundFits hi (State.fetch_ne_ieWrite hp hi) ho hinv ((State.engineFits_idle hh).1 hfit)
  · exact hfit
  · exact hhs.engineFits hh ho hslot hfit
  · obtain ⟨-, -, -, hl⟩ := u.dispatchEnabled_iff.1 hd
    have hstart : u.fg.lbl = .start := hl.resolve_left (by simp [hatomic])
    obtain ⟨hie, hcur⟩ := (State.foregroundFits_outside (by rw [hstart]; rfl)).1 ((State.engineFits_idle hh).1 hfit)
    exact (State.engineFits_running rfl).2 ⟨hstart, hcur, hie⟩
  · exact hfit
  · exact hfit
  · exact hfit

theorem step_engineInv (hx : step s = .next t) (h : s.EngineInv) : t.EngineInv := by
  have hfit := step_engineFits hx h
  obtain ⟨hinv, hatomic, ho, hp, -⟩ := h
  obtain ⟨eprog, eparams, -, -⟩ := step_sameParameters hx
  exact ⟨step_inv hx hinv, eparams ▸ hatomic, eparams ▸ ho, eprog ▸ hp, hfit⟩

/-- The three invariants of rule R50 at a quiet point. -/
theorem State.EngineInv.quiet (h : s.EngineInv) (hq : s.Quiet) : (s.drv.slot ≠ none ↔ s.drv.busy = true) ∧
    s.drv.cursor.toNat ≤ s.drv.length.toNat ∧ (s.hw.ie.txwm = true ↔ s.drv.busy = true) := by
  obtain ⟨hl, hh⟩ := hq
  obtain ⟨⟨-, -, -, hslot⟩, -, -, -, hfit⟩ := h
  have hbusy := (State.slotMatchesBusy_after (by rw [hl]; rfl)).1 hslot
  obtain ⟨hie, hcur⟩ := (State.foregroundFits_outside (by rw [hl]; rfl)).1 ((State.engineFits_idle hh).1 hfit)
  refine ⟨?_, BitVec.le_def.1 hcur, by rw [hie]⟩
  rw [hbusy, Option.isSome_iff_ne_none]

end

/-! ## The obligations -/

/-- Settles O57: the foreground keeps its part where the handler does not run, the handler keeps its own, and dispatch
finds the foreground between operations. -/
theorem quietPointInvariants : Obligations.QuietPointInvariants := fun _ _ h hx =>
  ⟨step_engineInv hx h, (step_engineInv hx h).quiet⟩

/-- Settles O58: at launch no transfer is in flight, cursor and length are 0 and ie is 0. -/
theorem launchMeetsEngineInvariant : Obligations.LaunchMeetsEngineInvariant :=
  fun p base clock prog choices hv ha ho hp hie =>
    ⟨launchMeetsInvariant.1 p base clock prog choices hv hp, ha, ho, hie, rfl, BitVec.le_refl _⟩

end Sys2Proof.Machine
end

section
/-! Raw register writes and what is read back, the register map, and the steps of the hardware agents and the foreground
by the choice they are scheduled by (rules R61 to R64, R88, R101 to R126, R237). -/

namespace Sys2Proof.Machine

/-! ## Words and their fields (rules R29, R81, R82) -/

/-- A word is the part of it outside a mask that is clear in it. -/
theorem eq_and_of_clear {v m k : Word} (h : v &&& m = 0#32) (hk : m ||| k = BitVec.allOnes 32) : v = v &&& k := by
  calc
    v = v &&& (m ||| k) := by rw [hk, BitVec.and_allOnes]
    _ = (v &&& m) ||| (v &&& k) := BitVec.and_or_distrib_left
    _ = v &&& k := by rw [h, BitVec.zero_or]

/-- A word masked to a field is the field at its position. -/
theorem and_field (v : Word) (lo w : Nat) :
    v &&& ((BitVec.allOnes w).setWidth 32 <<< lo) = (v.extractLsb' lo w).setWidth 32 <<< lo := by
  ext i hi
  by_cases hlo : i < lo
  · simp [hlo]
  · have hidx : lo + (i - lo) = i := by omega
    by_cases hw : i - lo < w <;> simp [hlo, hw, hidx, BitVec.getLsbD_eq_getElem hi]

/-- A word masked to one bit is the bit at its position. -/
theorem and_bit (v : Word) (i : Nat) : v &&& 1#32 <<< i = bitAt i (v.getLsbD i) :=
  BitVec.and_twoPow v i

/-- The txctrl fields of a word without reserved bits assemble to the word. -/
theorem txctrl_word_ofWord {v : Word} (h : v &&& 0xFFF8FFFC#32 = 0#32) : (Txctrl.ofWord v).word = v := by
  calc
    (Txctrl.ofWord v).word
      = (v &&& 0x00070000#32) ||| (v &&& 0x00000002#32) ||| (v &&& 0x00000001#32) := by
        rw [Txctrl.word, Txctrl.ofWord, cntField, bit0, bit1, ← and_field, ← and_bit, ← and_bit]
        rfl
    _ = v &&& 0x00070003#32 := by rw [← BitVec.and_or_distrib_left, ← BitVec.and_or_distrib_left]; rfl
    _ = v := (eq_and_of_clear h (by decide)).symm

/-- The rxctrl fields of a word without reserved bits assemble to the word. -/
theorem rxctrl_word_ofWord {v : Word} (h : v &&& 0xFFF8FFFE#32 = 0#32) : (Rxctrl.ofWord v).word = v := by
  calc
    (Rxctrl.ofWord v).word = (v &&& 0x00070000#32) ||| (v &&& 0x00000001#32) := by
        rw [Rxctrl.word, Rxctrl.ofWord, cntField, bit0, ← and_field, ← and_bit]
        rfl
    _ = v &&& 0x00070001#32 := by rw [← BitVec.and_or_distrib_left]; rfl
    _ = v := (eq_and_of_clear h (by decide)).symm

/-- The ie fields of a word without reserved bits assemble to the word. -/
theorem watermarks_word_ofWord {v : Word} (h : v &&& 0xFFFFFFFC#32 = 0#32) : (Watermarks.ofWord v).word = v := by
  calc
    (Watermarks.ofWord v).word = (v &&& 0x00000002#32) ||| (v &&& 0x00000001#32) := by
        rw [Watermarks.word, Watermarks.ofWord, bit0, bit1, ← and_bit, ← and_bit]
        rfl
    _ = v &&& 0x00000003#32 := by rw [← BitVec.and_or_distrib_left]; rfl
    _ = v := (eq_and_of_clear h (by decide)).symm

/-- The div field of a word without reserved bits is the word. -/
theorem divField_setWidth {v : Word} (h : v &&& 0xFFFF0000#32 = 0#32) : (divField v).setWidth 32 = v := by
  have hfield : v &&& 0x0000FFFF#32 = (divField v).setWidth 32 <<< 0 := and_field v 0 16
  rw [BitVec.shiftLeft_zero] at hfield
  exact hfield.symm.trans (eq_and_of_clear h (by decide)).symm

section

variable {s t : State} {v : Word}

/-! ## One raw write (rules R29, R101 to R114) -/

/-- A raw write that does not fault appends its access and its return to the state it leaves (rules R100, R115). -/
theorem mmioWrite_next {r : Reg} (hs : s.fg.lbl = .start) (hw : s.writeReg r v = .ok t) :
    mmioWrite r.offset v s = .next { t with
      trace := t.trace ++ [.mmio .foreground .write r.offset v, .ret t.fg.k .none]
      fg := ⟨t.fg.k + 1, .start, .empty⟩ } := by
  rw [mmioWrite_reg hs, hw]
  simp [State.ret, State.emit]

theorem State.writeReg_txdata (h : Reg.txdata.reservedSet v = false) :
    s.writeReg .txdata v = s.enqueue (dataField v) := by
  simp [State.writeReg, h]

theorem State.writeReg_txctrl (h : Reg.txctrl.reservedSet v = false) :
    s.writeReg .txctrl v = .ok (s.setHw { s.hw with txctrl := .ofWord v }) := by
  simp [State.writeReg, h]

theorem State.writeReg_rxctrl (h : Reg.rxctrl.reservedSet v = false) :
    s.writeReg .rxctrl v = .ok (s.setHw { s.hw with rxctrl := .ofWord v }) := by
  simp [State.writeReg, h]

theorem State.writeReg_ieWord (h : Reg.ie.reservedSet v = false) :
    s.writeReg .ie v = .ok (s.setHw { s.hw with ie := .ofWord v }) := by
  simp [State.writeReg, h]

theorem State.writeReg_div (h : Reg.div.reservedSet v = false) :
    s.writeReg .div v = .ok (s.setHw { s.hw with div := divField v }) := by
  simp [State.writeReg, h]

/-- A write with a reserved bit set to a register that can be written (rule R29). -/
theorem State.writeReg_reserved {r : Reg} (hrx : r ≠ .rxdata) (hip : r ≠ .ip) (h : ¬ r.reservedSet v = false) :
    s.writeReg r v = .error .reservedBitWrite := by
  rw [Bool.not_eq_false] at h
  cases r
  case rxdata => exact absurd rfl hrx
  case ip => exact absurd rfl hip
  all_goals simp [State.writeReg, h]

/-- A write and a read of one register, where the peripheral the write leaves reads as the value written. -/
theorem write_read_back {r : Reg} (hs : s.fg.lbl = .start) (hw : s.writeReg r v = .ok t)
    (hr : ∀ u : State, u.hw = t.hw → u.readReg r = (v, u)) :
    ∃ t u, mmioWrite r.offset v s = .next t ∧ mmioRead r.offset t = .next u ∧
      u.trace = s.trace ++ [.mmio .foreground .write r.offset v, .ret s.fg.k .none,
        .mmio .foreground .read r.offset v, .ret (s.fg.k + 1) (.word v)] := by
  refine ⟨_, _, mmioWrite_next hs hw, mmioRead_next rfl (hr _ rfl), ?_⟩
  obtain ⟨hw', rfl⟩ := State.writeReg_ok hw
  simp

/-! ## The register map (rules R61 to R64) -/

theorem Reg.offset_eq (r : Reg) : ∃ n < 7, r.offset = 4 * n := by
  cases r
  exacts [⟨0, by decide, rfl⟩, ⟨1, by decide, rfl⟩, ⟨2, by decide, rfl⟩, ⟨3, by decide, rfl⟩, ⟨4, by decide, rfl⟩,
    ⟨5, by decide, rfl⟩, ⟨6, by decide, rfl⟩]

theorem Reg.exists_offset {n : Nat} (h : n < 7) : ∃ r : Reg, r.offset = 4 * n := by
  match n, h with
  | 0, _ => exact ⟨.txdata, rfl⟩
  | 1, _ => exact ⟨.rxdata, rfl⟩
  | 2, _ => exact ⟨.txctrl, rfl⟩
  | 3, _ => exact ⟨.rxctrl, rfl⟩
  | 4, _ => exact ⟨.ie, rfl⟩
  | 5, _ => exact ⟨.ip, rfl⟩
  | 6, _ => exact ⟨.div, rfl⟩

theorem State.regAt?_eq_none {addr width : Nat} (h : width ≠ 4 ∨ ∀ n : Nat, n < 7 → addr ≠ s.drv.base + 4 * n) :
    s.regAt? addr width = none := by
  rw [Option.eq_none_iff_forall_ne_some]
  intro r hr
  obtain ⟨hwidth, haddr⟩ := State.regAt?_eq_some hr
  obtain ⟨n, hn, hoff⟩ := r.offset_eq
  rcases h with h | h
  · exact h hwidth
  · exact h n hn (by rw [haddr, State.reg, hoff])

theorem ofOffset?_eq_none {n : Nat} (h : ∀ r : Reg, n ≠ r.offset) : Reg.ofOffset? n = none := by
  rw [Option.eq_none_iff_forall_ne_some]
  exact fun r hr => h r (ofOffset?_eq_some hr)

theorem readOp_of_unmapped {off : BitVec 5} (h : Reg.ofOffset? off.toNat = none) : readOp off = .unmappedRead off := by
  revert off
  decide

theorem writeOp_of_unmapped {off : BitVec 5} (h : Reg.ofOffset? off.toNat = none) :
    writeOp off v = .unmappedWrite off v := by
  unfold writeOp
  split
  case h_8 => rfl
  all_goals
    next hoff =>
      rw [hoff] at h
      cases h

/-- An admitted MMIO entry at no register's offset decodes to an access there (rule R88). -/
theorem decode_of_unmapped {d : Byte} {args : List Operand} {bufs : List Buffer} (hfmt : descFmt d = 0#2)
    (h : Entry.refusal bufs ⟨d, args⟩ = none) (ho : Reg.ofOffset? (descOff d).toNat = none) :
    decode ⟨d, args⟩ = .ok (.unmappedRead (descOff d)) ∨
      ∃ v, decode ⟨d, args⟩ = .ok (.unmappedWrite (descOff d) v) := by
  rw [decode_mmio hfmt]
  rcases (refusal_mmio_iff hfmt args bufs).1 h with ⟨hw, rfl⟩ | ⟨hw, n, hn, rfl⟩
  · exact .inl (by simp only [decodeMmio, hw, readOp_of_unmapped ho])
  · exact .inr ⟨BitVec.ofNat 32 n, by simp only [decodeMmio, hw, word?_num_lt hn, writeOp_of_unmapped ho]⟩

/-! ## One scheduled step (rule R237) -/

section

variable {rest : List Choice} (hp : s.program.refusal = none) (hf : s.fault = none)

include hp hf

theorem step_scheduled {c : Choice} (hs : s.schedule = c :: rest) :
    step s = State.runChoice { s with schedule := rest } c := by
  rw [step_running hp hf, State.nextChoice_cons hs]

/-- The foreground runs what entry `k` decodes to (rules R44, R46). -/
theorem step_foreground (hh : s.hs = none) (hs : s.schedule = .foreground :: rest) {e : Entry} {f : Fetched}
    (he : s.program.ops[s.fg.k]? = some e) (hd : decode e = .ok f) :
    step s = runFetched f { s with schedule := rest } := by
  have hk : s.fg.k < s.program.ops.length := (List.getElem?_eq_some_iff.1 he).1
  have hen : State.enabled { s with schedule := rest } .foreground = true :=
    (State.foregroundEnabled_iff _).2 ⟨hh, hf, hk⟩
  simp only [step_scheduled hp hf hs, State.runChoice, hen, if_true, State.runForeground, State.fetch, he, hd]

end

/-- Choosing the transmitter answers the transmitter step, which is none where it is not enabled (rule R120). -/
theorem State.runChoice_transmitter (hf : s.fault = none) : s.runChoice .transmitter = .next s.transmit := by
  unfold State.runChoice
  split
  · rfl
  · next he =>
    simp only [State.enabled, State.transmitterEnabled, hf, State.occTx] at he
    unfold State.transmit
    cases hx : s.hw.txctrl.txen <;> cases hq : s.hw.txfifo <;> simp_all

/-- Choosing the line answers the line step, which is none where it is not enabled (rule R125). -/
theorem State.runChoice_line (hf : s.fault = none) (b : Byte) : s.runChoice (.line b) = .next (s.receive b) := by
  unfold State.runChoice
  split
  · rfl
  · next he =>
    have hx : ¬ s.hw.rxctrl.rxen = true := by simpa [State.enabled, State.lineEnabled, hf] using he
    rw [State.receive, if_neg hx]

end

/-! ## The obligations -/

/-- Settles O5: with room the write enqueues. -/
theorem txdataWriteEnqueues : Obligations.TxdataWriteEnqueues := by
  intro s v hs hv hroom
  have hw := State.writeReg_txdata (s := s) ((txdata_reserved v).2 hv)
  rw [State.enqueue_room hroom] at hw
  exact mmioWrite_next (r := .txdata) hs hw

/-- Settles O6: on a full FIFO the enqueue overflows or loses the byte. -/
theorem txdataWriteToFullFifo : Obligations.TxdataWriteToFullFifo := by
  intro s v hs hv hfull
  have hw := State.writeReg_txdata (s := s) ((txdata_reserved v).2 hv)
  refine ⟨fun ho => ?_, fun ho => ?_⟩
  · rw [State.enqueue_overflow hfull ho] at hw
    exact mmioWrite_raise (r := .txdata) hs hw
  · rw [State.enqueue_lost hfull ho] at hw
    exact mmioWrite_next (r := .txdata) hs hw

/-- Settles O7: one register after the other. -/
theorem controlWritesStoreFields : Obligations.ControlWritesStoreFields := by
  intro s v hs
  refine ⟨fun ha hb => ?_, fun ha hb => ?_, fun ha => ?_, fun ha => ?_⟩
  · exact mmioWrite_next (r := .txctrl) hs (State.writeReg_txctrl ((txctrl_reserved v).2 ⟨ha, hb⟩))
  · exact mmioWrite_next (r := .rxctrl) hs (State.writeReg_rxctrl ((rxctrl_reserved v).2 ⟨ha, hb⟩))
  · exact mmioWrite_next (r := .ie) hs (State.writeReg_ieWord ((ie_reserved v).2 ha))
  · exact mmioWrite_next (r := .div) hs (State.writeReg_div ((div_reserved v).2 ha))

/-- Settles O8: the reserved fields that are not zero set a reserved bit. -/
theorem reservedBitsFault : Obligations.ReservedBitsFault := by
  intro s v hs t ht
  have raise : ∀ {r : Reg}, r ≠ .rxdata → r ≠ .ip → ¬ r.reservedSet v = false → mmioWrite r.offset v s = .next t := by
    intro r hrx hip hset
    rw [mmioWrite_raise hs (State.writeReg_reserved hrx hip hset), ht]
    rfl
  refine ⟨fun h => raise (r := .txdata) nofun nofun ?_, fun h => raise (r := .txctrl) nofun nofun ?_,
    fun h => raise (r := .rxctrl) nofun nofun ?_, fun h => raise (r := .ie) nofun nofun ?_,
    fun h => raise (r := .div) nofun nofun ?_⟩
  · rwa [txdata_reserved]
  · rwa [txctrl_reserved, not_and_or]
  · rwa [rxctrl_reserved, not_and_or]
  · rwa [ie_reserved]
  · rwa [div_reserved, Nat.not_le]

/-- Settles O10: the stored fields of a value without reserved bits assemble to the value. -/
theorem controlWriteReadsBack : Obligations.ControlWriteReadsBack := by
  intro s v hs
  refine ⟨fun h => ?_, fun h => ?_, fun h => ?_, fun h => ?_⟩
  · refine write_read_back (r := .txctrl) hs (State.writeReg_txctrl ((reservedSet_eq_false _ _).2 h)) fun u hu => ?_
    simp [State.readReg, hu, txctrl_word_ofWord h]
  · refine write_read_back (r := .rxctrl) hs (State.writeReg_rxctrl ((reservedSet_eq_false _ _).2 h)) fun u hu => ?_
    simp [State.readReg, hu, rxctrl_word_ofWord h]
  · refine write_read_back (r := .ie) hs (State.writeReg_ieWord ((reservedSet_eq_false _ _).2 h)) fun u hu => ?_
    simp [State.readReg, hu, watermarks_word_ofWord h]
  · refine write_read_back (r := .div) hs (State.writeReg_div ((reservedSet_eq_false _ _).2 h)) fun u hu => ?_
    simp [State.readReg, hu, divField_setWidth h]

/-- Settles O11: an access reaches a register only at its address with width 4. -/
theorem onlyWholeRegistersMapped : Obligations.OnlyWholeRegistersMapped := by
  intro s c addr width v
  refine ⟨fun h => ?_, fun n hn hwidth haddr => ?_⟩
  · simp [State.memRead, State.memWrite, State.regAt?_eq_none h]
  · obtain ⟨r, hr⟩ := Reg.exists_offset hn
    refine ⟨r, ?_, hr⟩
    rw [haddr, hwidth, ← hr]
    exact s.regAt?_reg r

/-- Settles O12: the entry decodes to an access to its offset, and no register is there. -/
theorem unmappedDescriptorFaults : Obligations.UnmappedDescriptorFaults := by
  intro s e rest hp hf hh hl hs he hfmt hoff
  have ho : Reg.ofOffset? (descOff e.desc).toNat = none := ofOffset?_eq_none hoff
  have hadm := Program.refusal_eq_none.1 hp e (List.mem_of_getElem? he)
  rcases decode_of_unmapped hfmt hadm ho with hd | ⟨v, hd⟩
  · rw [step_foreground hp hf hh hs he hd]
    exact mmioRead_unmapped (s := { s with schedule := rest }) hl ho
  · rw [step_foreground hp hf hh hs he hd]
    exact mmioWrite_unmapped (s := { s with schedule := rest }) hl ho v

/-- Settles O13: the transmitter step with and without a byte to send. -/
theorem transmitterSendsHead : Obligations.TransmitterSendsHead := by
  intro s rest hp hf hs
  rw [step_scheduled hp hf hs, State.runChoice_transmitter (s := { s with schedule := rest }) hf]
  refine ⟨fun b queue hx hq => ?_, fun h => ?_⟩
  · simp [State.transmit, hx, hq, State.setHw, State.emit]
  · rcases h with hx | hq
    · simp [State.transmit, hx]
    · simp [State.transmit, hq]

/-- Settles O14: the line step with room, without room and with the receiver off. -/
theorem lineDeliversOrDrops : Obligations.LineDeliversOrDrops := by
  intro s b rest hp hf hs
  rw [step_scheduled hp hf hs, State.runChoice_line (s := { s with schedule := rest }) hf]
  refine ⟨fun hx hroom => ?_, fun hx hfull => ?_, fun hx => ?_⟩
  · simp [State.receive, State.occRx, hx, hroom, State.setHw, State.emit]
  · simp [State.receive, State.occRx, hx, Nat.not_lt.2 hfull, State.emit]
  · simp [State.receive, hx]

/-- Settles O43: the fault is looked at before any agent. -/
theorem faultIsSticky : Obligations.FaultIsSticky := by
  intro s f hf
  refine ⟨fun hp => by simp [step, hp, hf], fun t h => ?_⟩
  obtain ⟨-, hnone, -⟩ := step_eq_next h
  rw [hf] at hnone
  cases hnone

/-- Settles O46: the two contexts that run operations. -/
theorem stepRunsDecodedOperation : Obligations.StepRunsDecodedOperation := by
  refine ⟨fun s e i rest hp hf hh hs he hd => step_foreground hp hf hh hs he hd, fun s h rest hp hf hh hs => ?_⟩
  rw [step_scheduled hp hf hs]
  simp [State.runChoice, State.enabled, State.handlerEnabled, hf, hh]

/-- Settles O59: the launch state's fields, and the flags of empty FIFOs and zero trigger counts. -/
theorem resetState : Obligations.ResetState := by
  intro p base clock s hs hdepth
  subst hs
  have hfull : (State.launch p base clock).full = false := by
    rw [← Bool.not_eq_true, State.full_iff]
    exact (Nat.ne_of_lt hdepth)
  have hempty := (State.rxEmpty_iff (State.launch p base clock)).2 rfl
  exact ⟨rfl, rfl, rfl, rfl, rfl, rfl, rfl, hfull, hempty, rfl, rfl⟩

end Sys2Proof.Machine
end

section
/-! The order of configure's faults, transmit_sync micro-step by micro-step and as a whole, and the client registrations
(rules R141, R143, R151 to R155, R205, R206, R234). -/

namespace Sys2Proof.Machine

/-! ## Repeated micro-steps -/

@[simp] theorem execTimes_zero (i : Instr) (s : State) : execTimes i 0 s = .next s := rfl

theorem execTimes_succ {i : Instr} {s t : State} (h : exec i s = .next t) (n : Nat) :
    execTimes i (n + 1) s = execTimes i n t := by
  simp only [execTimes, h]

/-- A run of micro-steps goes on from the state its first one leaves. -/
theorem execTimes_next {i : Instr} {s t : State} {n : Nat} {r : Out} (h : exec i s = .next t)
    (ht : execTimes i n t = r) : execTimes i (n + 1) s = r :=
  (execTimes_succ h n).trans ht

/-- A run of micro-steps goes on from the state its first `m` leave. -/
theorem execTimes_append {i : Instr} {s t : State} {m n : Nat} {r : Out} (h : execTimes i m s = .next t)
    (ht : execTimes i n t = r) : execTimes i (m + n) s = r := by
  induction m generalizing s with
  | zero =>
    cases h
    rwa [Nat.zero_add]
  | succ m ih =>
    rw [Nat.succ_add]
    cases hx : exec i s with
    | next u =>
      rw [execTimes_succ hx] at h
      exact execTimes_next hx (ih h)
    | fault r => simp [execTimes, hx] at h
    | refused r => simp [execTimes, hx] at h

/-! ## configure (rules R141, R143) -/

section

variable {s : State} {baud : Word}

theorem configureCheck_busy (hb : s.drv.busy = true) :
    configureCheck baud .none false s = s.raise .configureWhileBusy .foreground .cf0 := by
  simp [configureCheck, hb]

theorem configureCheck_zero (hb : s.drv.busy = false) :
    configureCheck 0#32 .none false s = s.raise .configDivideByZero .foreground .cf0 := by
  simp [configureCheck, hb]

theorem configureCheck_underflow (hb : s.drv.busy = false) (h0 : baud ≠ 0#32) (h : s.drv.clock / baud = 0#32) :
    configureCheck baud .none false s = s.raise .configDivisorUnderflow .foreground .cf0 := by
  simp [configureCheck, hb, h0, h]

theorem configureCheck_overflow (hb : s.drv.busy = false) (h0 : baud ≠ 0#32) (h1 : s.drv.clock / baud ≠ 0#32)
    (h : 0xFFFF#32 < s.drv.clock / baud - 1) :
    configureCheck baud .none false s = s.raise .configDivisorOverflow .foreground .cf0 := by
  simp only [configureCheck, hb, ne_eq, not_true_eq_false, if_false, Bool.false_eq_true]
  exact (if_neg h0).trans ((if_neg h1).trans (if_pos h))

/-! ## transmit_sync (rules R151 to R155) -/

variable {bytes : List Byte}

theorem syncEnter_busy (hb : s.drv.busy = true) : syncEnter s = s.raise .syncWhileBusy .foreground .ts0 :=
  if_pos hb

theorem syncEnter_idle (hb : s.drv.busy = false) : syncEnter s = s.goto .ts1 { s.fg.loc with i := 0 } := by
  simp [syncEnter, hb]

/-- TS0 and TS1 with no transfer in flight. -/
theorem sync_program (hs : s.fg.lbl = .start) (hb : s.drv.busy = false) :
    execTimes (.transmitSync bytes) 2 s = .next { s with
      hw := { s.hw with txctrl := ⟨true, false, 1⟩ }
      trace := s.trace ++ [.mmio .foreground .write 0x08 0x00010001#32]
      fg := ⟨s.fg.k, if bytes = [] then .ts4 else .ts2, { s.fg.loc with i := 0 }⟩ } := by
  refine execTimes_next (exec_transmitSync_start hs) ?_
  rw [syncEnter_idle hb]
  refine execTimes_next (exec_transmitSync_ts1 rfl) ?_
  rw [syncProgram_eq]
  simp only [List.length_eq_zero_iff]
  rfl

/-- One turn of the loop, TS2 and TS3, where the FIFO has room. -/
theorem sync_turn {b : Byte} (hl : s.fg.lbl = .ts2) (hb : bytes[s.fg.loc.i]? = some b)
    (hr : s.hw.txfifo.length < s.params.txDepth) :
    execTimes (.transmitSync bytes) 2 s = .next { s with
      hw := { s.hw with txfifo := s.hw.txfifo ++ [b] }
      draws := s.draws + 1
      trace := s.trace ++ pollWriteEvents s.draws [b]
      fg := ⟨s.fg.k, if s.fg.loc.i + 1 = bytes.length then .ts4 else .ts2,
        { s.fg.loc with i := s.fg.loc.i + 1 }⟩ } := by
  have hfull : s.full = false := by
    rw [← Bool.not_eq_true, State.full_iff]
    exact Nat.ne_of_lt hr
  refine execTimes_next (exec_transmitSync_ts2 hl) ?_
  rw [syncPoll_eq, hfull, if_neg Bool.false_ne_true]
  refine execTimes_next (exec_transmitSync_ts3 rfl hb) ?_
  rw [syncWrite_room (by exact hr)]
  simp only [State.goto, State.emit, State.setHw, State.drew, pollWriteEvents, List.append_assoc]
  rfl

/-- The loop with room for the bytes that are left: each is polled for and written, in order (rules R151, R155). -/
theorem sync_loop (left : List Byte) : ∀ s : State, s.fg.loc.i ≤ bytes.length → bytes.drop s.fg.loc.i = left →
    s.fg.lbl = (if left = [] then .ts4 else .ts2) → s.hw.txfifo.length + left.length ≤ s.params.txDepth →
    execTimes (.transmitSync bytes) (2 * left.length) s = .next { s with
      hw := { s.hw with txfifo := s.hw.txfifo ++ left }
      draws := s.draws + left.length
      trace := s.trace ++ pollWriteEvents s.draws left
      fg := ⟨s.fg.k, .ts4, { s.fg.loc with i := s.fg.loc.i + left.length }⟩ } := by
  induction left with
  | nil =>
    rintro ⟨hw, drv, ⟨k, lbl, loc⟩, hs, tr, ft, pg, pm, sc, dr⟩ - - hl -
    simp at hl
    simp [pollWriteEvents, hl]
  | cons b left ih =>
    intro s hi hdrop hl hroom
    have hb : bytes[s.fg.loc.i]? = some b := by rw [← List.head?_drop, hdrop]; rfl
    have hlt : s.fg.loc.i < bytes.length := (List.getElem?_eq_some_iff.1 hb).1
    have hnext : bytes.drop (s.fg.loc.i + 1) = left := by rw [← List.tail_drop, hdrop]; rfl
    rw [List.length_cons] at hroom
    have hlast : s.fg.loc.i + 1 = bytes.length ↔ left = [] := by
      rw [← hnext, List.drop_eq_nil_iff]
      omega
    rw [List.length_cons, show 2 * (left.length + 1) = 2 + 2 * left.length by omega]
    refine execTimes_append (sync_turn (by simpa using hl) hb (by omega)) ?_
    refine Eq.trans (ih _ hlt hnext (by simp only [hlast]) (by simp; omega)) ?_
    simp [pollWriteEvents]
    omega

end

/-! ## The obligations -/

/-- Settles O18: each check of CF0 in turn. -/
theorem configureFaultOrder : Obligations.ConfigureFaultOrder := by
  intro s baud stop hs f hf
  rw [exec_configure_start hs]
  have hne : 0 < baud.toNat → baud ≠ 0#32 := fun h e => by simp [e] at h
  refine ⟨fun hb => ?_, fun hb h0 => ?_, fun hb h0 hlt => ?_, fun hb h0 hov => ?_⟩
  · rw [hf, configureCheck_busy hb]
    rfl
  · obtain rfl : baud = 0#32 := BitVec.eq_of_toNat_eq h0
    rw [hf, configureCheck_zero hb]
    rfl
  · have hquot : s.drv.clock / baud = 0#32 := by
      apply BitVec.eq_of_toNat_eq
      rw [BitVec.toNat_udiv, Nat.div_eq_of_lt hlt]
      rfl
    rw [hf, configureCheck_underflow hb (hne h0) hquot]
    rfl
  · have hquot : s.drv.clock / baud ≠ 0#32 := by
      intro e
      have hzero := congrArg BitVec.toNat e
      rw [BitVec.toNat_udiv] at hzero
      simp [hzero] at hov
    have hmax : 0xFFFF#32 < s.drv.clock / baud - 1 := by
      rw [BitVec.lt_def, toNat_divisor (by omega)]
      exact hov
    rw [hf, configureCheck_overflow hb (hne h0) hquot hmax]
    rfl

/-- Settles O19: TS0's check, and TS0 with TS1. -/
theorem syncProgramsTransmitter : Obligations.SyncProgramsTransmitter := by
  intro s bytes hs
  refine ⟨fun hb => ?_, fun hb => sync_program hs hb⟩
  rw [exec_transmitSync_start hs, syncEnter_busy hb]
  rfl

/-- Settles O20: TS0 and TS1, the loop, and TS4. -/
theorem syncQueuesEveryByte : Obligations.SyncQueuesEveryByte := by
  intro s bytes hs hb hroom
  rw [show 2 * bytes.length + 3 = 2 + (2 * bytes.length + 1) by omega]
  refine execTimes_append (sync_program hs hb) ?_
  refine execTimes_append (sync_loop bytes _ (Nat.zero_le _) rfl rfl hroom) ?_
  refine execTimes_next (exec_transmitSync_ts4 rfl) ?_
  simp [State.ret]

/-- Settles O21: the poll reads the flag `full` over a draw and branches on it. -/
theorem syncPollsWhileFull : Obligations.SyncPollsWhileFull := by
  intro s bytes hl r hr
  rw [← State.dataWord_full] at hr
  subst hr
  rw [exec_transmitSync_ts2 hl, syncPoll_eq]
  simp only [State.full_iff]
  rfl

/-- Settles O22: TS3 with room, overflowing and losing the byte, and TS4. -/
theorem syncWritesByte : Obligations.SyncWritesByte := by
  intro s bytes
  refine ⟨fun b hl hb => ?_, fun hl => exec_transmitSync_ts4 hl⟩
  rw [exec_transmitSync_ts3 hl hb]
  refine ⟨fun hr => ?_, fun hfull ho => ?_, fun hfull ho => ?_⟩
  · rw [syncWrite_room hr]
    rfl
  · rw [syncWrite_overflow hfull ho]
    rfl
  · rw [syncWrite_lost hfull ho]
    rfl

/-- Settles O30: each registration is one micro-step. -/
theorem registrationReplacesClient : Obligations.RegistrationReplacesClient := fun _ _ hs =>
  ⟨State.oneStep_start hs _, State.oneStep_start hs _⟩

end Sys2Proof.Machine
end

section
/-! A fill of the transmit FIFO under `WriteThenCheck` (rules R163, R181), said once for transmit_buffer and for the
handler: the state after one turn and after all turns of the loop. -/

namespace Sys2Proof.Machine

/-- One turn of a fill by context `c`: byte `b` at index `i` queued, the cursor after it, and the full check. -/
def fillOne (c : Ctx) (i : Nat) (b : Byte) (s : State) : State :=
  { s with
    hw := { s.hw with txfifo := s.hw.txfifo ++ [b] }
    drv := { s.drv with cursor := BitVec.ofNat 32 (i + 1) }
    draws := s.draws + 1
    trace := s.trace ++ writeCheckEvents c s.params.txDepth s.draws s.hw.txfifo.length [b] }

/-- A whole fill by context `c` from index `i` on: `bytes` queued, the cursor after them, and a full check for each. -/
def fillAll (c : Ctx) (i : Nat) (bytes : List Byte) (s : State) : State :=
  { s with
    hw := { s.hw with txfifo := s.hw.txfifo ++ bytes }
    drv := { s.drv with cursor := BitVec.ofNat 32 (i + bytes.length) }
    draws := s.draws + bytes.length
    trace := s.trace ++ writeCheckEvents c s.params.txDepth s.draws s.hw.txfifo.length bytes }

theorem fillAll_cons (c : Ctx) (i : Nat) (b : Byte) (bytes : List Byte) (s : State) :
    fillAll c (i + 1) bytes (fillOne c i b s) = fillAll c i (b :: bytes) s := by
  have hidx : i + 1 + bytes.length = i + (bytes.length + 1) := by omega
  have hdraws : s.draws + 1 + bytes.length = s.draws + (bytes.length + 1) := by omega
  simp [fillAll, fillOne, writeCheckEvents, hidx, hdraws]

/-- The fill loop of operation `op` over `data`, up to index `n`: `top i` puts a state at the top of the loop with index
`i`, `fin i` at its exit, and a turn at `top i` queues the byte at `i` and goes on until the FIFO is full or the index is
`n`. Then `m + 1` turns, no more than fit and up to one of the two ends, queue the bytes from `i` on. -/
theorem execTimes_fill {op : Instr} {c : Ctx} {data : List Byte} {n : Nat} {top fin : Nat → State → State}
    {P : State → Prop} (hP : ∀ i b s, P s → P (fillOne c i b s))
    (hturn : ∀ i b s, P s → i < n → data[i]? = some b → s.hw.txfifo.length < s.params.txDepth →
      execTimes op 3 (top i s) = .next (
        if s.hw.txfifo.length + 1 = s.params.txDepth ∨ i + 1 = n then fin (i + 1) (fillOne c i b s)
        else top (i + 1) (fillOne c i b s)))
    (hn : n ≤ data.length) (m : Nat) : ∀ i s, P s → i + (m + 1) ≤ n →
      s.hw.txfifo.length + (m + 1) ≤ s.params.txDepth →
      (s.hw.txfifo.length + (m + 1) = s.params.txDepth ∨ i + (m + 1) = n) →
      execTimes op (3 * (m + 1)) (top i s) =
        .next (fin (i + (m + 1)) (fillAll c i ((data.drop i).take (m + 1)) s)) := by
  induction m with
  | zero =>
    intro i s hs hi hroom hend
    have hidx : i < data.length := by omega
    rw [hturn i data[i] s hs (by omega) (List.getElem?_eq_getElem hidx) (by omega), if_pos hend,
      List.drop_eq_getElem_cons hidx]
    rfl
  | succ m ih =>
    intro i s hs hi hroom hend
    have hidx : i < data.length := by omega
    have hturn' := hturn i data[i] s hs (by omega) (List.getElem?_eq_getElem hidx) (by omega)
    rw [if_neg (by omega)] at hturn'
    rw [show 3 * (m + 1 + 1) = 3 + 3 * (m + 1) by omega]
    refine execTimes_append hturn' ?_
    rw [ih (i + 1) _ (hP i _ s hs) (by omega) (by simp [fillOne]; omega) (by simp [fillOne]; omega), fillAll_cons,
      ← List.take_succ_cons, ← List.drop_eq_getElem_cons hidx, show i + 1 + (m + 1) = i + (m + 1 + 1) by omega]

end Sys2Proof.Machine
end

section
/-! transmit_buffer micro-step by micro-step and as a whole (rules R101, R163 to R167). -/

namespace Sys2Proof.Machine

section

variable {s : State} {buf : Buffer} {len : Word}

/-! ## TB0 and TB7 -/

theorem bufferEnter_busy (h0 : len ≠ 0#32) (hb : s.drv.busy = true) :
    bufferEnter buf len s = s.raise .transmitWhileBusy .foreground .tb0 :=
  (if_neg h0).trans (if_pos hb)

theorem bufferEnter_short (h0 : len ≠ 0#32) (hb : s.drv.busy = false) (hlen : buf.data.length < len.toNat) :
    bufferEnter buf len s = s.raise .bufferTooShort .foreground .tb0 :=
  (if_neg h0).trans ((if_neg (by simp [hb])).trans (if_pos hlen))

theorem bufferEnter_accepts (h0 : len ≠ 0#32) (hb : s.drv.busy = false) (hlen : len.toNat ≤ buf.data.length) :
    bufferEnter buf len s = { s with
      drv := { s.drv with busy := true, cursor := if s.params.cursorInitWrite = true then 0#32 else s.drv.cursor }
      fg := ⟨s.fg.k, .tb1, { s.fg.loc with buf := some buf, i := 0 }⟩ } :=
  (if_neg h0).trans ((if_neg (by simp [hb])).trans (if_neg (Nat.not_lt.2 hlen)))

theorem nstopOf_eq (p : StopBits) : nstopOf p = decide (p = .two) := by
  cases p <;> rfl

theorem ne_zero_of_toNat_pos {v : Word} (h : 0 < v.toNat) : v ≠ 0#32 := by
  rintro rfl
  exact absurd h (by decide)

/-! ## TB1 to TB8, each with its whole next state -/

theorem byteAt?_some (b : Buffer) (i : Nat) : byteAt? (some b) i = b.data[i]? := rfl

theorem tb1_next (hl : s.fg.lbl = .tb1) : exec (.transmitBuffer buf len) s = .next { s with
    hw := { s.hw with ie := ⟨true, false⟩ }
    trace := s.trace ++ [.mmio .foreground .write 0x10 0x00000001#32]
    fg := ⟨s.fg.k, .tb2, s.fg.loc⟩ } := by
  rw [exec_transmitBuffer_tb1 hl, bufferEnable_eq]
  rfl

section

variable {held : Buffer} {b : Byte} (ho : s.params.fillOrder = .writeThenCheck) (hl : s.fg.lbl = .tb2)
  (hbuf : s.fg.loc.buf = some held) (hb : held.data[s.fg.loc.i]? = some b)

include ho hl hbuf hb

theorem tb2_write : exec (.transmitBuffer buf len) s = .next (fillWrite .tb2 b .tb3 s) :=
  exec_transmitBuffer_write ho hl (by rw [hbuf, byteAt?_some, hb])

theorem tb2_room (hr : s.hw.txfifo.length < s.params.txDepth) : exec (.transmitBuffer buf len) s = .next { s with
    hw := { s.hw with txfifo := s.hw.txfifo ++ [b] }
    trace := s.trace ++ [.mmio .foreground .write 0x00 (b.setWidth 32)]
    fg := ⟨s.fg.k, .tb3, s.fg.loc⟩ } := by
  rw [tb2_write ho hl hbuf hb, fillWrite_room hr]
  rfl

end

theorem tb3_next (ho : s.params.fillOrder = .writeThenCheck) (hl : s.fg.lbl = .tb3) :
    exec (.transmitBuffer buf len) s = .next { s with
      drv := { s.drv with cursor := BitVec.ofNat 32 (s.fg.loc.i + 1) }
      fg := ⟨s.fg.k, .tb4, s.fg.loc⟩ } :=
  exec_transmitBuffer_cursor ho hl

theorem tb4_next (ho : s.params.fillOrder = .writeThenCheck) (hl : s.fg.lbl = .tb4) :
    exec (.transmitBuffer buf len) s = .next { s with
      draws := s.draws + 1
      trace := s.trace ++ [.mmio .foreground .read 0x00 (dataWord s.full (Config.drawByte s.draws))]
      fg := ⟨s.fg.k, if s.full = true ∨ s.fg.loc.i + 1 = len.toNat then .tb5 else .tb2,
        { s.fg.loc with i := s.fg.loc.i + 1 }⟩ } := by
  rw [exec_transmitBuffer_checkAfter ho hl, fillCheckAfter_eq]
  rfl

theorem tb7_next (hl : s.fg.lbl = .tb7) : exec (.transmitBuffer buf len) s = .next { s with
    hw := { s.hw with txctrl := ⟨true, decide (s.drv.stop = .two), 1⟩ }
    trace := s.trace ++
      [.mmio .foreground .write 0x08 (if s.drv.stop = .two then 0x00010003#32 else 0x00010001#32)]
    fg := ⟨s.fg.k, .tb8, s.fg.loc⟩ } := by
  rw [exec_transmitBuffer_tb7 hl, bufferStart_eq, startWord_eq, nstopOf_eq]
  rfl

/-! ## The fill under `WriteThenCheck` -/

/-- At the top of the fill loop with index `i`. -/
def atTb2 (i : Nat) (s : State) : State := s.goto .tb2 { s.fg.loc with i := i }

/-- At the exit of the fill loop with index `i`. -/
def atTb5 (i : Nat) (s : State) : State := s.goto .tb5 { s.fg.loc with i := i }

/-- TB2 to TB4, one turn of the fill (rule R163). -/
theorem fill_turn {i : Nat} {b : Byte} (ho : s.params.fillOrder = .writeThenCheck) (hbuf : s.fg.loc.buf = some buf)
    (hb : buf.data[i]? = some b) (hr : s.hw.txfifo.length < s.params.txDepth) :
    execTimes (.transmitBuffer buf len) 3 (atTb2 i s) = .next (
      if s.hw.txfifo.length + 1 = s.params.txDepth ∨ i + 1 = len.toNat then atTb5 (i + 1) (fillOne .foreground i b s)
      else atTb2 (i + 1) (fillOne .foreground i b s)) := by
  refine execTimes_next (tb2_room ho rfl hbuf hb hr) ?_
  refine execTimes_next (tb3_next ho rfl) ?_
  refine execTimes_next (tb4_next ho rfl) ?_
  by_cases hend : s.hw.txfifo.length + 1 = s.params.txDepth ∨ i + 1 = len.toNat <;>
    simp [State.full, State.occTx, atTb2, atTb5, State.goto, fillOne, writeCheckEvents, hend]

theorem atTb2_self (hl : s.fg.lbl = .tb2) : atTb2 s.fg.loc.i s = s := by
  rw [atTb2, State.goto, ← hl]

/-- The fill loop from TB2 on, over as many bytes as are left or as fit (rules R163, R167). -/
theorem fill_loop (hlen : len.toNat ≤ buf.data.length) {s : State} (ho : s.params.fillOrder = .writeThenCheck)
    (hl : s.fg.lbl = .tb2) (hbuf : s.fg.loc.buf = some buf) {m : Nat} (hi : s.fg.loc.i + (m + 1) ≤ len.toNat)
    (hroom : s.hw.txfifo.length + (m + 1) ≤ s.params.txDepth)
    (hend : s.hw.txfifo.length + (m + 1) = s.params.txDepth ∨ s.fg.loc.i + (m + 1) = len.toNat) :
    execTimes (.transmitBuffer buf len) (3 * (m + 1)) s = .next (atTb5 (s.fg.loc.i + (m + 1))
      (fillAll .foreground s.fg.loc.i ((buf.data.drop s.fg.loc.i).take (m + 1)) s)) := by
  have hloop := execTimes_fill (P := fun s => s.params.fillOrder = .writeThenCheck ∧ s.fg.loc.buf = some buf)
    (fun _ _ _ h => h) (fun _ _ _ h _ hb hr => fill_turn (len := len) h.1 h.2 hb hr) hlen m _ s ⟨ho, hbuf⟩ hi hroom hend
  rwa [atTb2_self hl] at hloop

/-- TB0 to the exit of the fill: the transfer is accepted, the interrupt enabled, and the first `m` bytes queued. -/
theorem buffer_filled {m : Nat} (hs : s.fg.lbl = .start) (ho : s.params.fillOrder = .writeThenCheck)
    (hb : s.drv.busy = false) (h0 : 0 < len.toNat) (hlen : len.toNat ≤ buf.data.length)
    (hroom : s.hw.txfifo.length < s.params.txDepth)
    (hm : m = min len.toNat (s.params.txDepth - s.hw.txfifo.length)) :
    execTimes (.transmitBuffer buf len) (3 * m + 2) s = .next { s with
      hw := { s.hw with ie := ⟨true, false⟩, txfifo := s.hw.txfifo ++ buf.data.take m }
      drv := { s.drv with cursor := BitVec.ofNat 32 m, busy := true }
      draws := s.draws + m
      trace := s.trace ++ [.mmio .foreground .write 0x10 0x00000001#32] ++
        writeCheckEvents .foreground s.params.txDepth s.draws s.hw.txfifo.length (buf.data.take m)
      fg := ⟨s.fg.k, .tb5, { s.fg.loc with buf := some buf, i := m }⟩ } := by
  obtain ⟨j, rfl⟩ : ∃ j, m = j + 1 := Nat.exists_eq_succ_of_ne_zero (by omega)
  refine execTimes_next (exec_transmitBuffer_start hs buf len) ?_
  rw [bufferEnter_accepts (ne_zero_of_toNat_pos h0) hb hlen]
  refine execTimes_next (tb1_next rfl) ?_
  refine Eq.trans (fill_loop hlen (by exact ho) rfl rfl ?_ ?_ ?_) ?_
  · simp only
    omega
  · simp only
    omega
  · simp only
    omega
  · have htake : (buf.data.take (j + 1)).length = j + 1 := List.length_take_of_le (by omega)
    simp [atTb5, State.goto, fillAll, htake]

end

/-! ## The obligations -/

/-- Settles O24: TB0's checks in turn. -/
theorem transmitBufferAccepts : Obligations.TransmitBufferAccepts := by
  intro s buf len hs h0
  have hne := ne_zero_of_toNat_pos h0
  rw [exec_transmitBuffer_start hs]
  refine ⟨fun hb => ?_, fun hb hlen => ?_, fun hb hlen => ?_⟩
  · rw [bufferEnter_busy hne hb]
    rfl
  · rw [bufferEnter_short hne hb hlen]
    rfl
  · rw [bufferEnter_accepts hne hb hlen]

/-- Settles O25: TB0, TB1 and the fill, then TB5 to TB8. -/
theorem transmitBufferFillsFifo : Obligations.TransmitBufferFillsFifo := by
  intro s buf len m hs ho hb h0 hlen hroom hm
  rw [show 3 * m + 6 = (3 * m + 2) + 4 by omega]
  refine execTimes_append (buffer_filled hs ho hb h0 hlen hroom hm) ?_
  refine execTimes_next (exec_transmitBuffer_tb5 rfl) ?_
  refine execTimes_next (exec_transmitBuffer_tb6 rfl) ?_
  refine execTimes_next (tb7_next rfl) ?_
  refine execTimes_next (exec_transmitBuffer_tb8 rfl) ?_
  simp [State.ret, bufferPut, bufferLength, State.goto, State.setDrv]

/-- Settles O26: the lemma of each label. -/
theorem transmitBufferMicroSteps : Obligations.TransmitBufferMicroSteps := by
  intro s buf len
  refine ⟨tb1_next, fun held b ho hl hbuf hb => ⟨tb2_room ho hl hbuf hb, fun hfull hov => ?_, fun hfull hov => ?_⟩,
    tb3_next, fun ho hl r hr => ?_, exec_transmitBuffer_tb5, exec_transmitBuffer_tb6, tb7_next,
    exec_transmitBuffer_tb8⟩
  · rw [tb2_write ho hl hbuf hb, fillWrite_overflow hfull hov]
    rfl
  · rw [tb2_write ho hl hbuf hb, fillWrite_lost hfull hov]
    rfl
  · rw [← State.dataWord_full] at hr
    subst hr
    rw [tb4_next ho hl]
    simp only [State.full_iff]

/-- Settles O27: TB2, TB3 on a FIFO with room and on a full one, and TB4. -/
theorem transmitBufferChecksFirst : Obligations.TransmitBufferChecksFirst := by
  intro s buf len ho
  refine ⟨fun hl r hr => ?_, fun held b hl hbuf hb => ?_, exec_transmitBuffer_advance ho⟩
  · rw [← State.dataWord_full] at hr
    subst hr
    rw [exec_transmitBuffer_checkBefore ho hl, fillCheckBefore_eq]
    simp only [State.full_iff]
    rfl
  · rw [exec_transmitBuffer_writeChecked ho hl (by rw [hbuf, byteAt?_some, hb])]
    refine ⟨fun hr => ?_, fun hfull hov => ?_, fun hfull hov => ?_⟩
    · rw [fillWrite_room hr]
      rfl
    · rw [fillWrite_overflow hfull hov]
      rfl
    · rw [fillWrite_lost hfull hov]
      rfl

end Sys2Proof.Machine
end

section
/-! handle_interrupt micro-step by micro-step and through its paths (rules R181 to R187). -/

namespace Sys2Proof.Machine

/-! ## H1 to H5, each with its whole next state -/

section

variable {s : State} {l : HsLocals}

theorem h1_next (hs : s.hs = some ⟨.h1, l⟩) : exec .handleInterrupt s = .next { s with
    hs := some ⟨if s.drv.cursor = s.drv.length then
        (if s.params.doneWriteMode = .writeWhole then .h2 else .h2a) else .h5,
      { l with c := s.drv.cursor, n := s.drv.length }⟩ } := by
  rw [exec_handleInterrupt hs, handlerStep, handlerDecide]
  by_cases hc : s.drv.cursor = s.drv.length
  · simp only [if_pos hc]
    cases s.params.doneWriteMode <;> rfl
  · simp only [if_neg hc]
    rfl

theorem h2_next (hs : s.hs = some ⟨.h2, l⟩) : exec .handleInterrupt s = .next { s with
    hw := { s.hw with txctrl := ⟨false, false, 0⟩ }
    trace := s.trace ++ [.mmio .handler .write 0x08 0#32]
    hs := some ⟨.h3, l⟩ } := by
  rw [exec_handleInterrupt hs, handlerStep, handlerWrite_txctrl_zero]
  rfl

theorem h3_next (hs : s.hs = some ⟨.h3, l⟩) : exec .handleInterrupt s = .next { s with
    hw := { s.hw with ie := ⟨false, false⟩ }
    trace := s.trace ++ [.mmio .handler .write 0x10 0#32]
    hs := some ⟨.h4, l⟩ } := by
  rw [exec_handleInterrupt hs, handlerStep, handlerWrite_ie_zero]
  rfl

theorem h2a_next (hs : s.hs = some ⟨.h2a, l⟩) : exec .handleInterrupt s = .next { s with
    trace := s.trace ++ [.mmio .handler .read 0x08 s.hw.txctrl.word]
    hs := some ⟨.h2b, { l with t := s.hw.txctrl.word }⟩ } := by
  rw [exec_handleInterrupt hs, handlerStep, handlerRead_txctrl]
  rfl

theorem h2b_next (hs : s.hs = some ⟨.h2b, l⟩) (ht : l.t &&& 0xFFF8FFFC#32 = 0#32) :
    exec .handleInterrupt s = .next { s with
      hw := { s.hw with txctrl := ⟨false, l.t.getLsbD 1, l.t.extractLsb' 16 3⟩ }
      trace := s.trace ++ [.mmio .handler .write 0x08 (l.t &&& 0xFFFFFFFE#32)]
      hs := some ⟨.h3a, l⟩ } := by
  rw [exec_handleInterrupt hs, handlerStep, handlerWrite_txctrl_back ((reservedSet_eq_false .txctrl _).2 ht),
    txctrl_ofWord_clearBit0, clearBit0_eq]
  rfl

theorem h3a_next (hs : s.hs = some ⟨.h3a, l⟩) : exec .handleInterrupt s = .next { s with
    trace := s.trace ++ [.mmio .handler .read 0x10 s.hw.ie.word]
    hs := some ⟨.h3b, { l with t := s.hw.ie.word }⟩ } := by
  rw [exec_handleInterrupt hs, handlerStep, handlerRead_ie]
  rfl

theorem h3b_next (hs : s.hs = some ⟨.h3b, l⟩) (ht : l.t &&& 0xFFFFFFFC#32 = 0#32) :
    exec .handleInterrupt s = .next { s with
      hw := { s.hw with ie := ⟨false, l.t.getLsbD 1⟩ }
      trace := s.trace ++ [.mmio .handler .write 0x10 (l.t &&& 0xFFFFFFFE#32)]
      hs := some ⟨.h4, l⟩ } := by
  rw [exec_handleInterrupt hs, handlerStep, handlerWrite_ie_back ((reservedSet_eq_false .ie _).2 ht),
    watermarks_ofWord_clearBit0, clearBit0_eq]
  rfl

/-- H4's event for the buffer `b` it takes from the slot: the callback, or the drop (rules R184, R185). -/
def completionEvent (cl : Option ClientId) (b : Buffer) (n : Word) : Event :=
  match cl with
  | some c => .callback c b n .success
  | none => .bufferDropped b

theorem h4_empty (hs : s.hs = some ⟨.h4, l⟩) (hn : s.drv.slot = none) :
    exec .handleInterrupt s = .next { s with hs := none } := by
  rw [exec_handleInterrupt hs, handlerStep, handlerComplete, hn]
  rfl

theorem h4_occupied (hs : s.hs = some ⟨.h4, l⟩) {b : Buffer} (hb : s.drv.slot = some b) :
    exec .handleInterrupt s = .next { s with
      drv := { s.drv with slot := none, busy := false }
      trace := s.trace ++ [completionEvent s.drv.txClient b l.n]
      hs := none } := by
  rw [exec_handleInterrupt hs, handlerStep, handlerComplete, hb]
  cases hc : s.drv.txClient <;> rfl

theorem h5_next (hs : s.hs = some ⟨.h5, l⟩) : exec .handleInterrupt s = .next { s with
    hs := if s.drv.slot = none ∨ l.n.toNat ≤ l.c.toNat then none else some ⟨.h6, { l with i := l.c.toNat }⟩ } := by
  rw [exec_handleInterrupt hs, handlerStep, handlerResume]
  by_cases hn : s.drv.slot = none
  · rw [if_pos hn, if_pos (.inl hn)]
    rfl
  · by_cases hc : l.n.toNat ≤ l.c.toNat
    · rw [if_neg hn, if_pos hc, if_pos (.inr hc)]
      rfl
    · rw [if_neg hn, if_neg hc, if_neg (not_or.2 ⟨hn, hc⟩)]
      rfl

/-! ## H6 to H8 in both fill orders -/

/-- The label `m` at which the fill writes under each order, and the label after it (rules R181, R187). -/
def WritesAt (o : FillOrder) (lbl next : HsLabel) (m : MicroStep) : Prop :=
  o = .writeThenCheck ∧ lbl = .h6 ∧ next = .h7 ∧ m = .h6 ∨ o = .checkThenWrite ∧ lbl = .h7 ∧ next = .h8 ∧ m = .h7

section

variable {lbl next : HsLabel} {m : MicroStep} (hw : WritesAt s.params.fillOrder lbl next m)
  (hs : s.hs = some ⟨lbl, l⟩)

include hw hs

theorem exec_handlerFill : exec .handleInterrupt s = .next (handlerFill m next l s) := by
  rw [exec_handleInterrupt hs]
  rcases hw with ⟨ho, rfl, rfl, rfl⟩ | ⟨ho, rfl, rfl, rfl⟩ <;> simp only [handlerStep, ho]

/-- The write at an index that the slot's buffer has no byte at (rules R183, R187). -/
theorem fill_noByte (hb : byteAt? s.drv.slot l.i = none) :
    exec .handleInterrupt s = .next (s.raise .handlerIndexOutOfRange .handler m) := by
  rw [exec_handlerFill hw hs, handlerFill_noByte hb]

variable {buf : Buffer} {b : Byte} (hbuf : s.drv.slot = some buf) (hb : buf.data[l.i]? = some b)

include hbuf hb

theorem fill_room (hr : s.hw.txfifo.length < s.params.txDepth) : exec .handleInterrupt s = .next { s with
    hw := { s.hw with txfifo := s.hw.txfifo ++ [b] }
    trace := s.trace ++ [.mmio .handler .write 0x00 (b.setWidth 32)]
    hs := some ⟨next, l⟩ } := by
  rw [exec_handlerFill hw hs, handlerFill_room (by rw [hbuf, byteAt?_some, hb]) hr]
  rfl

theorem fill_overflow (hfull : s.params.txDepth ≤ s.hw.txfifo.length) (hov : s.params.txOverflow = .fault) :
    exec .handleInterrupt s = .next (s.raise .txOverflow .handler m) := by
  rw [exec_handlerFill hw hs, handlerFill_overflow (by rw [hbuf, byteAt?_some, hb]) hfull hov]

theorem fill_lost (hfull : s.params.txDepth ≤ s.hw.txfifo.length) (hov : s.params.txOverflow = .drop) :
    exec .handleInterrupt s = .next { s with
      trace := s.trace ++ [.mmio .handler .write 0x00 (b.setWidth 32)]
      hs := some ⟨next, l⟩ } := by
  rw [exec_handlerFill hw hs, handlerFill_lost (by rw [hbuf, byteAt?_some, hb]) hfull hov]
  rfl

end

theorem h7_next (ho : s.params.fillOrder = .writeThenCheck) (hs : s.hs = some ⟨.h7, l⟩) :
    exec .handleInterrupt s = .next { s with
      drv := { s.drv with cursor := BitVec.ofNat 32 (l.i + 1) }
      hs := some ⟨.h8, l⟩ } := by
  simp only [exec_handleInterrupt hs, handlerStep, ho]
  rfl

theorem h8_next (ho : s.params.fillOrder = .writeThenCheck) (hs : s.hs = some ⟨.h8, l⟩) :
    exec .handleInterrupt s = .next { s with
      draws := s.draws + 1
      trace := s.trace ++ [.mmio .handler .read 0x00 (dataWord s.full (Config.drawByte s.draws))]
      hs := if s.full = true ∨ l.i + 1 = l.n.toNat then none else some ⟨.h6, { l with i := l.i + 1 }⟩ } := by
  simp only [exec_handleInterrupt hs, handlerStep, ho, handlerCheckAfter_eq]
  split <;> rfl

theorem h6_check (ho : s.params.fillOrder = .checkThenWrite) (hs : s.hs = some ⟨.h6, l⟩) :
    exec .handleInterrupt s = .next { s with
      draws := s.draws + 1
      trace := s.trace ++ [.mmio .handler .read 0x00 (dataWord s.full (Config.drawByte s.draws))]
      hs := if s.full = true then none else some ⟨.h7, l⟩ } := by
  simp only [exec_handleInterrupt hs, handlerStep, ho, handlerCheckBefore_eq]
  split <;> rfl

theorem h8_advance (ho : s.params.fillOrder = .checkThenWrite) (hs : s.hs = some ⟨.h8, l⟩) :
    exec .handleInterrupt s = .next { s with
      drv := { s.drv with cursor := BitVec.ofNat 32 (l.i + 1) }
      hs := if l.i + 1 = l.n.toNat then none else some ⟨.h6, { l with i := l.i + 1 }⟩ } := by
  simp only [exec_handleInterrupt hs, handlerStep, ho, handlerAdvance]
  split <;> rfl

end

/-! ## The micro-steps' obligations -/

/-- Settles O36: the fill's write at an index past the buffer. -/
theorem handlerIndexFaults : Obligations.HandlerIndexFaults := by
  intro s l buf hbuf hlen
  have hb : byteAt? s.drv.slot l.i = none := by
    rw [hbuf, byteAt?_some]
    exact List.getElem?_eq_none hlen
  exact ⟨fun hs ho => fill_noByte (.inl ⟨ho, rfl, rfl, rfl⟩) hs hb,
    fun hs ho => fill_noByte (.inr ⟨ho, rfl, rfl, rfl⟩) hs hb⟩

/-- Settles O37: the check, the write on a FIFO with room and on a full one, and the cursor. -/
theorem handlerChecksFirst : Obligations.HandlerChecksFirst := by
  intro s l ho
  refine ⟨fun hs r hr => ?_, fun buf b hs hbuf hb => ?_, h8_advance ho⟩
  · rw [← State.dataWord_full] at hr
    subst hr
    simp only [h6_check ho hs, State.full_iff]
  · have hw : WritesAt s.params.fillOrder .h7 .h8 .h7 := .inr ⟨ho, rfl, rfl, rfl⟩
    exact ⟨fill_room hw hs hbuf hb, fill_overflow hw hs hbuf hb, fill_lost hw hs hbuf hb⟩

/-- Settles O60: the lemma of each label. -/
theorem handlerMicroSteps : Obligations.HandlerMicroSteps := by
  intro s l
  refine ⟨h1_next, h2_next, h3_next, h2a_next, h2b_next, h3a_next, h3b_next,
    fun hs => ⟨h4_empty hs, fun b hb => h4_occupied hs hb⟩, h5_next, fun buf b ho hs hbuf hb => ?_, h7_next,
    fun ho hs r hr => ?_⟩
  · have hw : WritesAt s.params.fillOrder .h6 .h7 .h6 := .inl ⟨ho, rfl, rfl, rfl⟩
    exact ⟨fill_room hw hs hbuf hb, fill_overflow hw hs hbuf hb, fill_lost hw hs hbuf hb⟩
  · rw [← State.dataWord_full] at hr
    subst hr
    simp only [h8_next ho hs, State.full_iff]

/-! ## The completion path -/

/-- H1 to H3 with the cursor at the length under `WriteWhole`. -/
theorem completion_writeWhole {s : State} {l : HsLocals} (hs : s.hs = some ⟨.h1, l⟩)
    (hc : s.drv.cursor = s.drv.length) (hm : s.params.doneWriteMode = .writeWhole) :
    execTimes .handleInterrupt 3 s = .next { s with
      hw := { s.hw with txctrl := ⟨false, false, 0⟩, ie := ⟨false, false⟩ }
      trace := s.trace ++ [.mmio .handler .write 0x08 0#32, .mmio .handler .write 0x10 0#32]
      hs := some ⟨.h4, { l with c := s.drv.cursor, n := s.drv.length }⟩ } := by
  refine execTimes_next (h1_next hs) ?_
  rw [if_pos hc, if_pos hm]
  refine execTimes_next (h2_next rfl) ?_
  refine execTimes_next (h3_next rfl) ?_
  simp

/-- Settles O32: H1 to H3, and each case of H4. -/
theorem handlerCompletesTransfer : Obligations.HandlerCompletesTransfer := by
  rintro s l hs hc hm _ rfl
  refine ⟨fun hn => ?_, fun b hb hcl => ?_, fun b c hb hcl => ?_⟩ <;>
    refine execTimes_append (n := 1) (completion_writeWhole hs hc hm) ?_
  · exact execTimes_next (h4_empty rfl hn) rfl
  · refine execTimes_next (h4_occupied rfl hb) ?_
    simp [completionEvent, hcl]
  · refine execTimes_next (h4_occupied rfl hb) ?_
    simp [completionEvent, hcl]

end Sys2Proof.Machine
end

section
/-! handle_interrupt's paths from H1, the faults it can raise, and the bound within which it returns (rules R183 to
R188, R245). -/

namespace Sys2Proof.Machine

/-! ## The completion path under `ClearField` -/

section

variable {s : State} {l : HsLocals}

theorem h2b_clear (hs : s.hs = some ⟨.h2b, l⟩) {r : Txctrl} (ht : l.t = r.word) :
    exec .handleInterrupt s = .next { s with
      hw := { s.hw with txctrl := { r with txen := false } }
      trace := s.trace ++ [.mmio .handler .write 0x08 (Txctrl.word { r with txen := false })]
      hs := some ⟨.h3a, l⟩ } := by
  rw [exec_handleInterrupt hs, handlerStep, ht, handlerWrite_txctrl_clear]
  rfl

theorem h3b_clear (hs : s.hs = some ⟨.h3b, l⟩) {w : Watermarks} (ht : l.t = w.word) :
    exec .handleInterrupt s = .next { s with
      hw := { s.hw with ie := { w with txwm := false } }
      trace := s.trace ++ [.mmio .handler .write 0x10 (Watermarks.word { w with txwm := false })]
      hs := some ⟨.h4, l⟩ } := by
  rw [exec_handleInterrupt hs, handlerStep, ht, handlerWrite_ie_clear]
  rfl

/-- H1 to H3b with the cursor at the length under `ClearField`. -/
theorem completion_clearField (hs : s.hs = some ⟨.h1, l⟩) (hc : s.drv.cursor = s.drv.length)
    (hm : s.params.doneWriteMode = .clearField) :
    execTimes .handleInterrupt 5 s = .next { s with
      hw := { s.hw with txctrl := { s.hw.txctrl with txen := false }, ie := { s.hw.ie with txwm := false } }
      trace := s.trace ++ [
        .mmio .handler .read 0x08 s.hw.txctrl.word,
        .mmio .handler .write 0x08 (Txctrl.word { s.hw.txctrl with txen := false }),
        .mmio .handler .read 0x10 s.hw.ie.word,
        .mmio .handler .write 0x10 (Watermarks.word { s.hw.ie with txwm := false })]
      hs := some ⟨.h4, { l with c := s.drv.cursor, n := s.drv.length, t := s.hw.ie.word }⟩ } := by
  have hne : s.params.doneWriteMode ≠ .writeWhole := by simp [hm]
  refine execTimes_next (h1_next hs) ?_
  rw [if_pos hc, if_neg hne]
  refine execTimes_next (h2a_next rfl) ?_
  refine execTimes_next (h2b_clear rfl rfl) ?_
  refine execTimes_next (h3a_next rfl) ?_
  refine execTimes_next (h3b_clear rfl rfl) ?_
  simp

end

/-- Settles O33: H1 to H3b, and each case of H4. -/
theorem handlerClearsFields : Obligations.HandlerClearsFields := by
  rintro s l hs hc hm _ rfl
  refine ⟨⟨_, rfl, completion_clearField hs hc hm⟩, fun hn => ?_, fun b hb hcl => ?_, fun b c hb hcl => ?_⟩ <;>
    refine execTimes_append (n := 1) (completion_clearField hs hc hm) ?_
  · exact execTimes_next (h4_empty rfl hn) rfl
  · refine execTimes_next (h4_occupied rfl hb) ?_
    simp [completionEvent, hcl]
  · refine execTimes_next (h4_occupied rfl hb) ?_
    simp [completionEvent, hcl]

/-! ## The continuation path -/

/-- Settles O35: H5's condition holds for either cause. -/
theorem handlerSkipsWithoutWork : Obligations.HandlerSkipsWithoutWork := by
  intro s l hs hc hskip
  refine execTimes_next (h1_next hs) ?_
  rw [if_neg hc]
  refine execTimes_next (h5_next rfl) ?_
  rw [if_pos (hskip.imp_right Nat.le_of_lt)]
  rfl

/-- At the top of the continuation loop with index `i` and otherwise the locals `l`. -/
def atH6 (l : HsLocals) (i : Nat) (s : State) : State := s.hgoto .h6 { l with i := i }

section

variable {s : State} {l : HsLocals} {buf : Buffer}

/-- H6 to H8, one turn of the continuation (rules R181, R183). -/
theorem handler_turn {i : Nat} {b : Byte} (ho : s.params.fillOrder = .writeThenCheck) (hbuf : s.drv.slot = some buf)
    (hb : buf.data[i]? = some b) (hr : s.hw.txfifo.length < s.params.txDepth) :
    execTimes .handleInterrupt 3 (atH6 l i s) = .next (
      if s.hw.txfifo.length + 1 = s.params.txDepth ∨ i + 1 = l.n.toNat then (fillOne .handler i b s).handlerReturn
      else atH6 l (i + 1) (fillOne .handler i b s)) := by
  refine execTimes_next (fill_room (by exact .inl ⟨ho, rfl, rfl, rfl⟩) rfl (by exact hbuf) hb hr) ?_
  refine execTimes_next (h7_next ho rfl) ?_
  refine execTimes_next (h8_next ho rfl) ?_
  by_cases hend : s.hw.txfifo.length + 1 = s.params.txDepth ∨ i + 1 = l.n.toNat <;>
    simp [State.full, State.occTx, atH6, State.hgoto, State.handlerReturn, fillOne, writeCheckEvents, hend]

/-- The continuation loop from H6 on, over as many bytes as are left or as fit (rule R183). -/
theorem handler_loop (ho : s.params.fillOrder = .writeThenCheck) (hbuf : s.drv.slot = some buf)
    (hlen : l.n.toNat ≤ buf.data.length) {i m : Nat} (hi : i + (m + 1) ≤ l.n.toNat)
    (hroom : s.hw.txfifo.length + (m + 1) ≤ s.params.txDepth)
    (hend : s.hw.txfifo.length + (m + 1) = s.params.txDepth ∨ i + (m + 1) = l.n.toNat) :
    execTimes .handleInterrupt (3 * (m + 1)) (atH6 l i s) =
      .next (fillAll .handler i ((buf.data.drop i).take (m + 1)) s).handlerReturn :=
  execTimes_fill (top := atH6 l) (fin := fun _ => State.handlerReturn)
    (P := fun s => s.params.fillOrder = .writeThenCheck ∧ s.drv.slot = some buf)
    (fun _ _ _ h => h) (fun _ _ _ h _ hb hr => handler_turn h.1 h.2 hb hr) hlen m i s ⟨ho, hbuf⟩ hi hroom hend

end

/-- Settles O34: H1, H5, and the continuation loop. -/
theorem handlerContinuesTransfer : Obligations.HandlerContinuesTransfer := by
  intro s l buf m hs ho hbuf hlt hlen hroom hm
  obtain ⟨j, rfl⟩ : ∃ j, m = j + 1 := Nat.exists_eq_succ_of_ne_zero (by omega)
  have hc : s.drv.cursor ≠ s.drv.length := fun h => absurd hlt (by rw [h]; exact Nat.lt_irrefl _)
  have hwork : ¬ (s.drv.slot = none ∨ s.drv.length.toNat ≤ s.drv.cursor.toNat) := by
    rw [hbuf]
    simp [hlt]
  refine execTimes_next (h1_next hs) ?_
  rw [if_neg hc]
  refine execTimes_next (h5_next rfl) ?_
  rw [if_neg hwork]
  refine Eq.trans (handler_loop (l := ⟨l.s, s.drv.cursor, s.drv.length, s.drv.cursor.toNat, l.t⟩) (by exact ho)
    (by exact hbuf) hlen (by simp only; omega) (by simp only; omega) (by simp only; omega)) ?_
  have htake : ((buf.data.drop s.drv.cursor.toNat).take (j + 1)).length = j + 1 :=
    List.length_take_of_le (by rw [List.length_drop]; omega)
  simp [State.handlerReturn, fillAll, htake, BitVec.ofNat_add]

/-! ## The faults -/

/-- What handler code can raise (rule R188). -/
def HandlerFault (f : FaultRecord) : Prop := f.reason = .handlerIndexOutOfRange ∨ f.reason = .txOverflow

/-- handle_interrupt answers a next state, in which a fault is one of the two of rule R188. -/
def RaisesHandlerFault (s : State) : Prop :=
  ∃ t, exec .handleInterrupt s = .next t ∧ ∀ f, t.fault = some f → HandlerFault f

section

variable {s t : State} {lbl next : HsLabel} {l : HsLocals} {m : MicroStep}

theorem raisesHandlerFault_of_none (hx : exec .handleInterrupt s = .next t) (hf : t.fault = none) :
    RaisesHandlerFault s :=
  ⟨t, hx, fun f h => by simp [hf] at h⟩

theorem raisesHandlerFault_of_raise {r : FaultReason} (hx : exec .handleInterrupt s = .next (s.raise r .handler m))
    (hr : r = .handlerIndexOutOfRange ∨ r = .txOverflow) : RaisesHandlerFault s :=
  ⟨_, hx, fun f h => by cases h; exact hr⟩

/-- The fill's write raises one of the two, or none. -/
theorem raisesHandlerFault_fill (hw : WritesAt s.params.fillOrder lbl next m) (hs : s.hs = some ⟨lbl, l⟩)
    (hf : s.fault = none) : RaisesHandlerFault s := by
  have hx := exec_handlerFill hw hs
  rcases handlerFill_cases m next l s with ⟨-, e⟩ | ⟨b, -, ⟨-, e⟩ | e | e⟩ <;> rw [e] at hx
  · exact raisesHandlerFault_of_raise hx (.inl rfl)
  · exact raisesHandlerFault_of_none hx hf
  · exact raisesHandlerFault_of_raise hx (.inr rfl)
  · exact raisesHandlerFault_of_none hx hf

end

/-- Settles O38: only the fill's write can raise; a value without a reserved bit is written back. -/
theorem handlerRaisesNoOtherFault : Obligations.HandlerRaisesNoOtherFault := by
  rintro s ⟨lbl, l⟩ hs hf h2b h3b
  show RaisesHandlerFault s
  cases lbl with
  | h0 => exact raisesHandlerFault_of_none (handlerTakesSnapshot s l hs _ rfl) hf
  | h1 => exact raisesHandlerFault_of_none (h1_next hs) hf
  | h2 => exact raisesHandlerFault_of_none (h2_next hs) hf
  | h3 => exact raisesHandlerFault_of_none (h3_next hs) hf
  | h2a => exact raisesHandlerFault_of_none (h2a_next hs) hf
  | h2b => exact raisesHandlerFault_of_none (h2b_next hs (h2b rfl)) hf
  | h3a => exact raisesHandlerFault_of_none (h3a_next hs) hf
  | h3b => exact raisesHandlerFault_of_none (h3b_next hs (h3b rfl)) hf
  | h4 =>
    cases hb : s.drv.slot with
    | none => exact raisesHandlerFault_of_none (h4_empty hs hb) hf
    | some b => exact raisesHandlerFault_of_none (h4_occupied hs hb) hf
  | h5 => exact raisesHandlerFault_of_none (h5_next hs) hf
  | h6 =>
    cases ho : s.params.fillOrder with
    | writeThenCheck => exact raisesHandlerFault_fill (.inl ⟨ho, rfl, rfl, rfl⟩) hs hf
    | checkThenWrite => exact raisesHandlerFault_of_none (h6_check ho hs) hf
  | h7 =>
    cases ho : s.params.fillOrder with
    | writeThenCheck => exact raisesHandlerFault_of_none (h7_next ho hs) hf
    | checkThenWrite => exact raisesHandlerFault_fill (.inr ⟨ho, rfl, rfl, rfl⟩) hs hf
  | h8 =>
    cases ho : s.params.fillOrder with
    | writeThenCheck => exact raisesHandlerFault_of_none (h8_next ho hs) hf
    | checkThenWrite => exact raisesHandlerFault_of_none (h8_advance ho hs) hf

/-! ## The bound -/

/-- The bytes that the slot's buffer holds. -/
def slotSize (s : State) : Nat := (s.drv.slot.map fun b => b.data.length).getD 0

/-- How many micro-steps the handler can still take at `h` before it returns: three for each byte of a buffer of `size`
bytes from the index on, and those of the completion path (rules R181, R186, R187). -/
def handlerRank (o : FillOrder) (size : Nat) (h : Hs) : Nat :=
  match h.lbl, o with
  | .h0, _ => 3 * size + 7
  | .h1, _ => 3 * size + 6
  | .h2, _ => 3
  | .h3, _ => 2
  | .h2a, _ => 5
  | .h2b, _ => 4
  | .h3a, _ => 3
  | .h3b, _ => 2
  | .h4, _ => 1
  | .h5, _ => 3 * size + 3
  | .h6, .writeThenCheck => 3 * (size - h.loc.i) + 1
  | .h7, .writeThenCheck => 3 * (size - (h.loc.i + 1)) + 3
  | .h8, .writeThenCheck => 3 * (size - (h.loc.i + 1)) + 2
  | .h6, .checkThenWrite => 3 * (size - h.loc.i) + 2
  | .h7, .checkThenWrite => 3 * (size - h.loc.i) + 1
  | .h8, .checkThenWrite => 3 * (size - (h.loc.i + 1)) + 3

theorem handlerRank_le (o : FillOrder) (size : Nat) (h : Hs) : handlerRank o size h ≤ 3 * size + 7 := by
  obtain ⟨lbl, l⟩ := h
  cases lbl <;> cases o <;> simp only [handlerRank] <;> omega

/-- The handler has returned or a fault is set. -/
def State.HandlerOver (s : State) : Prop := s.hs = none ∨ s.fault ≠ none

/-- `t` ends the handler, or has it at a context of lower rank than `h` at `s`. -/
def Descends (s : State) (h : Hs) (t : State) : Prop :=
  t.HandlerOver ∨ ∃ h', t.hs = some h' ∧ t.params.fillOrder = s.params.fillOrder ∧ slotSize t = slotSize s ∧
    handlerRank s.params.fillOrder (slotSize s) h' < handlerRank s.params.fillOrder (slotSize s) h

theorem lt_slotSize {s : State} {i : Nat} {b : Byte} (hb : byteAt? s.drv.slot i = some b) : i < slotSize s := by
  cases hs : s.drv.slot with
  | none => simp [byteAt?, hs] at hb
  | some buf =>
    rw [hs, byteAt?_some] at hb
    obtain ⟨hi, -⟩ := List.getElem?_eq_some_iff.1 hb
    simpa [slotSize, hs] using hi

section

variable {s t : State} {lbl next : HsLabel} {l : HsLocals} {m : MicroStep}

theorem descends_of_none {h : Hs} (ht : t.hs = none) : Descends s h t := .inl (.inl ht)

theorem descends_of_raise {h : Hs} {r : FaultReason} {c : Ctx} : Descends s h (s.raise r c m) :=
  .inl (.inr (Option.some_ne_none _))

/-- The fill's write faults, or the index is inside the buffer and the rank falls. -/
theorem handlerFill_descends (hw : WritesAt s.params.fillOrder lbl next m) :
    Descends s ⟨lbl, l⟩ (handlerFill m next l s) := by
  have falls : ∀ {b}, byteAt? s.drv.slot l.i = some b →
      handlerRank s.params.fillOrder (slotSize s) ⟨next, l⟩ < handlerRank s.params.fillOrder (slotSize s) ⟨lbl, l⟩ := by
    intro b hb
    have hi := lt_slotSize hb
    rcases hw with ⟨ho, rfl, rfl, -⟩ | ⟨ho, rfl, rfl, -⟩ <;> simp only [handlerRank, ho] <;> omega
  rcases handlerFill_cases m next l s with ⟨-, e⟩ | ⟨b, hb, ⟨-, e⟩ | e | e⟩ <;> rw [e]
  · exact descends_of_raise
  · exact .inr ⟨_, rfl, rfl, rfl, falls hb⟩
  · exact descends_of_raise
  · exact .inr ⟨_, rfl, rfl, rfl, falls hb⟩

/-- Every micro-step but the fill's write. -/
theorem HsStep.descends (hx : HsStep lbl l s t) (hw : ∀ next m, ¬ WritesAt s.params.fillOrder lbl next m) :
    Descends s ⟨lbl, l⟩ t := by
  have down : ∀ {n l' u}, u.hs = some ⟨n, l'⟩ → u.params.fillOrder = s.params.fillOrder → slotSize u = slotSize s →
      handlerRank s.params.fillOrder (slotSize s) ⟨n, l'⟩ < handlerRank s.params.fillOrder (slotSize s) ⟨lbl, l⟩ →
      Descends s ⟨lbl, l⟩ u := fun hu ho hz hr => .inr ⟨_, hu, ho, hz, hr⟩
  cases hx
  case raise r m => exact descends_of_raise
  case snapshot hl _ | resume hl _ | h2 hl | h3 hl | h2a hl | h2b hl | h3a hl | h3b hl =>
    subst hl
    exact down rfl rfl rfl (by simp only [handlerRank]; omega)
  case complete n hl _ hn =>
    subst hl
    rcases hn with rfl | rfl <;> exact down rfl rfl rfl (by simp only [handlerRank]; omega)
  case enter b hl _ _ =>
    subst hl
    exact down rfl rfl rfl (by cases s.params.fillOrder <;> simp only [handlerRank] <;> omega)
  case cursor hl ho | checkAgain hl ho _ | checkRoom hl ho | again hl ho _ =>
    subst hl
    exact down rfl rfl rfl (by simp only [handlerRank, ho]; omega)
  case fill b n hn _ _ | fillLost b n hn =>
    rcases hn with ⟨ho, rfl, rfl⟩ | ⟨ho, rfl, rfl⟩
    · exact absurd (.inl ⟨ho, rfl, rfl, rfl⟩) (hw _ _)
    · exact absurd (.inr ⟨ho, rfl, rfl, rfl⟩) (hw _ _)
  all_goals exact descends_of_none rfl

end

/-- Every micro-step of the handler ends it or lowers its rank. -/
theorem exec_handler_descends {s : State} {h : Hs} (hs : s.hs = some h) :
    ∃ t, exec .handleInterrupt s = .next t ∧ Descends s h t := by
  obtain ⟨lbl, l⟩ := h
  by_cases hw : ∃ next m, WritesAt s.params.fillOrder lbl next m
  · obtain ⟨next, m, hw⟩ := hw
    exact ⟨_, exec_handlerFill hw hs, handlerFill_descends hw⟩
  · exact ⟨_, exec_handleInterrupt hs,
      (hsStep_handlerStep lbl l s).descends fun next m h => hw ⟨next, m, h⟩⟩

/-- A handler of rank below `r` is over within `r` micro-steps. -/
theorem handler_over (r : Nat) : ∀ (s : State) (h : Hs), s.hs = some h →
    handlerRank s.params.fillOrder (slotSize s) h < r →
    ∃ n t, n ≤ r ∧ execTimes .handleInterrupt n s = .next t ∧ t.HandlerOver := by
  induction r with
  | zero =>
    intro s h _ hr
    exact absurd hr (Nat.not_lt_zero _)
  | succ r ih =>
    intro s h hs hr
    obtain ⟨t, hx, hover | ⟨h', ht, ho, hz, hlt⟩⟩ := exec_handler_descends hs
    · exact ⟨1, t, by omega, execTimes_next hx rfl, hover⟩
    · obtain ⟨n, u, hn, hu, hover⟩ := ih t h' ht (by rw [ho, hz]; omega)
      exact ⟨n + 1, u, by omega, execTimes_next hx hu, hover⟩

/-- Settles O39: the rank bounds the micro-steps that are left. -/
theorem handlerReturnsOrFaults : Obligations.HandlerReturnsOrFaults := by
  intro s h hs
  have hr := handlerRank_le s.params.fillOrder (slotSize s) h
  obtain ⟨n, t, hn, hx, hover⟩ := handler_over (3 * slotSize s + 12) s h hs (by omega)
  exact ⟨n, t, hn, hx, hover⟩

end Sys2Proof.Machine
end
